-- ==== Sys2Proof/Word.lean ====
section
/-! DEFINITION. The widths of the unit's data (spec/00_scope.md R8, R10) and the type of its memories. -/

namespace Sys2Proof

/-- A BUF byte, a symbol, a codeword length: 8 bits (spec/00_scope.md R10). -/
abbrev Byte := BitVec 8

/-- A control register and the host's data bus: `XLEN` = 32 bits (spec/00_scope.md R8, R10). -/
abbrev Word := BitVec 32

/-- A sparse memory: (key, value) pairs, keys strictly rising. `Memory Byte` is a list of `Host.Cell`. -/
abbrev Memory (β : Type) := List (Nat × β)

end Sys2Proof
end

