-- ==== Sys2Proof/Config.lean ====
section
/-! DEFINITION. What an implementation fixes (spec/00_scope.md R8) and the free values: what the spec leaves
unspecified after reset (spec/10_state.md R40). -/

namespace Sys2Proof

/-- The implementation parameters a model takes as arguments (spec/00_scope.md R8, spec/92_eei_decisions.md D4, D36).
No step writes them. -/
structure Params where
  /-- `BUF_LOG2`: log2 of the size of BUF in bytes, an integer in 12..20. -/
  bufLog2 : Nat
  /-- `UNIT_BASE`: the system address of port offset 0 (OPEN; spec/20_memory.md R63). -/
  unitBase : Nat
  /-- `IRQ_LINE`: the platform's interrupt line the IRQ output drives (OPEN; spec/60_exceptions.md R238). -/
  irqLine : Nat
  bufLog2_ge : 12 ≤ bufLog2
  bufLog2_le : bufLog2 ≤ 20
  unitBase_aligned : unitBase % 0x200000 = 0
deriving DecidableEq, Repr

/-- `BUF_LOG2` = 16 is the spec's default (spec/00_scope.md R8). DESIGN CHOICE: the two OPEN parameters are 0 here
(log entry 8, unsafe for a claim about this value; statements are about every `Params`). -/
def Params.default : Params :=
  { bufLog2 := 16, unitBase := 0, irqLine := 0,
    bufLog2_ge := by decide, bufLog2_le := by decide, unitBase_aligned := by decide }

/-- Free value: what `BUF[a]` holds after the reset numbered `epoch`, until it is written (spec/10_state.md R40,
spec/93_implementation_defined.md S1; log entry 1). -/
opaque Config.bufAtReset : (epoch a : Nat) → Byte

/-- Free value: what 32-bit word `k % 8` of `CT_CW[k / 8]` holds after the reset numbered `epoch`, until it is written
(spec/10_state.md R40, spec/93_implementation_defined.md S2; log entry 2). -/
opaque Config.ctCwAtReset : (epoch k : Nat) → Word

/-- Free value: what `FREQ[s]` holds after the reset numbered `epoch`, until the first successful HUF_BUILD
(spec/10_state.md R40, spec/93_implementation_defined.md S3; log entry 3). -/
opaque Config.freqAtReset : (epoch s : Nat) → Word

end Sys2Proof
end

