-- ==== Sys2Proof/Machine/State.lean ====
section
/-! DEFINITION. The state of the unit and of the agents around it, as plain data, and the state after reset
(spec/10_state.md R22, R40; spec/00_scope.md R18). -/

namespace Sys2Proof.Machine

/-- The 13 control registers at port offsets 0x000, 0x004, ..., 0x030 (spec/10_state.md section 2, spec/20_memory.md R65). -/
inductive Reg where
  | id | caps | ctrl | status | cmd | srcAddr | srcLen | dstAddr | auxAddr | resLen | resCnt | group | hres
deriving DecidableEq, Repr

/-- The width of a host access: 1, 2 or 4 bytes (spec/20_memory.md R60). -/
inductive Width where
  | w1 | w2 | w4
deriving DecidableEq, Repr

/-- What a host access does (spec/20_memory.md R60). -/
inductive AccessKind where
  | read
  | write (v : Word)
deriving DecidableEq, Repr

/-- One host access, at a system address (spec/20_memory.md R60, R63). -/
structure Access where
  kind : AccessKind
  width : Width
  addr : Nat
deriving DecidableEq, Repr

/-- What the port answers to a host access. -/
inductive Answer where
  /-- A read's data (spec/20_memory.md R69; 0 where R70 refuses the read). -/
  | data (v : Word)
  /-- A write has been served, refused writes included (spec/20_memory.md R69, R70, R71). -/
  | written
  /-- A bus error: no state change, no data (spec/20_memory.md R67). -/
  | busError
  /-- The address lies outside [UNIT_BASE, UNIT_BASE + 0x200000): the access is not this unit's (spec/20_memory.md R63). -/
  | notReached
deriving DecidableEq, Repr

/-- One statement of what the host does next: an access, or the only control flow of a host script
(spec/30_encoding.md R98, R99). -/
inductive HostItem where
  | access (a : Access)
  /-- `wait`: read STATUS until bit 0 (BUSY) reads 0. -/
  | wait
deriving DecidableEq, Repr

/-- Who moves in a step: the two agents of spec/00_scope.md R18, and the platform's reset input
(spec/70_reset_and_hazards.md R260). -/
inductive Agent where
  | unit | host | platformReset
deriving DecidableEq, Repr

/-- The error codes a completion can record (spec/60_exceptions.md R230; E_NONE is success). -/
inductive ErrorCode where
  | badCmd | range | overlap | malformed | bitRange | empty | noSym | decode
deriving DecidableEq, Repr

/-- The state. The fields up to `freq` are exactly the list of spec/10_state.md R22; `cfg` holds the parameters
(spec/00_scope.md R8); the last four are the model's own (log entries 4 and 6). -/
structure State where
  /-- CTRL.IE -/
  ie : Bool
  /-- STATUS.BUSY: a command is pending -/
  busy : Bool
  /-- STATUS.DONE -/
  done : Bool
  /-- STATUS.HAZ -/
  haz : Bool
  /-- STATUS.ECODE -/
  ecode : BitVec 4
  /-- CMD: the last accepted command word -/
  cmd : Word
  srcAddr : Word
  srcLen : Word
  dstAddr : Word
  auxAddr : Word
  resLen : Word
  resCnt : Word
  /-- GROUP[6:0] -/
  group : BitVec 7
  /-- HRES[19:0] -/
  hres : BitVec 20
  /-- BUF: the bytes written since reset, by BUF offset -/
  buf : List Host.Cell
  /-- CT_LEN: the non-zero lengths, by symbol -/
  ctLen : Memory Byte
  /-- CT_CW: the words written since reset; word `j` of `CT_CW[s]` under key `8 * s + j` -/
  ctCw : Memory Word
  /-- FREQ: the counters written since reset, by symbol -/
  freq : Memory Word
  /-- The implementation parameters; no step writes them -/
  cfg : Params
  /-- The model's own: the index of the free values, one more after every reset -/
  epoch : Nat
  /-- The model's own: who moves in the coming steps -/
  sched : List Agent
  /-- The model's own: what the host will do -/
  script : List HostItem
  /-- The model's own: what the port has answered, newest first -/
  answers : List Answer
deriving DecidableEq, Repr

/-- Why the machine stops with a fault: never. A command error is a completion (spec/60_exceptions.md R235) and a bus
error is an answer to the host (spec/20_memory.md R67), so nothing raises a fault (log entry 9: safe). -/
inductive Fault : Type
deriving DecidableEq, Repr

/-- Why the model has no next state. -/
inductive Refusal where
  /-- Raised by `exec` alone, for a command that has no meaning yet: safe. No arm of this model raises it. -/
  | notModelled (mnemonic : String)
deriving DecidableEq, Repr

/-- The state right after a reset with parameters `cfg`, the free values indexed by `epoch`
(spec/10_state.md R40, spec/70_reset_and_hazards.md R260). -/
def State.afterReset (cfg : Params) (epoch : Nat) : State :=
  { ie := false, busy := false, done := false, haz := false, ecode := 0, cmd := 0,
    srcAddr := 0, srcLen := 0, dstAddr := 0, auxAddr := 0, resLen := 0, resCnt := 0,
    group := 0, hres := 0, buf := [], ctLen := [], ctCw := [], freq := [],
    cfg := cfg, epoch := epoch, sched := [], script := [], answers := [] }

/-- The machine right after reset: idle, interrupt masked, nothing scheduled (spec/10_state.md R40,
spec/70_reset_and_hazards.md R261). The parameters are `Params.default` (log entry 8). -/
def State.reset : State := State.afterReset Params.default 0

end Sys2Proof.Machine
end

