-- ==== Sys2Proof/Machine/Flags.lean ====
section
/-! DEFINITION. The flags: BUSY, DONE, ERR, HAZ, ECODE and CTRL.IE, who sets and clears each, and the IRQ output
(spec/10_state.md R25, R26, R36; spec/60_exceptions.md R230, R238). -/

namespace Sys2Proof.Machine

/-- The code of an error in STATUS.ECODE (spec/60_exceptions.md R230). -/
def ErrorCode.code : ErrorCode → BitVec 4
  | .badCmd => 1
  | .range => 2
  | .overlap => 3
  | .malformed => 4
  | .bitRange => 5
  | .empty => 6
  | .noSym => 7
  | .decode => 8

/-- STATUS.ERR: not separate state, it reads ECODE != 0 (spec/10_state.md R25). -/
def State.err (s : State) : Bool := s.ecode != 0

/-- The STATUS word: BUSY [0], DONE [1], ERR [2], HAZ [3], ECODE [11:8], the rest 0 (spec/10_state.md R25). -/
def State.statusWord (s : State) : Word :=
  0#20 ++ s.ecode ++ 0#4 ++ BitVec.ofBool s.haz ++ BitVec.ofBool s.err ++ BitVec.ofBool s.done ++ BitVec.ofBool s.busy

/-- The CTRL word: IE [0], the rest 0 (spec/10_state.md R26). -/
def State.ctrlWord (s : State) : Word := 0#31 ++ BitVec.ofBool s.ie

/-- The IRQ output, a level: DONE and CTRL.IE (spec/60_exceptions.md R238). -/
def State.irq (s : State) : Bool := s.done && s.ie

/-- What the unit drives on the platform's interrupt line `line`: IRQ on `IRQ_LINE`, nothing on any other
(spec/60_exceptions.md R238). -/
def State.irqOn (s : State) (line : Nat) : Bool := line == s.cfg.irqLine && s.irq

/-- Acceptance of the command word `w` (spec/40_command_execution.md R112). -/
def State.accept (s : State) (w : Word) : State :=
  { s with cmd := w, busy := true, done := false, ecode := 0 }

/-- A host access refused because the unit is busy: HAZ is set, nothing else changes (spec/20_memory.md R70, R71). -/
def State.refuse (s : State) : State := { s with haz := true }

/-- The flags of every completion: ECODE is recorded, BUSY falls, DONE rises (spec/40_command_execution.md R114). -/
def State.complete (s : State) (ecode : BitVec 4) : State :=
  { s with ecode := ecode, busy := false, done := true }

/-- A write to STATUS: DONE and HAZ are cleared where the value has a 1, nothing else changes (spec/10_state.md R25). -/
def State.writeStatus (s : State) (v : Word) : State :=
  { s with done := s.done && !v.getLsbD 1, haz := s.haz && !v.getLsbD 3 }

/-- A write to CTRL: IE takes bit 0 (spec/10_state.md R26). -/
def State.writeCtrl (s : State) (v : Word) : State := { s with ie := v.getLsbD 0 }

end Sys2Proof.Machine
end

