-- ==== Sys2Proof/Machine/Memory.lean ====
section
/-! DEFINITION. The sparse memories: one canonical form, one reader, one writer. `unlisted` is what an unlisted key
reads as: `none` where that is no fixed value (BUF, CT_CW, FREQ; log entries 1, 2, 3, 5), `some 0` for CT_LEN. -/

namespace Sys2Proof.Machine

/-- The listed value at key `k`. -/
def Memory.find {β : Type} : Memory β → Nat → Option β
  | [], _ => none
  | (j, b) :: m, k => if k = j then some b else Memory.find m k

/-- Lists `v` at key `k`, in place. -/
def Memory.insert {β : Type} : Memory β → Nat → β → Memory β
  | [], k, v => [(k, v)]
  | (j, b) :: m, k, v =>
    if k < j then (k, v) :: (j, b) :: m
    else if k = j then (k, v) :: m
    else (j, b) :: Memory.insert m k v

/-- Drops key `k`. -/
def Memory.erase {β : Type} : Memory β → Nat → Memory β
  | [], _ => []
  | (j, b) :: m, k => if k = j then m else (j, b) :: Memory.erase m k

/-- Writes `v` at key `k`; the value an unlisted key reads as is not listed. -/
def Memory.write {β : Type} [DecidableEq β] (unlisted : Option β) (m : Memory β) (k : Nat) (v : β) : Memory β :=
  if unlisted = some v then Memory.erase m k else Memory.insert m k v

/-- The memory that holds `f k` at every key `k < n` and lists nothing else. -/
def Memory.tabulate {β : Type} [DecidableEq β] (unlisted : Option β) (n : Nat) (f : Nat → β) : Memory β :=
  (List.range n).filterMap fun k => if unlisted = some (f k) then none else some (k, f k)

/-- The keys rise strictly. -/
def Memory.rising {β : Type} : Memory β → Bool
  | [] => true
  | [_] => true
  | (j, _) :: (k, b) :: m => decide (j < k) && Memory.rising ((k, b) :: m)

/-- The canonical form: keys strictly rising and below `bound`, and no entry equal to what an unlisted key reads as. -/
def Memory.wf {β : Type} [DecidableEq β] (unlisted : Option β) (bound : Nat) (m : Memory β) : Bool :=
  Memory.rising m && m.all fun c => decide (c.1 < bound) && decide (unlisted ≠ some c.2)

end Sys2Proof.Machine
end

