-- ==== Sys2Proof/Machine/Ops.lean ====
section
/-! DEFINITION. The operations the commands share: the primitives over BUF (spec/00_scope.md R12), CT and FREQ
(spec/10_state.md R33, R35), and the end of a command (spec/00_scope.md R13, spec/40_command_execution.md R111, R114).
The unit has no traps: an error is a completion with its code (spec/60_exceptions.md R235), and this is the one shared
operation for it. There is no return from it: the host acknowledges through STATUS (R236; `State.writeStatus`). -/

namespace Sys2Proof.Machine

/-- `BUF_BYTES` (spec/00_scope.md R8). -/
def State.bufBytes (s : State) : Nat := 2 ^ s.cfg.bufLog2

/-- `BUF[a]`; a byte nothing has written since reset is a free value (spec/10_state.md R40; log entry 1). -/
def State.bufByte (s : State) (a : Nat) : Byte := (Memory.find s.buf a).getD (Config.bufAtReset s.epoch a)

/-- `BUF[a+i] <- bytes[i]`, on the memory (spec/00_scope.md R12). -/
def Memory.writeBytes (m : Memory Byte) (a : Nat) : List Byte → Memory Byte
  | [] => m
  | b :: bytes => Memory.writeBytes (Memory.write none m a b) (a + 1) bytes

/-- `WriteBytes(a, bytes)` (spec/00_scope.md R12). -/
def State.writeBytes (s : State) (a : Nat) (bytes : List Byte) : State :=
  { s with buf := Memory.writeBytes s.buf a bytes }

/-- `ReadBytes(a, n)` (spec/00_scope.md R12). -/
def State.readBytes (s : State) (a n : Nat) : List Byte := (List.range n).map fun i => s.bufByte (a + i)

/-- The bit a bit-array byte holds; no other value than 0x00 and 0x01 is one (spec/10_state.md R32). -/
def bitOfByte (b : Byte) : Option Bool :=
  if b = 0 then some false else if b = 1 then some true else none

/-- The bit-array byte of a bit: 0x00 or 0x01 (spec/00_scope.md R12). -/
def byteOfBit (b : Bool) : Byte := if b then 1 else 0

/-- The bits of a bit array, if every byte of it is 0x00 or 0x01 (spec/41_hamming.md R141). -/
def bitsOfBytes : List Byte → Option (List Bool)
  | [] => some []
  | b :: bytes =>
    match bitOfByte b, bitsOfBytes bytes with
    | some x, some xs => some (x :: xs)
    | _, _ => none

/-- `ReadBits(a, n)`: defined only when every byte is 0 or 1 (spec/00_scope.md R12). -/
def State.readBits (s : State) (a n : Nat) : Option (List Bool) := bitsOfBytes (s.readBytes a n)

/-- `WriteBits(a, bits)` (spec/00_scope.md R12). -/
def State.writeBits (s : State) (a : Nat) (bits : List Bool) : State := s.writeBytes a (bits.map byteOfBit)

/-- The `n` bytes of `v`, least significant first (spec/00_scope.md R12, spec/20_memory.md R72). -/
def leBytes : (n v : Nat) → List Byte
  | 0, _ => []
  | n + 1, v => BitVec.ofNat 8 v :: leBytes n (v / 256)

/-- The value of bytes stored least significant first (spec/00_scope.md R12, spec/20_memory.md R72). -/
def leValue : List Byte → Nat
  | [] => 0
  | b :: bytes => b.toNat + 256 * leValue bytes

/-- `MemRead(a, n)` (spec/00_scope.md R12). -/
def State.memRead (s : State) (a n : Nat) : Nat := leValue (s.readBytes a n)

/-- `MemWrite(a, n, v)` (spec/00_scope.md R12). -/
def State.memWrite (s : State) (a n v : Nat) : State := s.writeBytes a (leBytes n v)

/-- The 256 symbols in ascending order (spec/00_scope.md R8: `NSYM_MAX`). -/
def symbols : List Byte := (List.range 256).map (BitVec.ofNat 8)

/-- `CT_LEN[c]` (spec/10_state.md R33); 0 where unlisted. -/
def State.ctLenAt (s : State) (c : Byte) : Byte := (Memory.find s.ctLen c.toNat).getD 0

/-- The key of word `j` of `CT_CW[c]` (spec/20_memory.md R66: word `j` is CT window word `j + 1`). -/
def ctCwKey (c : Byte) (j : Nat) : Nat := 8 * c.toNat + j

/-- Word `j` of `CT_CW[c]`; a word nothing has written since reset is a free value (spec/10_state.md R40; log entry 2). -/
def State.ctCwAt (s : State) (c : Byte) (j : Nat) : Word :=
  (Memory.find s.ctCw (ctCwKey c j)).getD (Config.ctCwAtReset s.epoch (ctCwKey c j))

/-- `codeword(c)`: bits 0 .. CT_LEN[c]-1 of `CT_CW[c]`, bit 0 first (spec/10_state.md R33). -/
def State.codeword (s : State) (c : Byte) : List Bool :=
  (List.range (s.ctLenAt c).toNat).map fun i => (s.ctCwAt c (i / 32)).getLsbD (i % 32)

/-- `FREQ[c]`; a counter nothing has written since reset is a free value (spec/10_state.md R40; log entry 3). -/
def State.freqAt (s : State) (c : Byte) : Word :=
  (Memory.find s.freq c.toNat).getD (Config.freqAtReset s.epoch c.toNat)

/-- How a command ends (spec/40_command_execution.md R111): with the state its outputs give and its two counts. -/
inductive CommandEnd where
  /-- `complete(len, cnt)` -/
  | ok (out : State) (len cnt : Nat)
  /-- success that leaves RES_LEN and RES_CNT unchanged: NOP and H_SYND (R118) -/
  | okUnchanged (out : State)
  /-- `raise e`, with what R118 puts in RES_LEN and RES_CNT -/
  | err (e : ErrorCode) (out : State) (len cnt : Nat)
deriving DecidableEq, Repr

/-- RES_LEN and RES_CNT take the two counts (spec/40_command_execution.md R114, R118). -/
def State.setResults (s : State) (len cnt : Nat) : State :=
  { s with resLen := BitVec.ofNat 32 len, resCnt := BitVec.ofNat 32 cnt }

/-- The completion actions (spec/40_command_execution.md R114). -/
def CommandEnd.finish : CommandEnd → State
  | .ok out len cnt => (out.setResults len cnt).complete 0
  | .okUnchanged out => out.complete 0
  | .err e out len cnt => (out.setResults len cnt).complete e.code

/-- An error raised before any output is written: RES_LEN and RES_CNT are 0 (spec/40_command_execution.md R116, R118). -/
def raise (e : ErrorCode) (s : State) : CommandEnd := .err e s 0 0

/-- One check of R116: the first that fails ends the command, before any output is written. What follows the check is
a function, so that a run does not evaluate it where the check fails. -/
def check (passed : Bool) (e : ErrorCode) (s : State) (rest : Unit → CommandEnd) : CommandEnd :=
  if passed then rest () else raise e s

/-- The state an error that writes no output leaves (spec/60_exceptions.md R231, R232). -/
def State.failed (s : State) (e : ErrorCode) : State := (raise e s).finish

end Sys2Proof.Machine
end

