-- ==== Sys2Proof/Machine/Operands.lean ====
section
/-! DEFINITION. The operands: the operand registers as the commands read them (spec/30_encoding.md R91), the regions
they give (spec/40_command_execution.md R117), and the 7-bit group of GROUP (spec/10_state.md R29). -/

namespace Sys2Proof.Machine

/-- A BUF offset range `[addr, addr + len)` (spec/00_scope.md R16). -/
structure Region where
  addr : Nat
  len : Nat
deriving DecidableEq, Repr

/-- `inRange(a, n)` (spec/40_command_execution.md R117). -/
def Region.inRange (r : Region) (bufBytes : Nat) : Bool := r.len == 0 || decide (r.addr + r.len ≤ bufBytes)

/-- `overlap((a, n), (b, m))` (spec/40_command_execution.md R117). -/
def Region.overlaps (r t : Region) : Bool :=
  decide (r.len > 0) && decide (t.len > 0) && decide (r.addr < t.addr + t.len) && decide (t.addr < r.addr + r.len)

/-- `n = SRC_LEN`, an unsigned count of input elements (spec/30_encoding.md R91, spec/10_state.md R28). -/
def State.n (s : State) : Nat := s.srcLen.toNat

/-- The input region `(SRC_ADDR, n)` of every streaming command (spec/40_command_execution.md R117). -/
def State.input (s : State) : Region := ⟨s.srcAddr.toNat, s.n⟩

/-- An output region of `len` bytes at `DST_ADDR` (spec/40_command_execution.md R117). -/
def State.output (s : State) (len : Nat) : Region := ⟨s.dstAddr.toNat, len⟩

/-- H_CORRECT's position region `A`: 4 bytes for each group, its worst case (spec/40_command_execution.md R117). -/
def State.positions (s : State) : Region := ⟨s.auxAddr.toNat, 4 * (s.n / 7)⟩

/-- The input as a byte sequence: `ReadBytes(SRC_ADDR, n)` (spec/42_bitpack.md R175, spec/43_huffman.md R190, R205). -/
def State.inputBytes (s : State) : List Byte := s.readBytes s.srcAddr.toNat s.n

/-- The input as a bit array: `ReadBits(SRC_ADDR, n)`, checked over the whole region (spec/41_hamming.md R141). -/
def State.inputBits (s : State) : Option (List Bool) := s.readBits s.srcAddr.toNat s.n

/-- Check steps 2 to 4 of R116 for a bit-array input: its range, its length in strict mode, its bits. `groupSize` is
7, 4 or 8 (spec/60_exceptions.md R230); HUF_DECODE, which has no strict mode, passes `strict = false`. -/
def withInputBits (strict : Bool) (groupSize : Nat) (s : State) (rest : List Bool → CommandEnd) : CommandEnd :=
  check (s.input.inRange s.bufBytes) .range s fun _ =>
  check (!strict || s.n % groupSize == 0) .malformed s fun _ =>
  match s.inputBits with
  | none => raise .bitRange s
  | some bits => rest bits

/-- Check steps 6 and 7 of R116 for a command with the one output region `(DST_ADDR, len)`. -/
def withOutput (len : Nat) (s : State) (rest : Unit → CommandEnd) : CommandEnd :=
  check ((s.output len).inRange s.bufBytes) .range s fun _ =>
  check (!s.input.overlaps (s.output len)) .overlap s rest

/-- A group of 7 bits: 4 data bits c1..c4 and 3 check bits c5..c7 (spec/00_scope.md R15). -/
structure BitGroup where
  c1 : Bool
  c2 : Bool
  c3 : Bool
  c4 : Bool
  c5 : Bool
  c6 : Bool
  c7 : Bool
deriving DecidableEq, Repr

/-- The elements in order: c1 is index 0, c7 is index 6 (spec/41_hamming.md R140). -/
def BitGroup.toList (c : BitGroup) : List Bool := [c.c1, c.c2, c.c3, c.c4, c.c5, c.c6, c.c7]

/-- `GROUP[i]` holds element c(i+1) (spec/10_state.md R29). -/
def BitGroup.ofBitVec (v : BitVec 7) : BitGroup :=
  ⟨v.getLsbD 0, v.getLsbD 1, v.getLsbD 2, v.getLsbD 3, v.getLsbD 4, v.getLsbD 5, v.getLsbD 6⟩

/-- The bit mapping of GROUP, the other way: bit i is element c(i+1) (spec/10_state.md R29, R30). -/
def BitGroup.toBitVec (c : BitGroup) : BitVec 7 :=
  BitVec.ofBool c.c7 ++ BitVec.ofBool c.c6 ++ BitVec.ofBool c.c5 ++ BitVec.ofBool c.c4 ++ BitVec.ofBool c.c3 ++
    BitVec.ofBool c.c2 ++ BitVec.ofBool c.c1

/-- The complete groups of 7 of a bit stream, in order; fewer than 7 left are dropped (spec/41_hamming.md R148). -/
def groupsOf7 : List Bool → List BitGroup
  | c1 :: c2 :: c3 :: c4 :: c5 :: c6 :: c7 :: rest => ⟨c1, c2, c3, c4, c5, c6, c7⟩ :: groupsOf7 rest
  | _ => []

end Sys2Proof.Machine
end

