-- ==== Sys2Proof/Machine/Bitpack.lean ====
section
/-! DEFINITION. Bit packing: B_PACK and B_UNPACK, most significant bit first (spec/42_bitpack.md). -/

namespace Sys2Proof.Machine

/-- `pack8`: the first bit of a chunk is bit 7 of the byte, the eighth is bit 0 (spec/42_bitpack.md R170). -/
def pack8 (b0 b1 b2 b3 b4 b5 b6 b7 : Bool) : Byte :=
  BitVec.ofBool b0 ++ BitVec.ofBool b1 ++ BitVec.ofBool b2 ++ BitVec.ofBool b3 ++ BitVec.ofBool b4 ++
    BitVec.ofBool b5 ++ BitVec.ofBool b6 ++ BitVec.ofBool b7

/-- `unpack8`: bit 7 first, bit 0 last (spec/42_bitpack.md R170). -/
def unpack8 (x : Byte) : List Bool :=
  [x.getLsbD 7, x.getLsbD 6, x.getLsbD 5, x.getLsbD 4, x.getLsbD 3, x.getLsbD 2, x.getLsbD 1, x.getLsbD 0]

/-- The packed bytes; fewer than 8 bits left are dropped, not padded (spec/42_bitpack.md R171, R172). -/
def packedBytes : List Bool → List Byte
  | b0 :: b1 :: b2 :: b3 :: b4 :: b5 :: b6 :: b7 :: rest => pack8 b0 b1 b2 b3 b4 b5 b6 b7 :: packedBytes rest
  | _ => []

/-- B_PACK and B_PACK.S (spec/42_bitpack.md R171, R172). -/
def execBPack (strict : Bool) (s : State) : Host.Outcome State Fault Refusal :=
  .next (withInputBits strict 8 s fun bits =>
    withOutput (s.n / 8) s fun _ =>
    .ok (s.writeBytes s.dstAddr.toNat (packedBytes bits)) (s.n / 8) (s.n % 8)).finish

/-- B_UNPACK (spec/42_bitpack.md R175). -/
def execBUnpack (s : State) : Host.Outcome State Fault Refusal :=
  .next (check (s.input.inRange s.bufBytes) .range s fun _ =>
    withOutput (8 * s.n) s fun _ =>
    .ok (s.writeBits s.dstAddr.toNat (s.inputBytes.flatMap unpack8)) (8 * s.n) s.n).finish

end Sys2Proof.Machine
end

