-- ==== Sys2Proof/Machine/Control.lean ====
section
/-! DEFINITION. NOP, and the completion of an invalid command word (spec/40_command_execution.md R115, R120). -/

namespace Sys2Proof.Machine

/-- NOP: RES_LEN, RES_CNT, HRES, BUF, CT and FREQ are unchanged; DONE rises (spec/40_command_execution.md R120). -/
def execNop (s : State) : Host.Outcome State Fault Refusal := .next (CommandEnd.okUnchanged s).finish

/-- An invalid command word completes with E_BADCMD and changes nothing but STATUS, RES_LEN and RES_CNT
(spec/40_command_execution.md R115, spec/30_encoding.md R95). -/
def completeInvalid (s : State) : Host.Outcome State Fault Refusal := .next (raise .badCmd s).finish

end Sys2Proof.Machine
end

