-- ==== Sys2Proof/Machine/Hamming.lean ====
section
/-! DEFINITION. The Hamming-7/4 codec and the check-bit strip: H_SYND, H_CORRECT, H_ENCODE, H_STRIP
(spec/41_hamming.md). -/

namespace Sys2Proof.Machine

/-- Parity p1 (spec/41_hamming.md R140). -/
def BitGroup.p1 (c : BitGroup) : Bool := c.c1 ^^ c.c2 ^^ c.c3
/-- Parity p2 (spec/41_hamming.md R140). -/
def BitGroup.p2 (c : BitGroup) : Bool := c.c1 ^^ c.c2 ^^ c.c4
/-- Parity p3 (spec/41_hamming.md R140). -/
def BitGroup.p3 (c : BitGroup) : Bool := c.c2 ^^ c.c3 ^^ c.c4

/-- Mismatch bit m1 (spec/41_hamming.md R142). -/
def BitGroup.m1 (c : BitGroup) : Bool := c.c5 != c.p1
/-- Mismatch bit m2 (spec/41_hamming.md R142). -/
def BitGroup.m2 (c : BitGroup) : Bool := c.c6 != c.p2
/-- Mismatch bit m3 (spec/41_hamming.md R142). -/
def BitGroup.m3 (c : BitGroup) : Bool := c.c7 != c.p3

/-- The fixed truth table of the syndrome, row by row (spec/41_hamming.md R143). -/
def syndromeTable : (m1 m2 m3 : Bool) → Nat
  | true, true, false => 1
  | true, true, true => 2
  | true, false, true => 3
  | false, true, true => 4
  | false, false, false => 0
  | true, false, false => 0
  | false, true, false => 0
  | false, false, true => 0

/-- The syndrome of a group, 0 to 4 (spec/41_hamming.md R143, R144). -/
def BitGroup.syn (c : BitGroup) : Nat := syndromeTable c.m1 c.m2 c.m3

/-- The corrected group: the data bit at the syndrome's 1-based offset is complemented (spec/41_hamming.md R144). -/
def BitGroup.corrected (c : BitGroup) : BitGroup :=
  match c.syn with
  | 1 => { c with c1 := !c.c1 }
  | 2 => { c with c2 := !c.c2 }
  | 3 => { c with c3 := !c.c3 }
  | 4 => { c with c4 := !c.c4 }
  | _ => c

/-- `encode4` (spec/41_hamming.md R147). -/
def encode4 (d1 d2 d3 d4 : Bool) : BitGroup :=
  ⟨d1, d2, d3, d4, d1 ^^ d2 ^^ d3, d1 ^^ d2 ^^ d4, d2 ^^ d3 ^^ d4⟩

/-- The HRES word of a group, bits [19:0]: DATA [19:16] with corrected c1 at [16], M3 [14], M2 [13], M1 [12],
SYN [10:8], CGRP [6:0] (spec/10_state.md R30, spec/41_hamming.md R145). -/
def BitGroup.hres (c : BitGroup) : BitVec 20 :=
  BitVec.ofBool c.corrected.c4 ++ BitVec.ofBool c.corrected.c3 ++ BitVec.ofBool c.corrected.c2 ++
    BitVec.ofBool c.corrected.c1 ++ 0#1 ++ BitVec.ofBool c.m3 ++ BitVec.ofBool c.m2 ++ BitVec.ofBool c.m1 ++ 0#1 ++
    BitVec.ofNat 3 c.syn ++ 0#1 ++ c.corrected.toBitVec

/-- H_SYND: HRES takes the result of the group in GROUP; RES_LEN and RES_CNT are unchanged (spec/41_hamming.md R145). -/
def execHSynd (s : State) : Host.Outcome State Fault Refusal :=
  .next (CommandEnd.okUnchanged { s with hres := (BitGroup.ofBitVec s.group).hres }).finish

/-- The corrected stream (spec/41_hamming.md R148). -/
def correctedBits (groups : List BitGroup) : List Bool := groups.flatMap fun c => c.corrected.toList

/-- The 0-based offsets of the flipped bits, ascending; `j` is the index of the first group
(spec/41_hamming.md R148, R149). -/
def flippedPositions : (j : Nat) → List BitGroup → List Nat
  | _, [] => []
  | j, c :: groups =>
    if c.syn = 0 then flippedPositions (j + 1) groups
    else (7 * j + c.syn - 1) :: flippedPositions (j + 1) groups

/-- The position words, 32-bit little-endian, one after the other (spec/41_hamming.md R149). -/
def positionBytes (positions : List Nat) : List Byte := positions.flatMap (leBytes 4)

/-- What H_CORRECT does with its input bits (spec/41_hamming.md R148). -/
def hCorrectBits (s : State) (bits : List Bool) : CommandEnd :=
  let d := s.output (7 * (s.n / 7))
  check (d.inRange s.bufBytes && s.positions.inRange s.bufBytes) .range s fun _ =>
  check (!(s.input.overlaps d || s.input.overlaps s.positions || d.overlaps s.positions)) .overlap s fun _ =>
  let groups := groupsOf7 bits
  let flipped := flippedPositions 0 groups
  .ok ((s.writeBits d.addr (correctedBits groups)).writeBytes s.positions.addr (positionBytes flipped))
    (7 * (s.n / 7)) flipped.length

/-- H_CORRECT and H_CORRECT.S (spec/41_hamming.md R148, R149, R150). -/
def execHCorrect (strict : Bool) (s : State) : Host.Outcome State Fault Refusal :=
  .next (withInputBits strict 7 s (hCorrectBits s)).finish

/-- The encoded stream: each 4 data bits become a group, fewer than 4 left are dropped (spec/41_hamming.md R152). -/
def encodedBits : List Bool → List Bool
  | d1 :: d2 :: d3 :: d4 :: rest => (encode4 d1 d2 d3 d4).toList ++ encodedBits rest
  | _ => []

/-- H_ENCODE and H_ENCODE.S (spec/41_hamming.md R152). -/
def execHEncode (strict : Bool) (s : State) : Host.Outcome State Fault Refusal :=
  .next (withInputBits strict 4 s fun bits =>
    withOutput (7 * (s.n / 4)) s fun _ =>
    .ok (s.writeBits s.dstAddr.toNat (encodedBits bits)) (7 * (s.n / 4)) (s.n / 4)).finish

/-- The stripped stream: the first 4 bits of each group (spec/41_hamming.md R156). -/
def strippedBits (groups : List BitGroup) : List Bool := groups.flatMap fun c => [c.c1, c.c2, c.c3, c.c4]

/-- H_STRIP and H_STRIP.S (spec/41_hamming.md R156, R157). -/
def execHStrip (strict : Bool) (s : State) : Host.Outcome State Fault Refusal :=
  .next (withInputBits strict 7 s fun bits =>
    withOutput (4 * (s.n / 7)) s fun _ =>
    .ok (s.writeBits s.dstAddr.toNat (strippedBits (groupsOf7 bits))) (4 * (s.n / 7)) (s.n / 7)).finish

end Sys2Proof.Machine
end

