-- ==== Sys2Proof/Machine/Huffman.lean ====
section
/-! DEFINITION. The Huffman engine: HUF_BUILD, HUF_ENCODE, HUF_DECODE, HUF_CLEAR (spec/43_huffman.md). -/

namespace Sys2Proof.Machine

/-- A node of the tree: a tagged sum of leaf and internal node (spec/43_huffman.md R192). -/
inductive HuffmanNode where
  | leaf (symbol : Byte) (freq : Nat)
  | internal (left right : HuffmanNode) (freq : Nat)
deriving DecidableEq, Repr

/-- A node's frequency. -/
def HuffmanNode.freq : HuffmanNode → Nat
  | .leaf _ f => f
  | .internal _ _ f => f

/-- An entry of the priority structure Q: a node and its id, unique and in order of insertion (spec/43_huffman.md R193). -/
structure QueueEntry where
  node : HuffmanNode
  id : Nat
deriving DecidableEq, Repr

/-- The order `(freq, id)`, both ascending (spec/43_huffman.md R193). -/
def QueueEntry.before (x y : QueueEntry) : Bool :=
  decide (x.node.freq < y.node.freq) || (x.node.freq == y.node.freq && decide (x.id < y.id))

/-- `extractMin`: the least entry, and the others (spec/43_huffman.md R193). -/
def extractMin : List QueueEntry → Option (QueueEntry × List QueueEntry)
  | [] => none
  | x :: q =>
    match extractMin q with
    | none => some (x, [])
    | some (y, r) => if x.before y then some (x, q) else some (y, x :: r)

/-- `F[c]`: how often `c` occurs in the text (spec/43_huffman.md R191). -/
def frequency (text : List Byte) (c : Byte) : Nat := text.count c

/-- The leaves: one for each symbol that occurs, in ascending symbol order (spec/43_huffman.md R192). -/
def leaves (text : List Byte) : List HuffmanNode :=
  symbols.filterMap fun c => if frequency text c > 0 then some (.leaf c (frequency text c)) else none

/-- Gives ids `id`, `id + 1`, ... in order of insertion (spec/43_huffman.md R193). -/
def enqueue : (id : Nat) → List HuffmanNode → List QueueEntry
  | _, [] => []
  | id, x :: xs => ⟨x, id⟩ :: enqueue (id + 1) xs

/-- The merge loop: the two least nodes become the children of a new one, the first extracted on the left, until one
node remains. `fuel` is the number of nodes in the queue, and `id` the next free id (spec/43_huffman.md R192, R193). -/
def mergeNodes : (fuel id : Nat) → List QueueEntry → Option HuffmanNode
  | 0, _, _ => none
  | fuel + 1, id, q =>
    match extractMin q with
    | none => none
    | some (x, q1) =>
      match extractMin q1 with
      | none => some x.node
      | some (y, q2) => mergeNodes fuel (id + 1) (⟨.internal x.node y.node (x.node.freq + y.node.freq), id⟩ :: q2)

/-- `buildTree(F)`: the root, for a text that is not empty (spec/43_huffman.md R192). -/
def buildTree (text : List Byte) : Option HuffmanNode :=
  mergeNodes (leaves text).length (leaves text).length (enqueue 0 (leaves text))

/-- `assignCodes(node, path)`: 0 on every left step, 1 on every right step (spec/43_huffman.md R194). -/
def assignCodes : HuffmanNode → (path : List Bool) → List (Byte × List Bool)
  | .leaf c _, path => [(c, path)]
  | .internal l r _, path => assignCodes l (path ++ [false]) ++ assignCodes r (path ++ [true])

/-- The codes of a tree; a single leaf gets the 1-bit codeword `[0]` (spec/43_huffman.md R195). -/
def codesOfTree : HuffmanNode → List (Byte × List Bool)
  | .leaf c _ => [(c, [false])]
  | .internal l r f => assignCodes (.internal l r f) []

/-- The code table of a text (spec/43_huffman.md R190). -/
def codesOfText (text : List Byte) : List (Byte × List Bool) :=
  match buildTree text with
  | none => []
  | some root => codesOfTree root

/-- `code[c]`; the empty sequence for a symbol that does not occur (spec/43_huffman.md R190, R196). -/
def codeOf (codes : List (Byte × List Bool)) (c : Byte) : List Bool := (codes.lookup c).getD []

/-- The value of a bit sequence whose bit 0 is the least significant (spec/20_memory.md R74). -/
def lsbFirst : List Bool → Nat
  | [] => 0
  | b :: bits => b.toNat + 2 * lsbFirst bits

/-- Word `j` of a codeword: its bits 32j .. 32j+31, all bits past its end 0 (spec/43_huffman.md R190, spec/20_memory.md R66). -/
def codeWord (code : List Bool) (j : Nat) : Word := BitVec.ofNat 32 (lsbFirst ((code.drop (32 * j)).take 32))

/-- All 256 entries of FREQ and CT replaced by those of the text (spec/43_huffman.md R190, R196). -/
def State.replaceTable (s : State) (text : List Byte) (codes : List (Byte × List Bool)) : State :=
  { s with
    freq := Memory.tabulate none 256 fun k => BitVec.ofNat 32 (frequency text (BitVec.ofNat 8 k))
    ctLen := Memory.tabulate (some 0) 256 fun k => BitVec.ofNat 8 (codeOf codes (BitVec.ofNat 8 k)).length
    ctCw := Memory.tabulate none 2048 fun k => codeWord (codeOf codes (BitVec.ofNat 8 (k / 8))) (k % 8) }

/-- `max_c CT_LEN[c]` (spec/43_huffman.md R190). -/
def State.maxCtLen (s : State) : Nat := (symbols.map fun c => (s.ctLenAt c).toNat).foldl max 0

/-- HUF_BUILD (spec/43_huffman.md R190 to R196). -/
def execHufBuild (s : State) : Host.Outcome State Fault Refusal :=
  .next (check (s.input.inRange s.bufBytes) .range s fun _ =>
    check (s.n != 0) .empty s fun _ =>
    let t := s.replaceTable s.inputBytes (codesOfText s.inputBytes)
    .ok t t.maxCtLen (leaves s.inputBytes).length).finish

/-- `L`, the number of bits HUF_ENCODE writes for a text (spec/43_huffman.md R205). -/
def State.encodedLength (s : State) (text : List Byte) : Nat := (text.map fun c => (s.ctLenAt c).toNat).sum

/-- HUF_ENCODE (spec/43_huffman.md R205, R206). -/
def execHufEncode (s : State) : Host.Outcome State Fault Refusal :=
  .next (check (s.input.inRange s.bufBytes) .range s fun _ =>
    check (s.inputBytes.all fun c => s.ctLenAt c != 0) .noSym s fun _ =>
    withOutput (s.encodedLength s.inputBytes) s fun _ =>
    .ok (s.writeBits s.dstAddr.toNat (s.inputBytes.flatMap s.codeword)) (s.encodedLength s.inputBytes) s.n).finish

/-- The least symbol whose codeword is the accumulator (spec/43_huffman.md R212, R213). -/
def State.matching (s : State) (acc : List Bool) : Option Byte :=
  symbols.find? fun c => (s.ctLenAt c).toNat == acc.length && s.codeword c == acc

/-- The decode loop: the symbols emitted, and the accumulator left at the end of the input (spec/43_huffman.md R212). -/
def State.decodeBits (s : State) : (acc bits : List Bool) → List Byte × List Bool
  | acc, [] => ([], acc)
  | acc, b :: bits =>
    match s.matching (acc ++ [b]) with
    | none => s.decodeBits (acc ++ [b]) bits
    | some c =>
      match s.decodeBits [] bits with
      | (out, left) => (c :: out, left)

/-- The end of HUF_DECODE: the symbols are written; a non-empty accumulator is E_DECODE, with their count and its
length in the result registers (spec/43_huffman.md R212, R214; spec/40_command_execution.md R118). -/
def State.endDecode (s : State) : List Byte × List Bool → CommandEnd
  | (out, []) => .ok (s.writeBytes s.dstAddr.toNat out) out.length 0
  | (out, b :: acc) => .err .decode (s.writeBytes s.dstAddr.toNat out) out.length (b :: acc).length

/-- HUF_DECODE (spec/43_huffman.md R212 to R214). -/
def execHufDecode (s : State) : Host.Outcome State Fault Refusal :=
  .next (withInputBits false 1 s fun bits =>
    withOutput s.n s fun _ =>
    s.endDecode (s.decodeBits [] bits)).finish

/-- CT emptied: every CT_LEN is 0, every word of CT_CW is 0 (spec/43_huffman.md R220). -/
def State.clearTable (s : State) : State := { s with ctLen := [], ctCw := Memory.tabulate none 2048 fun _ => 0 }

/-- HUF_CLEAR: CT is emptied; FREQ, BUF and HRES are unchanged (spec/43_huffman.md R220). -/
def execHufClear (s : State) : Host.Outcome State Fault Refusal := .next (CommandEnd.ok s.clearTable 0 0).finish

end Sys2Proof.Machine
end

