-- ==== Sys2Proof/Syntax.lean ====
section
/-! DEFINITION. The commands: one constructor per row of spec/opcode_table.json (spec/30_encoding.md R93). -/

namespace Sys2Proof

/-- A valid command. `strict` is the S bit, which only the four grouping commands allow (spec/30_encoding.md R92).
A command has no other operand field: its operands are the operand registers (R91). -/
inductive Instr where
  | nop
  | hSynd
  | hCorrect (strict : Bool)
  | hEncode (strict : Bool)
  | hStrip (strict : Bool)
  | bPack (strict : Bool)
  | bUnpack
  | hufBuild
  | hufEncode
  | hufDecode
  | hufClear
deriving DecidableEq, Repr

end Sys2Proof
end

