-- ==== Sys2Proof/Machine/Dispatch.lean ====
section
/-! DEFINITION. The completion of each valid command (spec/40_command_execution.md R113, spec/30_encoding.md R93). -/

namespace Sys2Proof.Machine

def exec (i : Instr) (s : State) : Host.Outcome State Fault Refusal :=
  match i with
  | .nop => Sys2Proof.Machine.execNop s
  | .hSynd => Sys2Proof.Machine.execHSynd s
  | .hCorrect strict => Sys2Proof.Machine.execHCorrect strict s
  | .hEncode strict => Sys2Proof.Machine.execHEncode strict s
  | .hStrip strict => Sys2Proof.Machine.execHStrip strict s
  | .bPack strict => Sys2Proof.Machine.execBPack strict s
  | .bUnpack => Sys2Proof.Machine.execBUnpack s
  | .hufBuild => Sys2Proof.Machine.execHufBuild s
  | .hufEncode => Sys2Proof.Machine.execHufEncode s
  | .hufDecode => Sys2Proof.Machine.execHufDecode s
  | .hufClear => Sys2Proof.Machine.execHufClear s

end Sys2Proof.Machine
end

