-- ==== Sys2Proof/WellFormed.lean ====
section
/-! DEFINITION. Which command words are valid (spec/30_encoding.md R90, R95). Every `Instr` is well-formed by its type:
S stands only where it is allowed. The checks are about the three fields of a command word. -/

namespace Sys2Proof

/-- The three fields of the one command format (spec/30_encoding.md R90). -/
structure CommandFields where
  op : BitVec 8
  s : Bool
  rsv : BitVec 23
deriving DecidableEq, Repr

/-- The assigned operation codes (spec/30_encoding.md R93); 0x07-0x0F and 0x14-0xFF are reserved (R95). -/
def CommandFields.opAssigned (f : CommandFields) : Bool :=
  f.op.toNat ≤ 0x06 || (0x10 ≤ f.op.toNat && f.op.toNat ≤ 0x13)

/-- RSV must be 0 (spec/30_encoding.md R90, R95). -/
def CommandFields.rsvZero (f : CommandFields) : Bool := f.rsv == 0

/-- S = 1 only with H_CORRECT, H_ENCODE, H_STRIP and B_PACK (spec/30_encoding.md R92, R95). -/
def CommandFields.strictAllowed (f : CommandFields) : Bool :=
  !f.s || (0x02 ≤ f.op.toNat && f.op.toNat ≤ 0x05)

/-- A command word is valid iff none of R95's three conditions holds of its fields. -/
def CommandFields.wellFormed (f : CommandFields) : Bool :=
  f.opAssigned && f.rsvZero && f.strictAllowed

end Sys2Proof
end

