-- ==== Sys2Proof/Decode.lean ====
section
/-! DEFINITION. The decoder, total on command words and rejecting by name, and the encoder
(spec/30_encoding.md R90, R93, R95). -/

namespace Sys2Proof

/-- Why a command word is invalid: the three conditions of spec/30_encoding.md R95. -/
inductive Invalid where
  /-- OP is 0x07-0x0F or 0x14-0xFF. -/
  | reservedOp
  /-- RSV is not 0. -/
  | rsvNonzero
  /-- S = 1 with an OP that does not allow it. -/
  | strictNotAllowed
deriving DecidableEq, Repr

/-- The fields of a command word: OP [7:0], S [8], RSV [31:9] (spec/30_encoding.md R90). -/
def fieldsOf (w : Word) : CommandFields :=
  { op := w.extractLsb' 0 8, s := w.getLsbD 8, rsv := w.extractLsb' 9 23 }

/-- The opcode map (spec/30_encoding.md R93): `inl` where S is not allowed, `inr` where it is. -/
def opcodeRow : Nat → Option (Instr ⊕ (Bool → Instr))
  | 0x00 => some (.inl .nop)
  | 0x01 => some (.inl .hSynd)
  | 0x02 => some (.inr .hCorrect)
  | 0x03 => some (.inr .hEncode)
  | 0x04 => some (.inr .hStrip)
  | 0x05 => some (.inr .bPack)
  | 0x06 => some (.inl .bUnpack)
  | 0x10 => some (.inl .hufBuild)
  | 0x11 => some (.inl .hufEncode)
  | 0x12 => some (.inl .hufDecode)
  | 0x13 => some (.inl .hufClear)
  | _ => none

/-- The instruction of a row, given S (spec/30_encoding.md R92, R95). -/
def rowInstr (row : Instr ⊕ (Bool → Instr)) (strict : Bool) : Except Invalid Instr :=
  match row with
  | .inl i => if strict then .error .strictNotAllowed else .ok i
  | .inr f => .ok (f strict)

/-- The command a word selects, or why it is invalid. The conditions are tried in R95's order; which of several is
named has no effect, since every invalid word behaves the same way (R96; log entry 15). -/
def decode (w : Word) : Except Invalid Instr :=
  match opcodeRow (fieldsOf w).op.toNat with
  | none => .error .reservedOp
  | some row => if (fieldsOf w).rsv = 0 then rowInstr row (fieldsOf w).s else .error .rsvNonzero

/-- Bit 8 of the strict form (spec/30_encoding.md R92, R93). -/
def strictBit (strict : Bool) : Word := if strict then 0x100 else 0

/-- The command word of a command: its `match`, with bit 8 for the strict form (spec/30_encoding.md R93). -/
def encode : Instr → Word
  | .nop => 0x00000000
  | .hSynd => 0x00000001
  | .hCorrect strict => 0x00000002 ||| strictBit strict
  | .hEncode strict => 0x00000003 ||| strictBit strict
  | .hStrip strict => 0x00000004 ||| strictBit strict
  | .bPack strict => 0x00000005 ||| strictBit strict
  | .bUnpack => 0x00000006
  | .hufBuild => 0x00000010
  | .hufEncode => 0x00000011
  | .hufDecode => 0x00000012
  | .hufClear => 0x00000013

/-- The command word the table's bits stand for: its low `nbits` bits, every bit above them 0. -/
def tableWord (nbits w : Nat) : Word := BitVec.ofNat 32 (w % 2 ^ nbits)

/-- What the decoder reads from a word numbered as spec/opcode_table.json numbers it. A command is one 32-bit word
(spec/30_encoding.md R97), written whole, so it has no byte order (spec/20_memory.md R72). -/
def decodeTableWord (nbits w : Nat) : Option Instr := (decode (tableWord nbits w)).toOption

end Sys2Proof
end

