-- ==== Sys2Proof/Machine/Port.lean ====
section
/-! DEFINITION. The host port: its map, bus errors, register and window accesses, and the refusals while a command is
pending (spec/20_memory.md, spec/10_state.md R23 to R31). -/

namespace Sys2Proof.Machine

/-- The number of bytes of a width. -/
def Width.bytes : Width → Nat
  | .w1 => 1
  | .w2 => 2
  | .w4 => 4

/-- The port offset a system address reaches, if it lies in the unit's window of 2 MiB (spec/20_memory.md R62, R63). -/
def portOffset (p : Params) (addr : Nat) : Option (BitVec 21) :=
  if p.unitBase ≤ addr ∧ addr < p.unitBase + 0x200000 then some (BitVec.ofNat 21 (addr - p.unitBase)) else none

/-- What stands at a port offset (spec/20_memory.md R64, R65, R66). -/
inductive PortTarget where
  | reg (r : Reg)
  /-- word `w` (0..15) of CT entry `c` -/
  | ct (c : Byte) (w : Nat)
  | freq (c : Byte)
  /-- BUF offset `a` -/
  | buf (a : Nat)
  | reserved
deriving DecidableEq, Repr

/-- The register at port offset `4 * k` (spec/10_state.md section 2, spec/20_memory.md R65). -/
def regOfIndex : (k : Nat) → Option Reg
  | 0 => some .id
  | 1 => some .caps
  | 2 => some .ctrl
  | 3 => some .status
  | 4 => some .cmd
  | 5 => some .srcAddr
  | 6 => some .srcLen
  | 7 => some .dstAddr
  | 8 => some .auxAddr
  | 9 => some .resLen
  | 10 => some .resCnt
  | 11 => some .group
  | 12 => some .hres
  | _ => none

/-- The port offset of a register (spec/10_state.md section 2). -/
def Reg.offset : Reg → Nat
  | .id => 0x000
  | .caps => 0x004
  | .ctrl => 0x008
  | .status => 0x00C
  | .cmd => 0x010
  | .srcAddr => 0x014
  | .srcLen => 0x018
  | .dstAddr => 0x01C
  | .auxAddr => 0x020
  | .resLen => 0x024
  | .resCnt => 0x028
  | .group => 0x02C
  | .hres => 0x030

/-- The port map (spec/20_memory.md R64). -/
def State.target (s : State) (off : BitVec 21) : PortTarget :=
  let o := off.toNat
  if o < 0x34 then
    match regOfIndex (o / 4) with
    | some r => .reg r
    | none => .reserved
  else if o < 0x10000 then .reserved
  else if o < 0x14000 then .ct (BitVec.ofNat 8 ((o - 0x10000) / 64)) ((o - 0x10000) % 64 / 4)
  else if o < 0x20000 then .reserved
  else if o < 0x20400 then .freq (BitVec.ofNat 8 ((o - 0x20000) / 4))
  else if o < 0x100000 then .reserved
  else if o < 0x100000 + s.bufBytes then .buf (o - 0x100000)
  else .reserved

/-- The widths a target allows: 4 for registers, CT and FREQ; 1, 2 or 4 for BUF (spec/20_memory.md R67). -/
def PortTarget.allows : PortTarget → Width → Bool
  | .buf _, _ => true
  | .reserved, _ => false
  | .reg _, w => w == .w4
  | .ct _ _, w => w == .w4
  | .freq _, w => w == .w4

/-- The three cases of a bus error: a reserved offset, a width the region does not allow, a misaligned offset
(spec/20_memory.md R67). -/
def State.isBusError (s : State) (width : Width) (off : BitVec 21) : Bool :=
  !(s.target off).allows width || off.toNat % width.bytes != 0

/-- ID reads `0x48373401` (spec/00_scope.md R2, spec/10_state.md R23). -/
def idWord : Word := 0x48373401

/-- CAPS: BUF_LOG2 [4:0], LMAX = 255 [15:8], the rest 0 (spec/10_state.md R24). -/
def State.capsWord (s : State) : Word := 0#16 ++ 255#8 ++ 0#3 ++ BitVec.ofNat 5 s.cfg.bufLog2

/-- A register read: the whole word, reserved fields 0; no side effect (spec/20_memory.md R69, R71). -/
def State.readReg (s : State) : Reg → Word
  | .id => idWord
  | .caps => s.capsWord
  | .ctrl => s.ctrlWord
  | .status => s.statusWord
  | .cmd => s.cmd
  | .srcAddr => s.srcAddr
  | .srcLen => s.srcLen
  | .dstAddr => s.dstAddr
  | .auxAddr => s.auxAddr
  | .resLen => s.resLen
  | .resCnt => s.resCnt
  | .group => 0#25 ++ s.group
  | .hres => 0#12 ++ s.hres

/-- A register write. A read-only register ignores it; CTRL and STATUS are written at any time; the others are refused
while BUSY = 1 (spec/10_state.md R23 to R31, spec/20_memory.md R71). -/
def State.writeReg (s : State) (r : Reg) (v : Word) : State :=
  match r with
  | .id => s
  | .caps => s
  | .resLen => s
  | .resCnt => s
  | .hres => s
  | .ctrl => s.writeCtrl v
  | .status => s.writeStatus v
  | .cmd => if s.busy then s.refuse else s.accept v
  | .srcAddr => if s.busy then s.refuse else { s with srcAddr := v }
  | .srcLen => if s.busy then s.refuse else { s with srcLen := v }
  | .dstAddr => if s.busy then s.refuse else { s with dstAddr := v }
  | .auxAddr => if s.busy then s.refuse else { s with auxAddr := v }
  | .group => if s.busy then s.refuse else { s with group := v.extractLsb' 0 7 }

/-- Word `w` of CT entry `c`: word 0 is CT_LEN, words 1..8 are CT_CW, words 9..15 read 0 (spec/20_memory.md R66). -/
def State.readCt (s : State) (c : Byte) (w : Nat) : Word :=
  if w = 0 then 0#24 ++ s.ctLenAt c else if w ≤ 8 then s.ctCwAt c (w - 1) else 0

/-- A write of word `w` of CT entry `c`; bits [31:8] of word 0 and words 9..15 ignore it (spec/20_memory.md R66). -/
def State.writeCt (s : State) (c : Byte) (w : Nat) (v : Word) : State :=
  if w = 0 then { s with ctLen := Memory.write (some 0) s.ctLen c.toNat (v.extractLsb' 0 8) }
  else if w ≤ 8 then { s with ctCw := Memory.write none s.ctCw (ctCwKey c (w - 1)) v }
  else s

/-- What a read that is no bus error finds while no command is pending (spec/20_memory.md R66, R69). -/
def State.readTarget (s : State) (width : Width) : PortTarget → Word
  | .reg r => s.readReg r
  | .ct c w => s.readCt c w
  | .freq c => s.freqAt c
  | .buf a => BitVec.ofNat 32 (s.memRead a width.bytes)
  | .reserved => 0

/-- What a write that is no bus error does while no command is pending: FREQ ignores it, and a BUF write of n bytes
stores the low n bytes of the value (spec/20_memory.md R66, R69). -/
def State.writeTarget (s : State) (width : Width) (v : Word) : PortTarget → State
  | .reg r => s.writeReg r v
  | .ct c w => s.writeCt c w v
  | .freq _ => s
  | .buf a => s.memWrite a width.bytes v.toNat
  | .reserved => s

/-- The BUF, CT and FREQ windows, closed to the host while a command is pending (spec/20_memory.md R70). -/
def PortTarget.isWindow : PortTarget → Bool
  | .ct _ _ => true
  | .freq _ => true
  | .buf _ => true
  | .reg _ => false
  | .reserved => false

/-- One host access at a port offset: the state it leaves and the answer it gets (spec/20_memory.md R67, R69, R70, R71). -/
def State.serve (s : State) (kind : AccessKind) (width : Width) (off : BitVec 21) : State × Answer :=
  if s.isBusError width off then (s, .busError)
  else
    match kind with
    | .read =>
      if s.busy && (s.target off).isWindow then (s.refuse, .data 0)
      else (s, .data (s.readTarget width (s.target off)))
    | .write v =>
      if s.busy && (s.target off).isWindow then (s.refuse, .written)
      else (s.writeTarget width v (s.target off), .written)

/-- One host access at a system address (spec/20_memory.md R63): outside the window it does not reach the unit. -/
def State.access (s : State) (a : Access) : State × Answer :=
  match portOffset s.cfg a.addr with
  | none => (s, .notReached)
  | some off => s.serve a.kind a.width off

end Sys2Proof.Machine
end

