-- ==== Sys2Proof/Machine/HostScript.lean ====
section
/-! DEFINITION. The host: how it takes its next access, and the host-script syntax with its exact expansions
(spec/30_encoding.md R98, R99). -/

namespace Sys2Proof.Machine

/-- A host-script statement (spec/30_encoding.md R98, R99). `text` takes the bytes, which are normative
(spec/93_implementation_defined.md G4). -/
inductive HostStatement where
  | wr (r : Reg) (v : Word)
  | rd (r : Reg)
  | wb (a : Nat) (v : Byte)
  | wh (a : Nat) (v : BitVec 16)
  | ww (a : Nat) (v : Word)
  | rb (a : Nat)
  | rh (a : Nat)
  | rw (a : Nat)
  | wct (c : Byte) (w : Fin 16) (v : Word)
  | rct (c : Byte) (w : Fin 16)
  | rfreq (c : Byte)
  | cmd (i : Instr)
  | wait
  | ack
  | bits (a : Nat) (bs : List Byte)
  | text (a : Nat) (bs : List Byte)
  | run (i : Instr) (src len dst aux : Word)
deriving DecidableEq, Repr

/-- A 4-byte write of register `r` (spec/30_encoding.md R98). -/
def writeRegItem (p : Params) (r : Reg) (v : Word) : HostItem := .access ⟨.write v, .w4, p.unitBase + r.offset⟩

/-- A 4-byte read of register `r` (spec/30_encoding.md R98). -/
def readRegItem (p : Params) (r : Reg) : HostItem := .access ⟨.read, .w4, p.unitBase + r.offset⟩

/-- An access of BUF offset `a` (spec/30_encoding.md R98: port offset 0x100000 + a). -/
def bufItem (p : Params) (kind : AccessKind) (width : Width) (a : Nat) : HostItem :=
  .access ⟨kind, width, p.unitBase + 0x100000 + a⟩

/-- An access of word `w` of CT entry `c` (spec/30_encoding.md R98, spec/20_memory.md R66). -/
def ctItem (p : Params) (kind : AccessKind) (c : Byte) (w : Fin 16) : HostItem :=
  .access ⟨kind, .w4, p.unitBase + 0x10000 + 64 * c.toNat + 4 * w.val⟩

/-- One-byte writes of consecutive BUF bytes (spec/30_encoding.md R99: `bits`, `text`). -/
def byteItems (p : Params) (a : Nat) : List Byte → List HostItem
  | [] => []
  | b :: bs => bufItem p (.write (b.setWidth 32)) .w1 a :: byteItems p (a + 1) bs

/-- The exact expansion of a statement (spec/30_encoding.md R98, R99). `cmd i` writes the word of `i`, which for
`M.S` is `match | 0x100`. -/
def HostStatement.expand (p : Params) : HostStatement → List HostItem
  | .wr r v => [writeRegItem p r v]
  | .rd r => [readRegItem p r]
  | .wb a v => [bufItem p (.write (v.setWidth 32)) .w1 a]
  | .wh a v => [bufItem p (.write (v.setWidth 32)) .w2 a]
  | .ww a v => [bufItem p (.write v) .w4 a]
  | .rb a => [bufItem p .read .w1 a]
  | .rh a => [bufItem p .read .w2 a]
  | .rw a => [bufItem p .read .w4 a]
  | .wct c w v => [ctItem p (.write v) c w]
  | .rct c w => [ctItem p .read c w]
  | .rfreq c => [.access ⟨.read, .w4, p.unitBase + 0x20000 + 4 * c.toNat⟩]
  | .cmd i => [writeRegItem p .cmd (encode i)]
  | .wait => [.wait]
  | .ack => [writeRegItem p .status 0x00000002]
  | .bits a bs => byteItems p a bs
  | .text a bs => byteItems p a bs
  | .run i src len dst aux =>
    [writeRegItem p .srcAddr src, writeRegItem p .srcLen len, writeRegItem p .dstAddr dst,
      writeRegItem p .auxAddr aux, writeRegItem p .cmd (encode i), .wait]

/-- A host script as the host performs it (spec/30_encoding.md R98). -/
def expandScript (p : Params) (script : List HostStatement) : List HostItem := script.flatMap (HostStatement.expand p)

/-- The host performs one access and records the answer (spec/20_memory.md R60, spec/30_encoding.md R98). -/
def State.hostAccess (s : State) (a : Access) : State :=
  { (s.access a).1 with answers := (s.access a).2 :: s.answers }

/-- The host's move: its next access, or nothing where its script has ended. `wait` reads STATUS and is repeated while
bit 0 reads 1 (spec/30_encoding.md R99). -/
def hostMove (s : State) : Host.Outcome State Fault Refusal :=
  match s.script with
  | [] => .next s
  | .access a :: rest => .next ({ s with script := rest }.hostAccess a)
  | .wait :: rest =>
    .next ({ s with script := if s.busy then .wait :: rest else rest }.hostAccess
      ⟨.read, .w4, s.cfg.unitBase + Reg.status.offset⟩)

/-- One reset event: every piece of the unit's state takes its value after reset, a pending command is abandoned, and
the unspecified memories take fresh free values (spec/70_reset_and_hazards.md R260; log entries 4, 12). The parameters
and what belongs to the other agents are no state of the unit. -/
def State.resetUnit (s : State) : State :=
  { State.afterReset s.cfg (s.epoch + 1) with sched := s.sched, script := s.script, answers := s.answers }

end Sys2Proof.Machine
end

