-- ==== Sys2Proof/Machine/Moves.lean ====
section
/-! DEFINITION. What each agent does in its move, and who moves next (spec/00_scope.md R18, spec/20_memory.md R61, R77). -/

namespace Sys2Proof.Machine

/-- The unit's one step: the completion of the command CMD selects, enabled iff BUSY = 1; else the unit takes no step
and all state is kept (spec/40_command_execution.md R113, spec/60_exceptions.md R245; log entry 7). -/
def unitMove (s : State) : Host.Outcome State Fault Refusal :=
  if s.busy then
    match decode s.cmd with
    | .ok i => exec i s
    | .error _ => completeInvalid s
  else .next s

/-- What an agent does in its move. -/
def move (a : Agent) (s : State) : Host.Outcome State Fault Refusal :=
  match a with
  | .unit => unitMove s
  | .host => hostMove s
  | .platformReset => .next s.resetUnit

/-- Who moves next: the head of the schedule; where it has run out, the unit if a command is pending, else the host
(spec/20_memory.md R61, spec/70_reset_and_hazards.md R272; log entry 6). -/
def State.nextAgent (s : State) : Agent :=
  match s.sched with
  | a :: _ => a
  | [] => if s.busy then .unit else .host

end Sys2Proof.Machine
end

