-- ==== Sys2Proof/Machine/Step.lean ====
section
/-! DEFINITION. One step of the machine, and a command placed where the next step runs it
(spec/20_memory.md R77, spec/40_command_execution.md R113). -/

namespace Sys2Proof.Machine

/-- One step: the next agent moves, and its place in the schedule is used up. -/
def step (s : State) : Host.Outcome State Fault Refusal :=
  move s.nextAgent { s with sched := s.sched.tail }

/-- The command word in the low `nbits` bits of `w`, accepted (as by the host's CMD write, spec/40_command_execution.md
R112) and its completion due in the very next step: nothing else is scheduled (log entry 10). -/
def State.withFetchWord (s : State) (nbits w : Nat) : State :=
  { s.accept (tableWord nbits w) with sched := [] }

end Sys2Proof.Machine
end

