-- ==== Sys2Proof/Safety.lean ====
section
/-! DEFINITION. What claims use: the conditions under which a command succeeds (spec/40_command_execution.md R116,
R117), how a completion leaves the state, and the invariant of the unit's state. -/

namespace Sys2Proof.Machine

/-- `inRange(a, n)` of R117, as the spec writes it. -/
abbrev InRange (a n bufBytes : Nat) : Prop := n = 0 ∨ a + n ≤ bufBytes

/-- `overlap((a, n), (b, m))` of R117, as the spec writes it. -/
abbrev Overlap (a n b m : Nat) : Prop := n > 0 ∧ m > 0 ∧ a < b + m ∧ b < a + n

/-- `BUF[a]` is the byte of a bit: 0x00 or 0x01 (spec/10_state.md R32). -/
abbrev State.IsBit (s : State) (a : Nat) : Prop := s.bufByte a = 0 ∨ s.bufByte a = 1

/-- The bit a bit array holds at BUF offset `a`. -/
def State.bitAt (s : State) (a : Nat) : Bool := s.bufByte a == 1

/-- The group of 7 bits a bit array holds at BUF offsets `a .. a+6`. -/
def State.groupAt (s : State) (a : Nat) : BitGroup :=
  ⟨s.bitAt a, s.bitAt (a + 1), s.bitAt (a + 2), s.bitAt (a + 3), s.bitAt (a + 4), s.bitAt (a + 5), s.bitAt (a + 6)⟩

/-- The input region is in range (check step 2 of R116). -/
abbrev State.InputInRange (s : State) : Prop := InRange s.srcAddr.toNat s.n s.bufBytes

/-- Check steps 2 to 4 of R116 pass for a bit-array input whose group size is `size`. -/
structure State.BitInput (s : State) (strict : Bool) (size : Nat) : Prop where
  inRange : s.InputInRange
  whole : strict = true → s.n % size = 0
  bits : ∀ i < s.n, s.IsBit (s.srcAddr.toNat + i)

/-- Check steps 6 and 7 of R116 pass for the one output region `(DST_ADDR, len)`. -/
structure State.OutputFits (s : State) (len : Nat) : Prop where
  inRange : InRange s.dstAddr.toNat len s.bufBytes
  disjoint : ¬Overlap s.srcAddr.toNat s.n s.dstAddr.toNat len

/-- Check steps 6 and 7 of R116 pass for H_CORRECT's two output regions D and A. -/
structure State.CorrectFits (s : State) : Prop where
  outputInRange : InRange s.dstAddr.toNat (7 * (s.n / 7)) s.bufBytes
  positionsInRange : InRange s.auxAddr.toNat (4 * (s.n / 7)) s.bufBytes
  inputOutput : ¬Overlap s.srcAddr.toNat s.n s.dstAddr.toNat (7 * (s.n / 7))
  inputPositions : ¬Overlap s.srcAddr.toNat s.n s.auxAddr.toNat (4 * (s.n / 7))
  outputPositions : ¬Overlap s.dstAddr.toNat (7 * (s.n / 7)) s.auxAddr.toNat (4 * (s.n / 7))

/-- The state left by a command that ends with code `code`, writes no output and counts nothing: RES_LEN and RES_CNT
0, BUSY 0, DONE 1, all else as it was. Every error but E_DECODE ends so (spec/40_command_execution.md R114, R116,
spec/60_exceptions.md R232), and so does success on an empty input (R121). -/
def State.emptyEnd (s : State) (code : BitVec 4) : State :=
  { s with ecode := code, resLen := 0, resCnt := 0, busy := false, done := true }

/-- `t` is a completion of `s` with error code `code`: BUSY 0, DONE 1 (spec/40_command_execution.md R114). -/
structure Completed (t : State) (code : BitVec 4) : Prop where
  ecode : t.ecode = code
  busy : t.busy = false
  done : t.done = true

/-- Every register no command writes, HAZ, the parameters and the other agents are unchanged
(spec/40_command_execution.md R114, spec/60_exceptions.md R239). -/
structure SameControl (s t : State) : Prop where
  ie : t.ie = s.ie
  haz : t.haz = s.haz
  cmd : t.cmd = s.cmd
  srcAddr : t.srcAddr = s.srcAddr
  srcLen : t.srcLen = s.srcLen
  dstAddr : t.dstAddr = s.dstAddr
  auxAddr : t.auxAddr = s.auxAddr
  group : t.group = s.group
  cfg : t.cfg = s.cfg
  epoch : t.epoch = s.epoch
  sched : t.sched = s.sched
  script : t.script = s.script
  answers : t.answers = s.answers

/-- CT and FREQ are unchanged. -/
structure SameTables (s t : State) : Prop where
  ctLen : t.ctLen = s.ctLen
  ctCw : t.ctCw = s.ctCw
  freq : t.freq = s.freq

/-- Every BUF byte outside `[a, a + n)` reads as before. -/
abbrev SameOutside (s t : State) (a n : Nat) : Prop := ∀ x, (x < a ∨ a + n ≤ x) → t.bufByte x = s.bufByte x

/-- The eight commands with an input region (spec/40_command_execution.md R117). -/
def Instr.streams : Instr → Bool
  | .nop => false
  | .hSynd => false
  | .hufClear => false
  | .hCorrect _ => true
  | .hEncode _ => true
  | .hStrip _ => true
  | .bPack _ => true
  | .bUnpack => true
  | .hufBuild => true
  | .hufEncode => true
  | .hufDecode => true

/-- The command is in strict mode (spec/30_encoding.md R92). -/
def Instr.isStrict : Instr → Bool
  | .hCorrect strict => strict
  | .hEncode strict => strict
  | .hStrip strict => strict
  | .bPack strict => strict
  | .nop => false
  | .hSynd => false
  | .bUnpack => false
  | .hufBuild => false
  | .hufEncode => false
  | .hufDecode => false
  | .hufClear => false

/-- The group size of a grouping command: 7, 4 or 8 (spec/60_exceptions.md R230); 1 where there is no grouping. -/
def Instr.groupSize : Instr → Nat
  | .hCorrect _ => 7
  | .hEncode _ => 4
  | .hStrip _ => 7
  | .bPack _ => 8
  | .nop => 1
  | .hSynd => 1
  | .bUnpack => 1
  | .hufBuild => 1
  | .hufEncode => 1
  | .hufDecode => 1
  | .hufClear => 1

/-- The commands whose input is a bit array (spec/41_hamming.md R141). -/
def Instr.readsBits : Instr → Bool
  | .hCorrect _ => true
  | .hEncode _ => true
  | .hStrip _ => true
  | .bPack _ => true
  | .hufDecode => true
  | .nop => false
  | .hSynd => false
  | .bUnpack => false
  | .hufBuild => false
  | .hufEncode => false
  | .hufClear => false

/-- The length of the output region at `DST_ADDR`, H_CORRECT's region D among them; 0 where there is none
(spec/40_command_execution.md R117). -/
def State.outputLength (s : State) : Instr → Nat
  | .hCorrect _ => 7 * (s.n / 7)
  | .hEncode _ => 7 * (s.n / 4)
  | .hStrip _ => 4 * (s.n / 7)
  | .bPack _ => s.n / 8
  | .bUnpack => 8 * s.n
  | .hufEncode => s.encodedLength s.inputBytes
  | .hufDecode => s.n
  | .nop => 0
  | .hSynd => 0
  | .hufBuild => 0
  | .hufClear => 0

/-- The length of the position region at `AUX_ADDR`; 0 for every command but H_CORRECT (spec/40_command_execution.md
R117). -/
def State.positionsLength (s : State) : Instr → Nat
  | .hCorrect _ => 4 * (s.n / 7)
  | .hEncode _ => 0
  | .hStrip _ => 0
  | .bPack _ => 0
  | .bUnpack => 0
  | .hufEncode => 0
  | .hufDecode => 0
  | .nop => 0
  | .hSynd => 0
  | .hufBuild => 0
  | .hufClear => 0

/-- Check step 3 of R116 passes. -/
abbrev State.WholeGroups (s : State) (i : Instr) : Prop := Instr.isStrict i = true → s.n % Instr.groupSize i = 0

/-- Check step 4 of R116 passes. -/
abbrev State.BitsOnly (s : State) (i : Instr) : Prop :=
  Instr.readsBits i = true → ∀ j < s.n, s.IsBit (s.srcAddr.toNat + j)

/-- Check step 5 of R116 passes: HUF_BUILD's text is not empty, and every byte of HUF_ENCODE's has a codeword. -/
abbrev State.TextOk (s : State) (i : Instr) : Prop :=
  (i = .hufBuild → s.n ≠ 0) ∧ (i = .hufEncode → ∀ j < s.n, s.ctLenAt (s.bufByte (s.srcAddr.toNat + j)) ≠ 0)

/-- Check step 6 of R116 passes. -/
abbrev State.OutputsInRange (s : State) (i : Instr) : Prop :=
  InRange s.dstAddr.toNat (s.outputLength i) s.bufBytes ∧ InRange s.auxAddr.toNat (s.positionsLength i) s.bufBytes

/-- Check step 7 of R116 passes. -/
abbrev State.NoOverlap (s : State) (i : Instr) : Prop :=
  ¬Overlap s.srcAddr.toNat s.n s.dstAddr.toNat (s.outputLength i) ∧
  ¬Overlap s.srcAddr.toNat s.n s.auxAddr.toNat (s.positionsLength i) ∧
  ¬Overlap s.dstAddr.toNat (s.outputLength i) s.auxAddr.toNat (s.positionsLength i)

/-- The least entry of a queue in the order (freq, id) (spec/43_huffman.md R193). -/
def IsLeast (x : QueueEntry) (q : List QueueEntry) : Prop :=
  x ∈ q ∧ ∀ y ∈ q, x.node.freq < y.node.freq ∨ (x.node.freq = y.node.freq ∧ x.id ≤ y.id)

/-- The merge procedure of R192 as a relation: from queue `q`, with next free id `id`, the root is `root`. -/
inductive MergesTo : List QueueEntry → Nat → HuffmanNode → Prop where
  | root (x : QueueEntry) (id : Nat) : MergesTo [x] id x.node
  | merge (q rest : List QueueEntry) (x y : QueueEntry) (id : Nat) (root : HuffmanNode)
      (hq : q.Perm (x :: y :: rest)) (hx : IsLeast x q) (hy : IsLeast y (y :: rest))
      (hrest : MergesTo (⟨.internal x.node y.node (x.node.freq + y.node.freq), id⟩ :: rest) (id + 1) root) :
      MergesTo q id root

/-- The node a path from `node` leads to: left on 0, right on 1 (spec/43_huffman.md R194). -/
def HuffmanNode.follow : HuffmanNode → List Bool → Option HuffmanNode
  | node, [] => some node
  | .leaf _ _, _ :: _ => none
  | .internal l _ _, false :: path => l.follow path
  | .internal _ r _, true :: path => r.follow path

/-- `bits` is the codeword of some symbol of the table (spec/10_state.md R33). -/
def State.IsCodeword (s : State) (bits : List Bool) : Prop := ∃ c, s.ctLenAt c ≠ 0 ∧ s.codeword c = bits

/-- The four memories are in canonical form and within their bounds (spec/10_state.md R22). -/
structure State.MemoriesWf (s : State) : Prop where
  buf : Memory.wf none s.bufBytes s.buf = true
  ctLen : Memory.wf (some 0) 256 s.ctLen = true
  ctCw : Memory.wf none 2048 s.ctCw = true
  freq : Memory.wf none 256 s.freq = true

/-- The invariant of the unit: the memories are canonical, ECODE is one of R230's codes, a pending command has DONE and
ECODE cleared (spec/40_command_execution.md R112), HRES's reserved bits 7, 11 and 15 are 0 (spec/10_state.md R30), and
no result count exceeds BUF_BYTES (spec/00_scope.md R17). -/
structure State.Inv (s : State) : Prop where
  memories : s.MemoriesWf
  ecode : s.ecode.toNat ≤ 8
  pending : s.busy = true → s.done = false ∧ s.ecode = 0
  hres : s.hres.getLsbD 7 = false ∧ s.hres.getLsbD 11 = false ∧ s.hres.getLsbD 15 = false
  resLen : s.resLen.toNat ≤ s.bufBytes
  resCnt : s.resCnt.toNat ≤ s.bufBytes

end Sys2Proof.Machine
end

