-- ==== Sys2Proof/Certificates/Slice0/Obligations.lean ====
section
/-! DEFINITION. The statements for the provers. Each docstring says which rule of spec/ the statement formalises. -/

open Sys2Proof Sys2Proof.Machine

/-! Encoding -/

/-- Decoding and encoding agree in both directions: every command's word decodes to it, with S at either value, and no
other word does (spec/30_encoding.md R90, R93, R97). -/
def Obligations.DecodeEncodeAgree : Prop := ∀ (w : Word) (i : Instr), decode w = .ok i ↔ w = encode i

/-- The opcode map: a word selects a row when `w & mask = match`, and S is bit 8 (spec/30_encoding.md R90, R93). -/
def Obligations.OpcodeMapSelectsRows : Prop :=
  ∀ w : Word,
    (decode w = .ok .nop ↔ w &&& 0xFFFFFFFF = 0x00000000) ∧
    (decode w = .ok .hSynd ↔ w &&& 0xFFFFFFFF = 0x00000001) ∧
    (∀ strict, decode w = .ok (.hCorrect strict) ↔ w &&& 0xFFFFFEFF = 0x00000002 ∧ w.getLsbD 8 = strict) ∧
    (∀ strict, decode w = .ok (.hEncode strict) ↔ w &&& 0xFFFFFEFF = 0x00000003 ∧ w.getLsbD 8 = strict) ∧
    (∀ strict, decode w = .ok (.hStrip strict) ↔ w &&& 0xFFFFFEFF = 0x00000004 ∧ w.getLsbD 8 = strict) ∧
    (∀ strict, decode w = .ok (.bPack strict) ↔ w &&& 0xFFFFFEFF = 0x00000005 ∧ w.getLsbD 8 = strict) ∧
    (decode w = .ok .bUnpack ↔ w &&& 0xFFFFFFFF = 0x00000006) ∧
    (decode w = .ok .hufBuild ↔ w &&& 0xFFFFFFFF = 0x00000010) ∧
    (decode w = .ok .hufEncode ↔ w &&& 0xFFFFFFFF = 0x00000011) ∧
    (decode w = .ok .hufDecode ↔ w &&& 0xFFFFFFFF = 0x00000012) ∧
    (decode w = .ok .hufClear ↔ w &&& 0xFFFFFFFF = 0x00000013)

/-- A word is invalid iff OP is 0x07-0x0F or 0x14-0xFF, or RSV is not 0, or S = 1 with an OP that does not allow it; it
is accepted by a CMD write like any command, and its completion records E_BADCMD, puts 0 in RES_LEN and RES_CNT and
changes nothing else (spec/30_encoding.md R95, spec/40_command_execution.md R115). -/
def Obligations.InvalidWordsCompleteWithBadCmd : Prop :=
  ∀ (w : Word),
    let op := (w.extractLsb' 0 8).toNat
    let invalid := (0x07 ≤ op ∧ op ≤ 0x0F) ∨ 0x14 ≤ op ∨ w.extractLsb' 9 23 ≠ 0 ∨
      (w.getLsbD 8 = true ∧ ¬(0x02 ≤ op ∧ op ≤ 0x05))
    ((∃ e, decode w = .error e) ↔ invalid) ∧
    (∀ s : State, s.busy = false → (s.serve (.write w) .w4 0x010).1.busy = true ∧
      (s.serve (.write w) .w4 0x010).1.cmd = w ∧ (s.serve (.write w) .w4 0x010).2 = .written) ∧
    (∀ s : State, s.busy = true → s.cmd = w → invalid → unitMove s = .next (s.emptyEnd 1))

/-- A few command words, written out from the encodings of spec/30_encoding.md R90, R93, decode to the commands they
stand for. -/
def Obligations.SampleWordsDecode : Prop :=
  decode 0b00000000000000000000000000000000 = .ok .nop ∧
  decode 0b00000000000000000000000100000010 = .ok (.hCorrect true) ∧
  decode 0b00000000000000000000000000000101 = .ok (.bPack false) ∧
  decode 0b00000000000000000000000000010010 = .ok .hufDecode ∧
  decode 0b00000000000000000000000100010011 = .error .strictNotAllowed

/-! Steps -/

/-- A step runs the decoded command: where the unit moves next and a command is pending whose word decodes to `i`, the
step is `exec i`, with the unit's place in the schedule used up; where none is pending the unit changes nothing
(spec/40_command_execution.md R113; the schedule is the model's own, log entries 6 and 7). -/
def Obligations.StepRunsThePendingCommand : Prop :=
  ∀ (s : State) (i : Instr), s.nextAgent = .unit →
    (s.busy = true → decode s.cmd = .ok i → step s = exec i { s with sched := s.sched.tail }) ∧
    (s.busy = false → step s = .next { s with sched := s.sched.tail })

/-- Where the host moves next, its next access is served at the port offset its address reaches, and the answer is
recorded; an address outside the window does not reach the unit (spec/20_memory.md R60, R63; the script, the schedule
and the record are the model's own, log entries 6 and 11). -/
def Obligations.StepServesTheHostAccess : Prop :=
  ∀ (s : State) (a : Access) (rest : List HostItem), s.nextAgent = .host → s.script = .access a :: rest →
    let t := { s with sched := s.sched.tail, script := rest }
    (s.cfg.unitBase ≤ a.addr ∧ a.addr < s.cfg.unitBase + 0x200000 →
      step s = .next { (t.serve a.kind a.width (BitVec.ofNat 21 (a.addr - s.cfg.unitBase))).1 with
        answers := (t.serve a.kind a.width (BitVec.ofNat 21 (a.addr - s.cfg.unitBase))).2 :: s.answers }) ∧
    (¬(s.cfg.unitBase ≤ a.addr ∧ a.addr < s.cfg.unitBase + 0x200000) →
      step s = .next { t with answers := .notReached :: s.answers })

/-- `wait` reads STATUS and is repeated while the bit BUSY it reads is 1; the read changes nothing
(spec/30_encoding.md R99; the script and the schedule are the model's own, log entry 6). -/
def Obligations.WaitRepeatsWhileBusy : Prop :=
  ∀ (s : State) (rest : List HostItem), s.nextAgent = .host → s.script = .wait :: rest →
    step s = .next { s with
      sched := s.sched.tail
      script := if s.statusWord.getLsbD 0 then .wait :: rest else rest
      answers := .data s.statusWord :: s.answers }

/-- No step ends in a fault or a refusal: a command error is a completion and a bus error is an answer
(spec/60_exceptions.md R235, spec/20_memory.md R67; log entry 9). -/
def Obligations.EveryStepAnswersANextState : Prop := ∀ s : State, ∃ t, step s = .next t

/-- Every pending command completes, with DONE = 1, once the schedule has run out at the latest, unless the platform
resets the unit first (spec/70_reset_and_hazards.md R272, spec/40_command_execution.md R113; that the schedule is a
finite list after which the unit moves first is the model's choice, log entry 6). -/
def Obligations.PendingCommandCompletes : Prop :=
  ∀ s : State, s.busy = true → .platformReset ∉ s.sched →
    ∃ k ≤ s.sched.length + 1, ∃ t, Host.Core.run core k s = .next t ∧ t.busy = false ∧ t.done = true

/-! Reset -/

/-- After reset the registers read 0, except ID and CAPS, no interrupt is raised, and CT is empty; BUF, CT_CW and FREQ
are unspecified, so nothing is said of them (spec/10_state.md R40). -/
def Obligations.ResetLeavesTheStatedValues : Prop :=
  ∀ (p : Params) (epoch : Nat),
    let s := State.afterReset p epoch
    (∀ r : Reg, r ≠ .id → r ≠ .caps → s.readReg r = 0) ∧ s.readReg .id = 0x48373401 ∧
    s.readReg .caps = 0x0000FF00 ||| BitVec.ofNat 32 p.bufLog2 ∧ s.busy = false ∧ s.ie = false ∧ s.irq = false ∧
    (∀ c, s.ctLenAt c = 0)

/-- A reset event from any state, a pending command included, gives every register its reset value and empties CT: the
command is abandoned, DONE is not set and no interrupt is raised (spec/70_reset_and_hazards.md R260); the parameters are
fixed (spec/00_scope.md R8). That reset is one event, and that the host's script, the rest of the schedule and the
recorded answers are kept, is the model's choice (log entry 12, DESIGN CHOICE): R260 says nothing of the host's plans. -/
def Obligations.ResetAbandonsThePendingCommand : Prop :=
  ∀ s : State, s.nextAgent = .platformReset → ∃ t, step s = .next t ∧
    (∀ r : Reg, r ≠ .id → r ≠ .caps → t.readReg r = 0) ∧ t.readReg .id = s.readReg .id ∧
    t.readReg .caps = s.readReg .caps ∧ t.busy = false ∧ t.done = false ∧ t.irq = false ∧
    (∀ c, t.ctLenAt c = 0) ∧ t.cfg = s.cfg ∧ t.script = s.script ∧ t.sched = s.sched.tail ∧ t.answers = s.answers

/-! Invariants and whole-machine rules -/

/-- The state after reset satisfies the invariant. -/
def Obligations.ResetSatisfiesInv : Prop := ∀ (p : Params) (epoch : Nat), (State.afterReset p epoch).Inv

/-- Every step, of whichever agent, keeps the invariant: the memories stay canonical and within BUF_BYTES, 256 and 2048
entries, ECODE stays one of R230's codes, a pending command has DONE and ECODE cleared, HRES's reserved bits stay 0 and
no result count exceeds BUF_BYTES (spec/10_state.md R22, R30, spec/00_scope.md R17, spec/40_command_execution.md R112,
spec/60_exceptions.md R230). -/
def Obligations.StepKeepsInv : Prop := ∀ s t : State, s.Inv → step s = .next t → t.Inv

/-- While a command is pending, a host move leaves it pending and changes nothing it uses or will report: not CMD, the
operand registers, GROUP, BUF, CT, FREQ, nor the results of the command before it (spec/10_state.md R31, R38,
spec/20_memory.md R70, R71, R77). -/
def Obligations.PendingCommandIsUndisturbed : Prop :=
  ∀ s t : State, s.busy = true → s.nextAgent = .host → step s = .next t →
    t.busy = true ∧ t.cmd = s.cmd ∧ t.srcAddr = s.srcAddr ∧ t.srcLen = s.srcLen ∧ t.dstAddr = s.dstAddr ∧
    t.auxAddr = s.auxAddr ∧ t.group = s.group ∧ t.buf = s.buf ∧ SameTables s t ∧ t.epoch = s.epoch ∧
    t.resLen = s.resLen ∧ t.resCnt = s.resCnt ∧ t.hres = s.hres ∧ t.ecode = s.ecode ∧ t.cfg = s.cfg

/-- Who writes what: HRES changes only when H_SYND completes, FREQ only when HUF_BUILD completes, the result registers
only when a command completes, unless the unit is reset (spec/10_state.md R30, R31, R35). -/
def Obligations.ResultsChangeOnlyAtCompletion : Prop :=
  ∀ s t : State, s.nextAgent ≠ .platformReset → step s = .next t →
    (t.hres ≠ s.hres → s.nextAgent = .unit ∧ s.busy = true ∧ decode s.cmd = .ok .hSynd) ∧
    (t.freq ≠ s.freq → s.nextAgent = .unit ∧ s.busy = true ∧ decode s.cmd = .ok .hufBuild) ∧
    (t.resLen ≠ s.resLen ∨ t.resCnt ≠ s.resCnt → s.nextAgent = .unit ∧ s.busy = true ∧ t.busy = false)

/-- DONE rises only when a pending command completes, and the IRQ output rises only then or when the host writes CTRL
with bit 0 set while DONE = 1 and IE = 0: completion is the unit's one interrupt source (spec/10_state.md R36,
spec/60_exceptions.md R237, R238). -/
def Obligations.InterruptComesOnlyFromCompletion : Prop :=
  ∀ s t : State, step s = .next t →
    (s.done = false → t.done = true → s.nextAgent = .unit ∧ s.busy = true ∧ t.busy = false) ∧
    (s.irq = false → t.irq = true →
      (s.nextAgent = .unit ∧ s.busy = true ∧ t.busy = false) ∨
      (s.nextAgent = .host ∧ s.done = true ∧ s.ie = false ∧ t.ie = true ∧ ∃ v rest, v.getLsbD 0 = true ∧
        s.script = .access ⟨.write v, .w4, s.cfg.unitBase + 0x008⟩ :: rest))

/-! The host port -/

/-- A host access is answered with a bus error exactly where the offset is reserved (R64's ranges), the width is not
allowed for the region, or the offset is not a multiple of the width; it then changes no state
(spec/20_memory.md R64, R67). -/
def Obligations.BusErrorsExactly : Prop :=
  ∀ (s : State) (kind : AccessKind) (width : Width) (off : BitVec 21),
    let o := off.toNat
    let reserved := (0x34 ≤ o ∧ o ≤ 0xFFFF) ∨ (0x14000 ≤ o ∧ o ≤ 0x1FFFF) ∨ (0x20400 ≤ o ∧ o ≤ 0xFFFFF) ∨
      0x100000 + s.bufBytes ≤ o
    let faulty := reserved ∨ (o < 0x100000 ∧ width ≠ .w4) ∨ o % width.bytes ≠ 0
    ((s.serve kind width off).2 = .busError ↔ faulty) ∧ (faulty → s.serve kind width off = (s, .busError))

/-- A 4-byte register read returns the whole register, reserved fields 0, whether or not a command is pending, and
changes nothing (spec/10_state.md R23 to R31, spec/20_memory.md R65, R69, R71). -/
def Obligations.RegisterReadsReturnTheRegister : Prop :=
  ∀ s : State,
    let read := fun off => s.serve .read .w4 off
    read 0x000 = (s, .data 0x48373401) ∧
    read 0x004 = (s, .data (BitVec.ofNat 32 (255 * 2 ^ 8 + s.cfg.bufLog2))) ∧
    read 0x008 = (s, .data (BitVec.ofNat 32 s.ie.toNat)) ∧
    read 0x00C = (s, .data (BitVec.ofNat 32 (s.busy.toNat + 2 * s.done.toNat + 4 * (decide (s.ecode ≠ 0)).toNat +
      8 * s.haz.toNat + 2 ^ 8 * s.ecode.toNat))) ∧
    read 0x010 = (s, .data s.cmd) ∧ read 0x014 = (s, .data s.srcAddr) ∧ read 0x018 = (s, .data s.srcLen) ∧
    read 0x01C = (s, .data s.dstAddr) ∧ read 0x020 = (s, .data s.auxAddr) ∧ read 0x024 = (s, .data s.resLen) ∧
    read 0x028 = (s, .data s.resCnt) ∧ read 0x02C = (s, .data (BitVec.ofNat 32 s.group.toNat)) ∧
    read 0x030 = (s, .data (BitVec.ofNat 32 s.hres.toNat))

/-- A STATUS write changes only DONE and HAZ, each cleared where the value has a 1, whether or not a command is pending,
and never sets HAZ (spec/10_state.md R25). A CTRL write sets IE from bit 0 and changes nothing else, in the same way
(spec/10_state.md R26). -/
def Obligations.StatusAndCtrlWrites : Prop :=
  ∀ (s : State) (v : Word),
    s.serve (.write v) .w4 0x00C =
      ({ s with done := if v.getLsbD 1 then false else s.done, haz := if v.getLsbD 3 then false else s.haz }, .written) ∧
    s.serve (.write v) .w4 0x008 = ({ s with ie := v.getLsbD 0 }, .written)

/-- Acceptance: a CMD write of any word while BUSY = 0 stores it, sets BUSY, clears DONE and ECODE, and changes nothing
else; while BUSY = 1 it is refused and only HAZ is set (spec/40_command_execution.md R112, spec/10_state.md R27). -/
def Obligations.CommandAcceptance : Prop :=
  ∀ (s : State) (w : Word),
    (s.busy = false → s.serve (.write w) .w4 0x010 =
      ({ s with cmd := w, busy := true, done := false, ecode := 0 }, .written)) ∧
    (s.busy = true → s.serve (.write w) .w4 0x010 = ({ s with haz := true }, .written)) ∧
    s.serve .read .w4 0x010 = (s, .data s.cmd)

/-- The operand registers take all 32 bits of a write while BUSY = 0, GROUP its low 7 bits; while BUSY = 1 the write is
refused and only HAZ is set (spec/10_state.md R28, R29). -/
def Obligations.OperandRegisterWrites : Prop :=
  ∀ (s : State) (v : Word),
    (s.busy = false →
      s.serve (.write v) .w4 0x014 = ({ s with srcAddr := v }, .written) ∧
      s.serve (.write v) .w4 0x018 = ({ s with srcLen := v }, .written) ∧
      s.serve (.write v) .w4 0x01C = ({ s with dstAddr := v }, .written) ∧
      s.serve (.write v) .w4 0x020 = ({ s with auxAddr := v }, .written) ∧
      s.serve (.write v) .w4 0x02C = ({ s with group := BitVec.ofNat 7 v.toNat }, .written)) ∧
    (s.busy = true → ∀ off ∈ [0x014, 0x018, 0x01C, 0x020, 0x02C],
      s.serve (.write v) .w4 off = ({ s with haz := true }, .written))

/-- Writes to the read-only registers ID, CAPS, RES_LEN, RES_CNT and HRES are ignored and do not set HAZ, whether or not
a command is pending (spec/20_memory.md R71). -/
def Obligations.ReadOnlyRegisterWritesAreIgnored : Prop :=
  ∀ (s : State) (v : Word), ∀ off ∈ [0x000, 0x004, 0x024, 0x028, 0x030], s.serve (.write v) .w4 off = (s, .written)

/-- While BUSY = 1, every access that falls in the BUF, CT or FREQ window and is not a bus error is refused: a read
returns 0, a write has no effect, and HAZ is set (spec/20_memory.md R70). -/
def Obligations.WindowsAreClosedWhileBusy : Prop :=
  ∀ (s : State) (width : Width) (off : BitVec 21) (v : Word), s.busy = true → 0x34 ≤ off.toNat →
    s.isBusError width off = false →
    s.serve .read width off = ({ s with haz := true }, .data 0) ∧
    s.serve (.write v) width off = ({ s with haz := true }, .written)

/-- A BUF access of n bytes at `BUF[a]` while BUSY = 0: a read returns the little-endian value of the n bytes and
changes nothing; a write stores the low n bytes of the value, the byte at the lowest offset bits [7:0], and changes no
other byte, register or table (spec/20_memory.md R69, R72, spec/00_scope.md R12). -/
def Obligations.BufAccessIsLittleEndian : Prop :=
  ∀ (s : State) (width : Width) (a : Nat) (v : Word), s.busy = false → a < s.bufBytes → a % width.bytes = 0 →
    let off := BitVec.ofNat 21 (0x100000 + a)
    (∃ d : Word, s.serve .read width off = (s, .data d) ∧ d.toNat < 256 ^ width.bytes ∧
      ∀ k < width.bytes, BitVec.ofNat 8 (d.toNat / 256 ^ k) = s.bufByte (a + k)) ∧
    (∃ t : State, s.serve (.write v) width off = (t, .written) ∧ t = { s with buf := t.buf } ∧
      (∀ k < width.bytes, t.bufByte (a + k) = BitVec.ofNat 8 (v.toNat / 256 ^ k)) ∧ SameOutside s t a width.bytes)

/-- The CT window while BUSY = 0: word 0 is CT_LEN (a write stores bits [7:0], a read returns them), words 1..8 are the
words of CT_CW, words 9..15 read 0 and ignore writes; a write changes no other entry (spec/20_memory.md R66). The memory
is in canonical form, as `StepKeepsInv` keeps it. -/
def Obligations.CtWindowAccess : Prop :=
  ∀ (s : State) (c : Byte) (w : Nat) (v : Word), s.busy = false → w < 16 → s.MemoriesWf →
    let off := BitVec.ofNat 21 (0x10000 + 64 * c.toNat + 4 * w)
    s.serve .read .w4 off = (s, .data (if w = 0 then BitVec.ofNat 32 (s.ctLenAt c).toNat
      else if w ≤ 8 then s.ctCwAt c (w - 1) else 0)) ∧
    ∃ t : State, s.serve (.write v) .w4 off = (t, .written) ∧ t = { s with ctLen := t.ctLen, ctCw := t.ctCw } ∧
      (∀ d, t.ctLenAt d = if d = c ∧ w = 0 then BitVec.ofNat 8 v.toNat else s.ctLenAt d) ∧
      (∀ d j, j < 8 → t.ctCwAt d j = if d = c ∧ w = j + 1 then v else s.ctCwAt d j)

/-- The FREQ window while BUSY = 0: a read returns FREQ[c], a write is ignored (spec/20_memory.md R66, spec/10_state.md
R35). -/
def Obligations.FreqWindowAccess : Prop :=
  ∀ (s : State) (c : Byte) (v : Word), s.busy = false →
    let off := BitVec.ofNat 21 (0x20000 + 4 * c.toNat)
    s.serve .read .w4 off = (s, .data (s.freqAt c)) ∧ s.serve (.write v) .w4 off = (s, .written)

/-- IRQ = DONE and CTRL.IE, a level: any completion raises it where IE = 1, setting IE while DONE = 1 raises it at once,
writing 1 to DONE, clearing IE or accepting a command lowers it; masked, DONE still sets (spec/60_exceptions.md R238). -/
def Obligations.IrqFollowsDoneAndEnable : Prop :=
  ∀ s : State, (s.irq = (s.done && s.ie)) ∧
    (∀ i t, exec i s = .next t → t.done = true ∧ t.irq = s.ie) ∧
    (s.done = true → (s.serve (.write 1) .w4 0x008).1.irq = true) ∧
    (s.serve (.write 0) .w4 0x008).1.irq = false ∧
    (s.serve (.write 2) .w4 0x00C).1.irq = false ∧
    (∀ w, s.busy = false → (s.serve (.write w) .w4 0x010).1.irq = false)

/-! Every command: checks, frame, completion -/

/-- The check order of R116: an invalid word reports E_BADCMD; else the first failing check of input range, strict
length, bit values, empty text or absent symbol, output range, overlap is the one error reported, and nothing is written
but STATUS, RES_LEN <- 0 and RES_CNT <- 0 (spec/40_command_execution.md R116, R117). -/
def Obligations.FirstFailingCheckIsReported : Prop :=
  (∀ s : State, s.busy = true → (∃ e, decode s.cmd = .error e) → unitMove s = .next (s.emptyEnd 1)) ∧
  ∀ (i : Instr) (s : State), Instr.streams i = true →
    (¬s.InputInRange → exec i s = .next (s.emptyEnd 2)) ∧
    (s.InputInRange → ¬s.WholeGroups i → exec i s = .next (s.emptyEnd 4)) ∧
    (s.InputInRange → s.WholeGroups i → ¬s.BitsOnly i → exec i s = .next (s.emptyEnd 5)) ∧
    (s.InputInRange → i = .hufBuild → s.n = 0 → exec i s = .next (s.emptyEnd 6)) ∧
    (s.InputInRange → i = .hufEncode → ¬s.TextOk i → exec i s = .next (s.emptyEnd 7)) ∧
    (s.InputInRange → s.WholeGroups i → s.BitsOnly i → s.TextOk i → ¬s.OutputsInRange i →
      exec i s = .next (s.emptyEnd 2)) ∧
    (s.InputInRange → s.WholeGroups i → s.BitsOnly i → s.TextOk i → s.OutputsInRange i → ¬s.NoOverlap i →
      exec i s = .next (s.emptyEnd 3))

/-- With every check passed a command reports success; only HUF_DECODE may report E_DECODE instead
(spec/40_command_execution.md R111, R116, spec/60_exceptions.md R230, R232). -/
def Obligations.ChecksPassedMeansSuccess : Prop :=
  ∀ (i : Instr) (s : State),
    (Instr.streams i = true → s.InputInRange ∧ s.WholeGroups i ∧ s.BitsOnly i ∧ s.TextOk i ∧ s.OutputsInRange i ∧
      s.NoOverlap i) →
    ∃ t, exec i s = .next t ∧ (Completed t 0 ∨ (i = .hufDecode ∧ Completed t 8))

/-- The frame of every command, on success and on error: it completes, and no operand or control register, HAZ, no
parameter and no other agent changes; HRES changes only for H_SYND, FREQ only for HUF_BUILD, CT only for HUF_BUILD and
HUF_CLEAR, RES_LEN and RES_CNT not for NOP and H_SYND (spec/40_command_execution.md R114, R118, spec/10_state.md R30,
R35). -/
def Obligations.CommandFrame : Prop :=
  ∀ (i : Instr) (s : State), ∃ t, exec i s = .next t ∧ SameControl s t ∧ t.busy = false ∧ t.done = true ∧
    (i ≠ .hSynd → t.hres = s.hres) ∧ (i ≠ .hufBuild → t.freq = s.freq) ∧
    (i ≠ .hufBuild → i ≠ .hufClear → t.ctLen = s.ctLen ∧ t.ctCw = s.ctCw) ∧
    (i = .nop ∨ i = .hSynd → t.resLen = s.resLen ∧ t.resCnt = s.resCnt)

/-- A command writes BUF only in its output regions, HUF_DECODE only in the first RES_LEN bytes of its worst-case
region and H_CORRECT only the RES_CNT words of its position region, and a command with no output region writes no byte
(spec/40_command_execution.md R119). -/
def Obligations.BufWrittenOnlyInOutputRegions : Prop :=
  ∀ (i : Instr) (s t : State), exec i s = .next t →
    (∀ x, (x < s.dstAddr.toNat ∨ s.dstAddr.toNat + s.outputLength i ≤ x) →
      (x < s.auxAddr.toNat ∨ s.auxAddr.toNat + s.positionsLength i ≤ x) → t.bufByte x = s.bufByte x) ∧
    (i = .hufDecode → SameOutside s t s.dstAddr.toNat t.resLen.toNat) ∧
    (∀ strict, i = .hCorrect strict → ∀ x, s.auxAddr.toNat + 4 * t.resCnt.toNat ≤ x →
      x < s.auxAddr.toNat + s.positionsLength i → t.bufByte x = s.bufByte x) ∧
    (i = .nop ∨ i = .hSynd ∨ i = .hufBuild ∨ i = .hufClear → t.buf = s.buf)

/-- A zero-length input succeeds for every streaming command, strict or not, with RES_LEN = 0; HUF_BUILD raises E_EMPTY
(spec/40_command_execution.md R121). -/
def Obligations.ZeroLengthInput : Prop :=
  ∀ (i : Instr) (s : State), Instr.streams i = true → s.srcLen = 0 →
    (i ≠ .hufBuild → exec i s = .next (s.emptyEnd 0)) ∧
    (i = .hufBuild → exec i s = .next (s.emptyEnd 6))

/-! NOP and the Hamming codec -/

/-- NOP, the word 0, completes with ECODE 0 and DONE 1 and leaves everything else unchanged
(spec/40_command_execution.md R120). -/
def Obligations.NopOnlyRaisesDone : Prop :=
  (∀ w : Word, decode w = .ok .nop ↔ w = 0x00000000) ∧
  ∀ s : State, exec .nop s = .next { s with ecode := 0, busy := false, done := true }

/-- Parities, the three mismatch bits and the syndrome table, row by row (spec/41_hamming.md R140, R142, R143). -/
def Obligations.SyndromeTableRows : Prop :=
  ∀ c : BitGroup,
    let m1 := c.c5 ≠ (c.c1 ^^ c.c2 ^^ c.c3)
    let m2 := c.c6 ≠ (c.c1 ^^ c.c2 ^^ c.c4)
    let m3 := c.c7 ≠ (c.c2 ^^ c.c3 ^^ c.c4)
    c.p1 = (c.c1 ^^ c.c2 ^^ c.c3) ∧ c.p2 = (c.c1 ^^ c.c2 ^^ c.c4) ∧ c.p3 = (c.c2 ^^ c.c3 ^^ c.c4) ∧
    (c.m1 = true ↔ m1) ∧ (c.m2 = true ↔ m2) ∧ (c.m3 = true ↔ m3) ∧
    (m1 ∧ m2 ∧ ¬m3 → c.syn = 1) ∧ (m1 ∧ m2 ∧ m3 → c.syn = 2) ∧ (m1 ∧ ¬m2 ∧ m3 → c.syn = 3) ∧
    (¬m1 ∧ m2 ∧ m3 → c.syn = 4) ∧ (¬m1 ∧ ¬m2 ∧ ¬m3 → c.syn = 0) ∧ (m1 ∧ ¬m2 ∧ ¬m3 → c.syn = 0) ∧
    (¬m1 ∧ m2 ∧ ¬m3 → c.syn = 0) ∧ (¬m1 ∧ ¬m2 ∧ m3 → c.syn = 0)

/-- Group correction: a syndrome of 1 to 4 complements that element and no other; syndrome 0 changes nothing
(spec/41_hamming.md R144). -/
def Obligations.CorrectionFlipsTheSyndromeBit : Prop :=
  ∀ (c : BitGroup) (k : Nat), c.syn ≤ 4 ∧ c.corrected.toList.length = 7 ∧
    c.corrected.toList[k]? = if c.syn ≠ 0 ∧ k = c.syn - 1 then (c.toList[k]?).map (!·) else c.toList[k]?

/-- `encode4(d)` has the data bits d and no mismatch, and it is the only such group; one flipped data bit is found and
restored, one flipped check bit is not and leaves the group as it is (spec/41_hamming.md R146, R147). -/
def Obligations.SingleErrorsOfACodeword : Prop :=
  ∀ d1 d2 d3 d4 : Bool,
    let c := encode4 d1 d2 d3 d4
    c = ⟨d1, d2, d3, d4, d1 ^^ d2 ^^ d3, d1 ^^ d2 ^^ d4, d2 ^^ d3 ^^ d4⟩ ∧
    (∀ g : BitGroup, (g.c1 = d1 ∧ g.c2 = d2 ∧ g.c3 = d3 ∧ g.c4 = d4 ∧ g.m1 = false ∧ g.m2 = false ∧ g.m3 = false) ↔
      g = c) ∧
    (c.syn = 0 ∧ c.corrected = c) ∧
    (∀ g ∈ [{ c with c1 := !d1 }, { c with c2 := !d2 }, { c with c3 := !d3 }, { c with c4 := !d4 }], g.corrected = c) ∧
    { c with c1 := !d1 }.syn = 1 ∧ { c with c2 := !d2 }.syn = 2 ∧ { c with c3 := !d3 }.syn = 3 ∧
    { c with c4 := !d4 }.syn = 4 ∧
    (∀ g ∈ [{ c with c5 := !c.c5 }, { c with c6 := !c.c6 }, { c with c7 := !c.c7 }], g.syn = 0 ∧ g.corrected = g)

/-- H_SYND completes from every state, and HRES is the result of the group in GROUP: CGRP [6:0], SYN [10:8], the
mismatch bits M1 [12], M2 [13], M3 [14] written out from the parity equations, DATA [19:16], the reserved bits 0; nothing
else changes but ECODE, BUSY and DONE (spec/41_hamming.md R145, spec/10_state.md R30). Its word is 1. -/
def Obligations.HSyndResult : Prop :=
  (∀ w : Word, decode w = .ok .hSynd ↔ w = 0x00000001) ∧
  ∀ s : State,
    let c : BitGroup := ⟨s.group.getLsbD 0, s.group.getLsbD 1, s.group.getLsbD 2, s.group.getLsbD 3,
      s.group.getLsbD 4, s.group.getLsbD 5, s.group.getLsbD 6⟩
    ∃ h : BitVec 20, exec .hSynd s = .next { s with hres := h, ecode := 0, busy := false, done := true } ∧
      (∀ k < 7, c.corrected.toList[k]? = some (h.getLsbD k)) ∧ h.getLsbD 7 = false ∧
      (h.extractLsb' 8 3).toNat = c.syn ∧ h.getLsbD 11 = false ∧
      h.getLsbD 12 = (c.c5 != (c.c1 ^^ c.c2 ^^ c.c3)) ∧ h.getLsbD 13 = (c.c6 != (c.c1 ^^ c.c2 ^^ c.c4)) ∧
      h.getLsbD 14 = (c.c7 != (c.c2 ^^ c.c3 ^^ c.c4)) ∧ h.getLsbD 15 = false ∧
      (∀ k < 4, c.corrected.toList[k]? = some (h.getLsbD (16 + k)))

/-- H_CORRECT and H_CORRECT.S on an input that passes the checks: output group j is the correction of input group j, the
positions of the flipped bits stand as 32-bit little-endian words in ascending order from AUX_ADDR, RES_LEN is 7g and
RES_CNT their number; the remainder, the words past the list and every other byte are not written
(spec/41_hamming.md R148, R149). -/
def Obligations.HCorrectResult : Prop :=
  ∀ (strict : Bool) (s : State), s.BitInput strict 7 → s.CorrectFits →
    let g := s.n / 7
    let group := fun j => s.groupAt (s.srcAddr.toNat + 7 * j)
    let positions := (List.range g).filterMap fun j =>
      if (group j).syn = 0 then none else some (7 * j + (group j).syn - 1)
    ∃ t, exec (.hCorrect strict) s = .next t ∧ Completed t 0 ∧ t.resLen.toNat = 7 * g ∧
      t.resCnt.toNat = positions.length ∧
      (∀ j < g, t.groupAt (s.dstAddr.toNat + 7 * j) = (group j).corrected) ∧
      (∀ x < 7 * g, t.IsBit (s.dstAddr.toNat + x)) ∧
      (∀ (k : Nat) (hk : k < positions.length), t.memRead (s.auxAddr.toNat + 4 * k) 4 = positions[k]) ∧
      (∀ x, (x < s.dstAddr.toNat ∨ s.dstAddr.toNat + 7 * g ≤ x) →
        (x < s.auxAddr.toNat ∨ s.auxAddr.toNat + 4 * positions.length ≤ x) → t.bufByte x = s.bufByte x)

/-- H_ENCODE and H_ENCODE.S on an input that passes the checks: output group j is `encode4` of the j-th 4 data bits,
RES_LEN is 7q and RES_CNT q; the remainder and every other byte are not written (spec/41_hamming.md R152). -/
def Obligations.HEncodeResult : Prop :=
  ∀ (strict : Bool) (s : State), s.BitInput strict 4 → s.OutputFits (7 * (s.n / 4)) →
    let q := s.n / 4
    let d := fun j k => s.bitAt (s.srcAddr.toNat + 4 * j + k)
    ∃ t, exec (.hEncode strict) s = .next t ∧ Completed t 0 ∧ t.resLen.toNat = 7 * q ∧ t.resCnt.toNat = q ∧
      (∀ j < q, t.groupAt (s.dstAddr.toNat + 7 * j) = encode4 (d j 0) (d j 1) (d j 2) (d j 3)) ∧
      (∀ x < 7 * q, t.IsBit (s.dstAddr.toNat + x)) ∧ SameOutside s t s.dstAddr.toNat (7 * q)

/-- H_STRIP and H_STRIP.S on an input that passes the checks: the first 4 bits of each group of 7 stand at DST_ADDR,
RES_LEN is 4g and RES_CNT g; the remainder and every other byte are not written (spec/41_hamming.md R156, R157). -/
def Obligations.HStripResult : Prop :=
  ∀ (strict : Bool) (s : State), s.BitInput strict 7 → s.OutputFits (4 * (s.n / 7)) →
    let g := s.n / 7
    ∃ t, exec (.hStrip strict) s = .next t ∧ Completed t 0 ∧ t.resLen.toNat = 4 * g ∧ t.resCnt.toNat = g ∧
      (∀ j < g, ∀ k < 4, t.bufByte (s.dstAddr.toNat + 4 * j + k) = s.bufByte (s.srcAddr.toNat + 7 * j + k)) ∧
      SameOutside s t s.dstAddr.toNat (4 * g)

/-- Round trip of the codec, each command in the plain or the strict form: H_ENCODE of q groups of 4 data bits (a
remainder is dropped where S = 0), H_CORRECT of its output, H_STRIP of that. The second returns the same 7q bits with
RES_CNT 0, the third the 4q data bits (spec/41_hamming.md R153). Between the commands the host rewrites the operand
registers alone. -/
def Obligations.HammingRoundTrip : Prop :=
  ∀ (strict strict2 strict3 : Bool) (s : State), s.BitInput strict 4 → s.OutputFits (7 * (s.n / 4)) →
    ∃ t, exec (.hEncode strict) s = .next t ∧ Completed t 0 ∧ ∀ (dst aux : Word),
      let s2 := { t with srcAddr := t.dstAddr, srcLen := t.resLen, dstAddr := dst, auxAddr := aux }
      s2.CorrectFits → ∃ u, exec (.hCorrect strict2) s2 = .next u ∧ Completed u 0 ∧ u.resLen = t.resLen ∧
        u.resCnt = 0 ∧ (∀ x < 7 * (s.n / 4), u.bufByte (dst.toNat + x) = t.bufByte (t.dstAddr.toNat + x)) ∧
        ∀ (dst3 : Word),
          let s3 := { u with srcAddr := dst, srcLen := u.resLen, dstAddr := dst3 }
          s3.OutputFits (4 * (s3.n / 7)) → ∃ v, exec (.hStrip strict3) s3 = .next v ∧ Completed v 0 ∧
            v.resLen.toNat = 4 * (s.n / 4) ∧
            ∀ x < 4 * (s.n / 4), v.bufByte (dst3.toNat + x) = s.bufByte (s.srcAddr.toNat + x)

/-! Bit packing -/

/-- B_PACK and B_PACK.S on an input that passes the checks: bit 7-k of output byte j is bit 8j+k of the input, RES_LEN
is n div 8 and RES_CNT the n mod 8 bits dropped; every other byte is not written
(spec/42_bitpack.md R170, R171, R172). -/
def Obligations.BPackResult : Prop :=
  ∀ (strict : Bool) (s : State), s.BitInput strict 8 → s.OutputFits (s.n / 8) →
    ∃ t, exec (.bPack strict) s = .next t ∧ Completed t 0 ∧ t.resLen.toNat = s.n / 8 ∧ t.resCnt.toNat = s.n % 8 ∧
      (∀ j < s.n / 8, ∀ k < 8,
        (t.bufByte (s.dstAddr.toNat + j)).getLsbD (7 - k) = s.bitAt (s.srcAddr.toNat + 8 * j + k)) ∧
      SameOutside s t s.dstAddr.toNat (s.n / 8)

/-- B_UNPACK on an input and output that pass the checks: output bit 8j+k is bit 7-k of input byte j, as a byte 0x00 or
0x01, RES_LEN is 8n and RES_CNT n; every other byte is not written (spec/42_bitpack.md R170, R175). -/
def Obligations.BUnpackResult : Prop :=
  ∀ (s : State), s.InputInRange → s.OutputFits (8 * s.n) →
    ∃ t, exec .bUnpack s = .next t ∧ Completed t 0 ∧ t.resLen.toNat = 8 * s.n ∧ t.resCnt.toNat = s.n ∧
      (∀ j < s.n, ∀ k < 8, t.bufByte (s.dstAddr.toNat + 8 * j + k) =
        if (s.bufByte (s.srcAddr.toNat + j)).getLsbD (7 - k) then 1 else 0) ∧
      SameOutside s t s.dstAddr.toNat (8 * s.n)

/-- Round trips of packing, B_PACK in the plain or the strict form: B_UNPACK of what B_PACK writes gives the first
8 * (n div 8) input bits, the n mod 8 others being lost, and B_PACK of what B_UNPACK writes gives the bytes back
(spec/42_bitpack.md R176). Between the commands the host rewrites the operand registers alone. -/
def Obligations.PackRoundTrip : Prop :=
  (∀ (strict : Bool) (s : State), s.BitInput strict 8 → s.OutputFits (s.n / 8) →
    ∃ t, exec (.bPack strict) s = .next t ∧ Completed t 0 ∧ t.resCnt.toNat = s.n % 8 ∧ ∀ dst : Word,
      let s2 := { t with srcAddr := t.dstAddr, srcLen := t.resLen, dstAddr := dst }
      s2.OutputFits (8 * s2.n) → ∃ u, exec .bUnpack s2 = .next u ∧ Completed u 0 ∧ u.resLen.toNat = 8 * (s.n / 8) ∧
        ∀ x < 8 * (s.n / 8), u.bufByte (dst.toNat + x) = s.bufByte (s.srcAddr.toNat + x)) ∧
  (∀ (strict : Bool) (s : State), s.InputInRange → s.OutputFits (8 * s.n) →
    ∃ t, exec .bUnpack s = .next t ∧ Completed t 0 ∧ ∀ dst : Word,
      let s2 := { t with srcAddr := t.dstAddr, srcLen := t.resLen, dstAddr := dst }
      s2.OutputFits (s2.n / 8) → ∃ u, exec (.bPack strict) s2 = .next u ∧ Completed u 0 ∧ u.resLen = s.srcLen ∧
        ∀ x < s.n, u.bufByte (dst.toNat + x) = s.bufByte (s.srcAddr.toNat + x))

/-! The Huffman engine -/

/-- `extractMin` removes the least entry in the order (freq, id) and nothing else (spec/43_huffman.md R193). -/
def Obligations.ExtractMinTakesTheLeast : Prop :=
  ∀ q : List QueueEntry, q ≠ [] → ∃ x rest, extractMin q = some (x, rest) ∧ q.Perm (x :: rest) ∧ IsLeast x q

/-- The tree of a text that is not empty is the one R192's procedure builds, from one leaf for each distinct symbol in
ascending symbol order with ids from 0: the two least entries become left and right child until one is left; its
frequency is the length of the text (spec/43_huffman.md R191, R192, R193, spec/00_scope.md R17). -/
def Obligations.TreeIsBuiltByLeastPairs : Prop :=
  ∀ text : List Byte, text ≠ [] →
    leaves text = (symbols.filter fun c => decide (c ∈ text)).map (fun c => HuffmanNode.leaf c (text.count c)) ∧
    ∃ root, buildTree text = some root ∧ MergesTo (enqueue 0 (leaves text)) (leaves text).length root ∧
      root.freq = text.length

/-- Code assignment: a symbol's codeword is the path from the root to its leaf, 0 for left and 1 for right
(spec/43_huffman.md R194). -/
def Obligations.CodewordIsThePathToTheLeaf : Prop :=
  ∀ (root : HuffmanNode) (c : Byte) (path : List Bool),
    (c, path) ∈ assignCodes root [] ↔ ∃ f, root.follow path = some (.leaf c f)

/-- HUF_BUILD of a text that passes the checks completes: FREQ[c] is the number of occurrences of every symbol c,
CT_LEN[c] is 0 exactly for the symbols that do not occur, the codeword in CT, bit k being bit k mod 32 of CT_CW word
k div 32, is `codeword(c)` and the code of R192 to R195, and with two or more distinct symbols it is the path from the
root of the text's tree to c's leaf; every bit of CT_CW past it is 0; RES_LEN is the longest codeword length and RES_CNT
the number of distinct symbols; BUF and HRES are unchanged (spec/43_huffman.md R190, R191, R194, R196, spec/10_state.md
R33, spec/20_memory.md R74). -/
def Obligations.HufBuildResult : Prop :=
  ∀ s : State, s.InputInRange → s.n ≠ 0 →
    let text := (List.range s.n).map fun i => s.bufByte (s.srcAddr.toNat + i)
    ∃ t, exec .hufBuild s = .next t ∧ Completed t 0 ∧ t.buf = s.buf ∧ t.hres = s.hres ∧
      let code := fun c => (List.range (t.ctLenAt c).toNat).map fun k => (t.ctCwAt c (k / 32)).getLsbD (k % 32)
      (∀ c, (t.freqAt c).toNat = text.count c) ∧ (∀ c, t.ctLenAt c = 0 ↔ c ∉ text) ∧
      (∀ c, t.codeword c = code c ∧ code c = codeOf (codesOfText text) c) ∧
      (∃ root, buildTree text = some root ∧
        (2 ≤ t.resCnt.toNat → ∀ c ∈ text, ∃ f, root.follow (code c) = some (.leaf c f))) ∧
      (∀ c, ∀ k < 256, (t.ctLenAt c).toNat ≤ k → (t.ctCwAt c (k / 32)).getLsbD (k % 32) = false) ∧
      (∀ c, (t.ctLenAt c).toNat ≤ t.resLen.toNat) ∧ (∃ c, (t.ctLenAt c).toNat = t.resLen.toNat) ∧
      t.resCnt.toNat = (symbols.filter fun c => decide (c ∈ text)).length

/-- A text with one distinct symbol gets the 1-bit codeword [0] (spec/43_huffman.md R195). -/
def Obligations.OneSymbolTextGetsCodewordZero : Prop :=
  ∀ (s : State) (c : Byte), s.InputInRange → s.n ≠ 0 → (∀ i < s.n, s.bufByte (s.srcAddr.toNat + i) = c) →
    ∃ t, exec .hufBuild s = .next t ∧ t.ctLenAt c = 1 ∧ t.codeword c = [false] ∧ t.resLen = 1 ∧ t.resCnt = 1 ∧
      ∀ j < 8, t.ctCwAt c j = 0

/-- The properties of a table written by HUF_BUILD: (a) no codeword is a prefix of another symbol's, (b) distinct symbols
have distinct codewords, (c) a codeword has length 1 to nsym - 1, and 1 where nsym = 1, so RES_LEN is at most 255,
(d) where nsym >= 2 every bit string is a prefix of a codeword or has one as a prefix (spec/43_huffman.md R197). -/
def Obligations.BuiltTableIsPrefixFree : Prop :=
  ∀ s t : State, s.InputInRange → s.n ≠ 0 → exec .hufBuild s = .next t →
    let nsym := t.resCnt.toNat
    (∀ c d, t.ctLenAt c ≠ 0 → t.ctLenAt d ≠ 0 → c ≠ d → ¬t.codeword c <+: t.codeword d) ∧
    (∀ c d, t.ctLenAt c ≠ 0 → t.ctLenAt d ≠ 0 → t.codeword c = t.codeword d → c = d) ∧
    (∀ c, t.ctLenAt c ≠ 0 → 1 ≤ (t.codeword c).length ∧
      (2 ≤ nsym → (t.codeword c).length ≤ nsym - 1) ∧ (nsym = 1 → (t.codeword c).length = 1)) ∧
    t.resLen.toNat ≤ 255 ∧
    (2 ≤ nsym → ∀ bits : List Bool, ∃ c, t.ctLenAt c ≠ 0 ∧ (bits <+: t.codeword c ∨ t.codeword c <+: bits))

/-- HUF_ENCODE on a text that passes the checks, with any table, built or loaded by the host: the codewords, in input
order, stand at DST_ADDR as a bit array, where bit k of the codeword of c, for k < CT_LEN[c], is bit k mod 32 of CT_CW
word k div 32; RES_LEN is L and RES_CNT n; every other byte is not written (spec/43_huffman.md R205, spec/10_state.md R33,
spec/20_memory.md R74). -/
def Obligations.HufEncodeResult : Prop :=
  ∀ s : State, s.InputInRange → s.TextOk .hufEncode →
    let text := (List.range s.n).map fun i => s.bufByte (s.srcAddr.toNat + i)
    let code := fun c => (List.range (s.ctLenAt c).toNat).map fun k => (s.ctCwAt c (k / 32)).getLsbD (k % 32)
    let out := text.flatMap code
    s.OutputFits out.length →
    ∃ t, exec .hufEncode s = .next t ∧ Completed t 0 ∧ t.resLen.toNat = out.length ∧ t.resCnt.toNat = s.n ∧
      (∀ (k : Nat) (hk : k < out.length), t.bufByte (s.dstAddr.toNat + k) = if out[k] then 1 else 0) ∧
      SameOutside s t s.dstAddr.toNat out.length

/-- HUF_DECODE on an input that passes the checks, with any table, built or loaded by the host: the bits are the
codewords of the symbols written (bit k of the codeword of c, for k < CT_LEN[c], is bit k mod 32 of CT_CW word k div 32),
followed by a rest; each symbol was emitted at the shortest match, as the least symbol with that codeword; no prefix of
the rest is a codeword. RES_LEN counts the symbols; an empty rest is success with RES_CNT 0, else E_DECODE with RES_CNT
its length; no other byte is written (spec/43_huffman.md R212, R213, R214, spec/10_state.md R33, spec/20_memory.md R74). -/
def Obligations.HufDecodeResult : Prop :=
  ∀ s : State, s.BitInput false 1 → s.OutputFits s.n →
    let bits := (List.range s.n).map fun i => s.bitAt (s.srcAddr.toNat + i)
    let code := fun c => (List.range (s.ctLenAt c).toNat).map fun k => (s.ctCwAt c (k / 32)).getLsbD (k % 32)
    let isCode := fun w : List Bool => ∃ c, s.ctLenAt c ≠ 0 ∧ code c = w
    ∃ (t : State) (out : List Byte) (rest : List Bool), exec .hufDecode s = .next t ∧ bits = out.flatMap code ++ rest ∧
      (∀ c ∈ out, s.ctLenAt c ≠ 0 ∧ (∀ k < (code c).length, ¬isCode ((code c).take k)) ∧
        ∀ d, s.ctLenAt d ≠ 0 → code d = code c → c.toNat ≤ d.toNat) ∧
      (∀ k ≤ rest.length, ¬isCode (rest.take k)) ∧
      (∀ (k : Nat) (hk : k < out.length), t.bufByte (s.dstAddr.toNat + k) = out[k]) ∧
      SameOutside s t s.dstAddr.toNat out.length ∧ t.resLen.toNat = out.length ∧ t.resCnt.toNat = rest.length ∧
      (rest = [] → Completed t 0) ∧ (rest ≠ [] → Completed t 8)

/-- Round trip of the engine: HUF_BUILD of a text that is not empty, HUF_ENCODE of the same text, HUF_DECODE of its
output gives the text back with ECODE 0, RES_LEN n and RES_CNT 0, one-symbol texts included (spec/43_huffman.md R215).
Between the commands the host rewrites the operand registers alone. -/
def Obligations.HuffmanRoundTrip : Prop :=
  ∀ s : State, s.InputInRange → s.n ≠ 0 → ∃ t, exec .hufBuild s = .next t ∧ t.ecode = 0 ∧
    ∀ dst : Word,
      let s2 := { t with dstAddr := dst }
      s2.OutputFits (s2.outputLength .hufEncode) → ∃ u, exec .hufEncode s2 = .next u ∧ u.ecode = 0 ∧
        ∀ dst3 : Word,
          let s3 := { u with srcAddr := dst, srcLen := u.resLen, dstAddr := dst3 }
          s3.OutputFits s3.n → ∃ v, exec .hufDecode s3 = .next v ∧ v.ecode = 0 ∧ v.resLen = s.srcLen ∧ v.resCnt = 0 ∧
            ∀ i < s.n, v.bufByte (dst3.toNat + i) = s.bufByte (s.srcAddr.toNat + i)

/-- HUF_CLEAR completes from every state with RES_LEN and RES_CNT 0: every CT_LEN is 0 and every word of CT_CW is 0;
FREQ, BUF and HRES are unchanged. HUF_ENCODE of a non-empty text then raises E_NOSYM, and HUF_DECODE of a non-empty
bit array E_DECODE (spec/43_huffman.md R220). Its word is 0x13. -/
def Obligations.HufClearEmptiesTheTable : Prop :=
  (∀ w : Word, decode w = .ok .hufClear ↔ w = 0x00000013) ∧
  ∀ s : State, ∃ t, exec .hufClear s = .next t ∧ Completed t 0 ∧ t.resLen = 0 ∧ t.resCnt = 0 ∧
    (∀ c, t.ctLenAt c = 0) ∧ (∀ c, ∀ j < 8, t.ctCwAt c j = 0) ∧ t.freq = s.freq ∧ t.buf = s.buf ∧ t.hres = s.hres ∧
    (s.InputInRange → s.n ≠ 0 → exec .hufEncode t = .next (t.emptyEnd 7)) ∧
    (s.BitInput false 1 → s.OutputFits s.n → s.n ≠ 0 → ∃ u, exec .hufDecode t = .next u ∧ u.ecode = 8)

/-- Decoding with the one-symbol table of R195: each bit 0 emits the symbol; the first bit 1 starts an accumulator that
never matches, so every bit from there on stays in it and the command ends E_DECODE (spec/43_huffman.md R216). -/
def Obligations.DegenerateDecode : Prop :=
  ∀ (s : State) (c : Byte), s.BitInput false 1 → s.OutputFits s.n → s.codeword c = [false] →
    (∀ d, d ≠ c → s.ctLenAt d = 0) →
    ((∀ i < s.n, s.bitAt (s.srcAddr.toNat + i) = false) → ∃ t, exec .hufDecode s = .next t ∧ Completed t 0 ∧
      t.resLen = s.srcLen ∧ t.resCnt = 0 ∧ ∀ i < s.n, t.bufByte (s.dstAddr.toNat + i) = c) ∧
    (∀ k < s.n, (∀ i < k, s.bitAt (s.srcAddr.toNat + i) = false) → s.bitAt (s.srcAddr.toNat + k) = true →
      ∃ t, exec .hufDecode s = .next t ∧ Completed t 8 ∧ t.resLen.toNat = k ∧ t.resCnt.toNat = s.n - k ∧
        ∀ i < k, t.bufByte (s.dstAddr.toNat + i) = c)
end

