-- ==== Sys2Proof/Laws/Memory.lean ====
section
/-! SUPPORT. Laws of the sparse memories: reads after writes, and the canonical form every operation keeps. -/

namespace Sys2Proof.Machine

variable {β : Type}

/-- Keys strictly rising, as a pairwise relation. -/
theorem Memory.rising_iff (m : Memory β) : Memory.rising m = true ↔ m.Pairwise fun a b => a.1 < b.1 := by
  induction m with
  | nil => simp [Memory.rising]
  | cons c m ih =>
    obtain ⟨j, b⟩ := c
    cases m with
    | nil => simp [Memory.rising]
    | cons d m =>
      obtain ⟨k, e⟩ := d
      simp only [Memory.rising, Bool.and_eq_true, decide_eq_true_eq, ih]
      constructor
      · rintro ⟨hjk, hm⟩
        refine List.pairwise_cons.2 ⟨?_, hm⟩
        intro x hx
        rcases List.mem_cons.1 hx with rfl | hx
        · exact hjk
        · exact lt_trans hjk ((List.pairwise_cons.1 hm).1 x hx)
      · intro h
        exact ⟨(List.pairwise_cons.1 h).1 (k, e) (by simp), (List.pairwise_cons.1 h).2⟩

theorem Memory.find_insert (m : Memory β) (k j : Nat) (v : β) :
    Memory.find (Memory.insert m k v) j = if j = k then some v else Memory.find m j := by
  induction m with
  | nil => simp [Memory.insert, Memory.find]
  | cons c m ih =>
    obtain ⟨i, b⟩ := c
    simp only [Memory.insert]
    split
    · simp [Memory.find]
    · split
      · subst k
        by_cases h : j = i <;> simp [Memory.find, h]
      · by_cases h : j = i
        · subst j; simp [Memory.find]; omega
        · simp [Memory.find, h, ih]

theorem Memory.find_write_none [DecidableEq β] (m : Memory β) (k j : Nat) (v : β) :
    Memory.find (Memory.write none m k v) j = if j = k then some v else Memory.find m j := by
  simp [Memory.write, Memory.find_insert]

/-- A listed cell of a rising memory is what a read of its key finds, and nothing else is. -/
theorem Memory.find_eq_some_iff (m : Memory β) (h : m.Pairwise fun a b => a.1 < b.1) (k : Nat) (v : β) :
    Memory.find m k = some v ↔ (k, v) ∈ m := by
  induction m with
  | nil => simp [Memory.find]
  | cons c m ih =>
    obtain ⟨j, b⟩ := c
    obtain ⟨hj, hm⟩ := List.pairwise_cons.1 h
    by_cases hk : k = j
    · subst k
      simp only [Memory.find, if_true, Option.some.injEq, List.mem_cons, Prod.mk.injEq, true_and]
      constructor
      · intro h; exact .inl h.symm
      · rintro (h | h)
        · exact h.symm
        · exact absurd (hj _ h) (lt_irrefl _)
    · simp [Memory.find, hk, ih hm]

theorem Memory.find_erase_ne (m : Memory β) (k j : Nat) (h : j ≠ k) :
    Memory.find (Memory.erase m k) j = Memory.find m j := by
  induction m with
  | nil => rfl
  | cons c m ih =>
    obtain ⟨i, b⟩ := c
    simp only [Memory.erase]
    split
    · subst k; simp [Memory.find, h]
    · simp [Memory.find, ih]

theorem Memory.erase_sublist (m : Memory β) (k : Nat) : (Memory.erase m k).Sublist m := by
  induction m with
  | nil => simp [Memory.erase]
  | cons c m ih =>
    obtain ⟨i, b⟩ := c
    simp only [Memory.erase]
    split
    · exact List.sublist_cons_self _ _
    · exact ih.cons_cons _

theorem Memory.find_erase_self (m : Memory β) (h : m.Pairwise fun a b => a.1 < b.1) (k : Nat) :
    Memory.find (Memory.erase m k) k = none := by
  induction m with
  | nil => rfl
  | cons c m ih =>
    obtain ⟨i, b⟩ := c
    obtain ⟨hi, hm⟩ := List.pairwise_cons.1 h
    simp only [Memory.erase]
    split
    · subst k
      cases hf : Memory.find m i with
      | none => rfl
      | some v => exact absurd (hi _ ((Memory.find_eq_some_iff m hm _ _).1 hf)) (lt_irrefl _)
    · simp [Memory.find, *]

/-- A read after a write, of a memory whose unlisted keys read as `d`. -/
theorem Memory.find_write_some [DecidableEq β] (m : Memory β) (d v : β) (k j : Nat)
    (h : Memory.rising m = true) :
    (Memory.find (Memory.write (some d) m k v) j).getD d = if j = k then v else (Memory.find m j).getD d := by
  have h := (Memory.rising_iff m).1 h
  unfold Memory.write
  by_cases hv : d = v
  · subst d
    by_cases hj : j = k
    · subst j; simp [Memory.find_erase_self m h]
    · simp [hj, Memory.find_erase_ne m k j hj]
  · by_cases hj : j = k <;> simp [hv, Memory.find_insert, hj]

/-- Another key than the one written reads as before, whatever the form of the memory. -/
theorem Memory.find_write_ne [DecidableEq β] (unlisted : Option β) (m : Memory β) (k j : Nat) (v : β) (h : j ≠ k) :
    Memory.find (Memory.write unlisted m k v) j = Memory.find m j := by
  unfold Memory.write
  split
  · exact Memory.find_erase_ne m k j h
  · simp [Memory.find_insert, h]

/-- The canonical form, as a relation. -/
theorem Memory.wf_iff [DecidableEq β] (unlisted : Option β) (bound : Nat) (m : Memory β) :
    Memory.wf unlisted bound m = true ↔
      (m.Pairwise fun a b => a.1 < b.1) ∧ ∀ c ∈ m, c.1 < bound ∧ unlisted ≠ some c.2 := by
  simp [Memory.wf, Memory.rising_iff]

theorem Memory.wf_nil [DecidableEq β] (unlisted : Option β) (bound : Nat) :
    Memory.wf unlisted bound ([] : Memory β) = true := by
  simp [Memory.wf_iff]

theorem Memory.mem_insert (m : Memory β) (k : Nat) (v : β) {c : Nat × β} (h : c ∈ Memory.insert m k v) :
    c = (k, v) ∨ c ∈ m := by
  induction m with
  | nil => simpa [Memory.insert] using h
  | cons d m ih =>
    obtain ⟨i, b⟩ := d
    simp only [Memory.insert] at h
    split at h
    · simpa using h
    · split at h
      · rcases List.mem_cons.1 h with h | h
        · exact .inl h
        · exact .inr (List.mem_cons_of_mem _ h)
      · rcases List.mem_cons.1 h with h | h
        · exact .inr (h ▸ List.mem_cons_self)
        · exact (ih h).imp id (List.mem_cons_of_mem _)

theorem Memory.insert_pairwise (m : Memory β) (h : m.Pairwise fun a b => a.1 < b.1) (k : Nat) (v : β) :
    (Memory.insert m k v).Pairwise fun a b => a.1 < b.1 := by
  induction m with
  | nil => simp [Memory.insert]
  | cons c m ih =>
    obtain ⟨i, b⟩ := c
    obtain ⟨hi, hm⟩ := List.pairwise_cons.1 h
    simp only [Memory.insert]
    split
    · rename_i hk
      refine List.pairwise_cons.2 ⟨?_, h⟩
      intro x hx
      rcases List.mem_cons.1 hx with rfl | hx
      · exact hk
      · exact lt_trans hk (hi x hx)
    · split
      · subst k
        exact List.pairwise_cons.2 ⟨hi, hm⟩
      · refine List.pairwise_cons.2 ⟨?_, ih hm⟩
        intro x hx
        rcases Memory.mem_insert m k v hx with rfl | hx
        · show i < k; omega
        · exact hi x hx

/-- Every write below the bound keeps the canonical form. -/
theorem Memory.wf_write [DecidableEq β] (unlisted : Option β) (bound : Nat) (m : Memory β) (k : Nat) (v : β)
    (h : Memory.wf unlisted bound m = true) (hk : k < bound) :
    Memory.wf unlisted bound (Memory.write unlisted m k v) = true := by
  rw [Memory.wf_iff] at h ⊢
  unfold Memory.write
  split
  · exact ⟨h.1.sublist (Memory.erase_sublist m k), fun c hc => h.2 c ((Memory.erase_sublist m k).mem hc)⟩
  · refine ⟨Memory.insert_pairwise m h.1 k v, fun c hc => ?_⟩
    rcases Memory.mem_insert m k v hc with rfl | hc
    · exact ⟨hk, by assumption⟩
    · exact h.2 c hc

/-- Writing bytes below the bound keeps the canonical form. -/
theorem Memory.wf_writeBytes (bound : Nat) (bytes : List Byte) (m : Memory Byte) (a : Nat)
    (h : Memory.wf none bound m = true) (ha : bytes = [] ∨ a + bytes.length ≤ bound) :
    Memory.wf none bound (Memory.writeBytes m a bytes) = true := by
  induction bytes generalizing m a with
  | nil => simpa [Memory.writeBytes] using h
  | cons b bytes ih =>
    have ha : a + (bytes.length + 1) ≤ bound := by simpa using ha
    exact ih _ _ (Memory.wf_write none bound m a b h (by omega)) (.inr (by omega))

/-- A read after `writeBytes`. -/
theorem Memory.find_writeBytes (bytes : List Byte) (m : Memory Byte) (a j : Nat) :
    Memory.find (Memory.writeBytes m a bytes) j =
      if a ≤ j ∧ j < a + bytes.length then bytes[j - a]? else Memory.find m j := by
  induction bytes generalizing m a with
  | nil =>
    have : ¬(a ≤ j ∧ j < a + ([] : List Byte).length) := by simp
    rw [if_neg this]; rfl
  | cons b bytes ih =>
    simp only [Memory.writeBytes, ih, Memory.find_write_none, List.length_cons]
    by_cases h1 : a + 1 ≤ j ∧ j < a + 1 + bytes.length
    · rw [if_pos h1, if_pos (by omega)]
      rw [show j - a = j - (a + 1) + 1 by omega]; simp
    · rw [if_neg h1]
      by_cases h2 : j = a
      · subst j; simp
      · rw [if_neg h2, if_neg (by omega)]

theorem Memory.tabulate_pairwise [DecidableEq β] (unlisted : Option β) (n : Nat) (f : Nat → β) :
    (Memory.tabulate unlisted n f).Pairwise fun a b => a.1 < b.1 := by
  unfold Memory.tabulate
  refine List.Pairwise.filterMap _ ?_ (List.pairwise_lt_range (n := n))
  intro a a' haa b hb b' hb'
  simp only [Option.ite_none_left_eq_some, Option.some.injEq] at hb hb'
  obtain ⟨-, rfl⟩ := hb
  obtain ⟨-, rfl⟩ := hb'
  exact haa

theorem Memory.mem_tabulate [DecidableEq β] (unlisted : Option β) (n : Nat) (f : Nat → β) (k : Nat) (v : β) :
    (k, v) ∈ Memory.tabulate unlisted n f ↔ k < n ∧ v = f k ∧ unlisted ≠ some (f k) := by
  unfold Memory.tabulate
  simp only [List.mem_filterMap, List.mem_range, Option.ite_none_left_eq_some, Option.some.injEq, Prod.mk.injEq]
  constructor
  · rintro ⟨a, ha, hu, rfl, rfl⟩; exact ⟨ha, rfl, hu⟩
  · rintro ⟨ha, rfl, hu⟩; exact ⟨k, ha, hu, rfl, rfl⟩

/-- A tabulated memory is canonical. -/
theorem Memory.wf_tabulate [DecidableEq β] (unlisted : Option β) (n : Nat) (f : Nat → β) :
    Memory.wf unlisted n (Memory.tabulate unlisted n f) = true := by
  rw [Memory.wf_iff]
  refine ⟨Memory.tabulate_pairwise unlisted n f, ?_⟩
  rintro ⟨k, v⟩ hc
  obtain ⟨hk, rfl, hu⟩ := (Memory.mem_tabulate unlisted n f k v).1 hc
  exact ⟨hk, hu⟩

/-- A read of a tabulated memory without a default. -/
theorem Memory.find_tabulate_none [DecidableEq β] (n : Nat) (f : Nat → β) (k : Nat) (hk : k < n) :
    Memory.find (Memory.tabulate none n f) k = some (f k) := by
  rw [Memory.find_eq_some_iff _ (Memory.tabulate_pairwise none n f), Memory.mem_tabulate]
  simp [hk]

/-- A read of a tabulated memory whose unlisted keys read as `d`. -/
theorem Memory.find_tabulate_some [DecidableEq β] (d : β) (n : Nat) (f : Nat → β) (k : Nat) (hk : k < n) :
    (Memory.find (Memory.tabulate (some d) n f) k).getD d = f k := by
  by_cases hd : d = f k
  · cases hf : Memory.find (Memory.tabulate (some d) n f) k with
    | none => simpa using hd
    | some v =>
      have := (Memory.find_eq_some_iff _ (Memory.tabulate_pairwise (some d) n f) k v).1 hf
      exact ((Memory.mem_tabulate _ _ _ _ _).1 this).2.1
  · have : Memory.find (Memory.tabulate (some d) n f) k = some (f k) := by
      rw [Memory.find_eq_some_iff _ (Memory.tabulate_pairwise (some d) n f), Memory.mem_tabulate]
      simp [hk, hd]
    simp [this]

end Sys2Proof.Machine
end

