-- ==== Sys2Proof/Laws/State.lean ====
section
/-! SUPPORT. One lemma per field per named update of the state, and the reads of memory that an update leaves alone. -/

namespace Sys2Proof.Machine

variable (s : State)

@[simp] theorem State.complete_ie (e : BitVec 4) : (s.complete e).ie = s.ie := rfl
@[simp] theorem State.complete_busy (e : BitVec 4) : (s.complete e).busy = false := rfl
@[simp] theorem State.complete_done (e : BitVec 4) : (s.complete e).done = true := rfl
@[simp] theorem State.complete_haz (e : BitVec 4) : (s.complete e).haz = s.haz := rfl
@[simp] theorem State.complete_ecode (e : BitVec 4) : (s.complete e).ecode = e := rfl
@[simp] theorem State.complete_cmd (e : BitVec 4) : (s.complete e).cmd = s.cmd := rfl
@[simp] theorem State.complete_srcAddr (e : BitVec 4) : (s.complete e).srcAddr = s.srcAddr := rfl
@[simp] theorem State.complete_srcLen (e : BitVec 4) : (s.complete e).srcLen = s.srcLen := rfl
@[simp] theorem State.complete_dstAddr (e : BitVec 4) : (s.complete e).dstAddr = s.dstAddr := rfl
@[simp] theorem State.complete_auxAddr (e : BitVec 4) : (s.complete e).auxAddr = s.auxAddr := rfl
@[simp] theorem State.complete_resLen (e : BitVec 4) : (s.complete e).resLen = s.resLen := rfl
@[simp] theorem State.complete_resCnt (e : BitVec 4) : (s.complete e).resCnt = s.resCnt := rfl
@[simp] theorem State.complete_group (e : BitVec 4) : (s.complete e).group = s.group := rfl
@[simp] theorem State.complete_hres (e : BitVec 4) : (s.complete e).hres = s.hres := rfl
@[simp] theorem State.complete_buf (e : BitVec 4) : (s.complete e).buf = s.buf := rfl
@[simp] theorem State.complete_ctLen (e : BitVec 4) : (s.complete e).ctLen = s.ctLen := rfl
@[simp] theorem State.complete_ctCw (e : BitVec 4) : (s.complete e).ctCw = s.ctCw := rfl
@[simp] theorem State.complete_freq (e : BitVec 4) : (s.complete e).freq = s.freq := rfl
@[simp] theorem State.complete_cfg (e : BitVec 4) : (s.complete e).cfg = s.cfg := rfl
@[simp] theorem State.complete_epoch (e : BitVec 4) : (s.complete e).epoch = s.epoch := rfl
@[simp] theorem State.complete_sched (e : BitVec 4) : (s.complete e).sched = s.sched := rfl
@[simp] theorem State.complete_script (e : BitVec 4) : (s.complete e).script = s.script := rfl
@[simp] theorem State.complete_answers (e : BitVec 4) : (s.complete e).answers = s.answers := rfl

@[simp] theorem State.setResults_ie (l c : Nat) : (s.setResults l c).ie = s.ie := rfl
@[simp] theorem State.setResults_busy (l c : Nat) : (s.setResults l c).busy = s.busy := rfl
@[simp] theorem State.setResults_done (l c : Nat) : (s.setResults l c).done = s.done := rfl
@[simp] theorem State.setResults_haz (l c : Nat) : (s.setResults l c).haz = s.haz := rfl
@[simp] theorem State.setResults_ecode (l c : Nat) : (s.setResults l c).ecode = s.ecode := rfl
@[simp] theorem State.setResults_cmd (l c : Nat) : (s.setResults l c).cmd = s.cmd := rfl
@[simp] theorem State.setResults_srcAddr (l c : Nat) : (s.setResults l c).srcAddr = s.srcAddr := rfl
@[simp] theorem State.setResults_srcLen (l c : Nat) : (s.setResults l c).srcLen = s.srcLen := rfl
@[simp] theorem State.setResults_dstAddr (l c : Nat) : (s.setResults l c).dstAddr = s.dstAddr := rfl
@[simp] theorem State.setResults_auxAddr (l c : Nat) : (s.setResults l c).auxAddr = s.auxAddr := rfl
@[simp] theorem State.setResults_resLen (l c : Nat) : (s.setResults l c).resLen = BitVec.ofNat 32 l := rfl
@[simp] theorem State.setResults_resCnt (l c : Nat) : (s.setResults l c).resCnt = BitVec.ofNat 32 c := rfl
@[simp] theorem State.setResults_group (l c : Nat) : (s.setResults l c).group = s.group := rfl
@[simp] theorem State.setResults_hres (l c : Nat) : (s.setResults l c).hres = s.hres := rfl
@[simp] theorem State.setResults_buf (l c : Nat) : (s.setResults l c).buf = s.buf := rfl
@[simp] theorem State.setResults_ctLen (l c : Nat) : (s.setResults l c).ctLen = s.ctLen := rfl
@[simp] theorem State.setResults_ctCw (l c : Nat) : (s.setResults l c).ctCw = s.ctCw := rfl
@[simp] theorem State.setResults_freq (l c : Nat) : (s.setResults l c).freq = s.freq := rfl
@[simp] theorem State.setResults_cfg (l c : Nat) : (s.setResults l c).cfg = s.cfg := rfl
@[simp] theorem State.setResults_epoch (l c : Nat) : (s.setResults l c).epoch = s.epoch := rfl
@[simp] theorem State.setResults_sched (l c : Nat) : (s.setResults l c).sched = s.sched := rfl
@[simp] theorem State.setResults_script (l c : Nat) : (s.setResults l c).script = s.script := rfl
@[simp] theorem State.setResults_answers (l c : Nat) : (s.setResults l c).answers = s.answers := rfl

@[simp] theorem State.accept_ie (w : Word) : (s.accept w).ie = s.ie := rfl
@[simp] theorem State.accept_busy (w : Word) : (s.accept w).busy = true := rfl
@[simp] theorem State.accept_done (w : Word) : (s.accept w).done = false := rfl
@[simp] theorem State.accept_haz (w : Word) : (s.accept w).haz = s.haz := rfl
@[simp] theorem State.accept_ecode (w : Word) : (s.accept w).ecode = 0 := rfl
@[simp] theorem State.accept_cmd (w : Word) : (s.accept w).cmd = w := rfl
@[simp] theorem State.accept_srcAddr (w : Word) : (s.accept w).srcAddr = s.srcAddr := rfl
@[simp] theorem State.accept_srcLen (w : Word) : (s.accept w).srcLen = s.srcLen := rfl
@[simp] theorem State.accept_dstAddr (w : Word) : (s.accept w).dstAddr = s.dstAddr := rfl
@[simp] theorem State.accept_auxAddr (w : Word) : (s.accept w).auxAddr = s.auxAddr := rfl
@[simp] theorem State.accept_resLen (w : Word) : (s.accept w).resLen = s.resLen := rfl
@[simp] theorem State.accept_resCnt (w : Word) : (s.accept w).resCnt = s.resCnt := rfl
@[simp] theorem State.accept_group (w : Word) : (s.accept w).group = s.group := rfl
@[simp] theorem State.accept_hres (w : Word) : (s.accept w).hres = s.hres := rfl
@[simp] theorem State.accept_buf (w : Word) : (s.accept w).buf = s.buf := rfl
@[simp] theorem State.accept_ctLen (w : Word) : (s.accept w).ctLen = s.ctLen := rfl
@[simp] theorem State.accept_ctCw (w : Word) : (s.accept w).ctCw = s.ctCw := rfl
@[simp] theorem State.accept_freq (w : Word) : (s.accept w).freq = s.freq := rfl
@[simp] theorem State.accept_cfg (w : Word) : (s.accept w).cfg = s.cfg := rfl
@[simp] theorem State.accept_epoch (w : Word) : (s.accept w).epoch = s.epoch := rfl
@[simp] theorem State.accept_sched (w : Word) : (s.accept w).sched = s.sched := rfl
@[simp] theorem State.accept_script (w : Word) : (s.accept w).script = s.script := rfl
@[simp] theorem State.accept_answers (w : Word) : (s.accept w).answers = s.answers := rfl

@[simp] theorem State.refuse_ie : s.refuse.ie = s.ie := rfl
@[simp] theorem State.refuse_busy : s.refuse.busy = s.busy := rfl
@[simp] theorem State.refuse_done : s.refuse.done = s.done := rfl
@[simp] theorem State.refuse_haz : s.refuse.haz = true := rfl
@[simp] theorem State.refuse_ecode : s.refuse.ecode = s.ecode := rfl
@[simp] theorem State.refuse_cmd : s.refuse.cmd = s.cmd := rfl
@[simp] theorem State.refuse_srcAddr : s.refuse.srcAddr = s.srcAddr := rfl
@[simp] theorem State.refuse_srcLen : s.refuse.srcLen = s.srcLen := rfl
@[simp] theorem State.refuse_dstAddr : s.refuse.dstAddr = s.dstAddr := rfl
@[simp] theorem State.refuse_auxAddr : s.refuse.auxAddr = s.auxAddr := rfl
@[simp] theorem State.refuse_resLen : s.refuse.resLen = s.resLen := rfl
@[simp] theorem State.refuse_resCnt : s.refuse.resCnt = s.resCnt := rfl
@[simp] theorem State.refuse_group : s.refuse.group = s.group := rfl
@[simp] theorem State.refuse_hres : s.refuse.hres = s.hres := rfl
@[simp] theorem State.refuse_buf : s.refuse.buf = s.buf := rfl
@[simp] theorem State.refuse_ctLen : s.refuse.ctLen = s.ctLen := rfl
@[simp] theorem State.refuse_ctCw : s.refuse.ctCw = s.ctCw := rfl
@[simp] theorem State.refuse_freq : s.refuse.freq = s.freq := rfl
@[simp] theorem State.refuse_cfg : s.refuse.cfg = s.cfg := rfl
@[simp] theorem State.refuse_epoch : s.refuse.epoch = s.epoch := rfl
@[simp] theorem State.refuse_sched : s.refuse.sched = s.sched := rfl
@[simp] theorem State.refuse_script : s.refuse.script = s.script := rfl
@[simp] theorem State.refuse_answers : s.refuse.answers = s.answers := rfl

@[simp] theorem State.writeStatus_ie (v : Word) : (s.writeStatus v).ie = s.ie := rfl
@[simp] theorem State.writeStatus_busy (v : Word) : (s.writeStatus v).busy = s.busy := rfl
@[simp] theorem State.writeStatus_done (v : Word) : (s.writeStatus v).done = (s.done && !v.getLsbD 1) := rfl
@[simp] theorem State.writeStatus_haz (v : Word) : (s.writeStatus v).haz = (s.haz && !v.getLsbD 3) := rfl
@[simp] theorem State.writeStatus_ecode (v : Word) : (s.writeStatus v).ecode = s.ecode := rfl
@[simp] theorem State.writeStatus_cmd (v : Word) : (s.writeStatus v).cmd = s.cmd := rfl
@[simp] theorem State.writeStatus_srcAddr (v : Word) : (s.writeStatus v).srcAddr = s.srcAddr := rfl
@[simp] theorem State.writeStatus_srcLen (v : Word) : (s.writeStatus v).srcLen = s.srcLen := rfl
@[simp] theorem State.writeStatus_dstAddr (v : Word) : (s.writeStatus v).dstAddr = s.dstAddr := rfl
@[simp] theorem State.writeStatus_auxAddr (v : Word) : (s.writeStatus v).auxAddr = s.auxAddr := rfl
@[simp] theorem State.writeStatus_resLen (v : Word) : (s.writeStatus v).resLen = s.resLen := rfl
@[simp] theorem State.writeStatus_resCnt (v : Word) : (s.writeStatus v).resCnt = s.resCnt := rfl
@[simp] theorem State.writeStatus_group (v : Word) : (s.writeStatus v).group = s.group := rfl
@[simp] theorem State.writeStatus_hres (v : Word) : (s.writeStatus v).hres = s.hres := rfl
@[simp] theorem State.writeStatus_buf (v : Word) : (s.writeStatus v).buf = s.buf := rfl
@[simp] theorem State.writeStatus_ctLen (v : Word) : (s.writeStatus v).ctLen = s.ctLen := rfl
@[simp] theorem State.writeStatus_ctCw (v : Word) : (s.writeStatus v).ctCw = s.ctCw := rfl
@[simp] theorem State.writeStatus_freq (v : Word) : (s.writeStatus v).freq = s.freq := rfl
@[simp] theorem State.writeStatus_cfg (v : Word) : (s.writeStatus v).cfg = s.cfg := rfl
@[simp] theorem State.writeStatus_epoch (v : Word) : (s.writeStatus v).epoch = s.epoch := rfl
@[simp] theorem State.writeStatus_sched (v : Word) : (s.writeStatus v).sched = s.sched := rfl
@[simp] theorem State.writeStatus_script (v : Word) : (s.writeStatus v).script = s.script := rfl
@[simp] theorem State.writeStatus_answers (v : Word) : (s.writeStatus v).answers = s.answers := rfl

@[simp] theorem State.writeCtrl_ie (v : Word) : (s.writeCtrl v).ie = v.getLsbD 0 := rfl
@[simp] theorem State.writeCtrl_busy (v : Word) : (s.writeCtrl v).busy = s.busy := rfl
@[simp] theorem State.writeCtrl_done (v : Word) : (s.writeCtrl v).done = s.done := rfl
@[simp] theorem State.writeCtrl_haz (v : Word) : (s.writeCtrl v).haz = s.haz := rfl
@[simp] theorem State.writeCtrl_ecode (v : Word) : (s.writeCtrl v).ecode = s.ecode := rfl
@[simp] theorem State.writeCtrl_cmd (v : Word) : (s.writeCtrl v).cmd = s.cmd := rfl
@[simp] theorem State.writeCtrl_srcAddr (v : Word) : (s.writeCtrl v).srcAddr = s.srcAddr := rfl
@[simp] theorem State.writeCtrl_srcLen (v : Word) : (s.writeCtrl v).srcLen = s.srcLen := rfl
@[simp] theorem State.writeCtrl_dstAddr (v : Word) : (s.writeCtrl v).dstAddr = s.dstAddr := rfl
@[simp] theorem State.writeCtrl_auxAddr (v : Word) : (s.writeCtrl v).auxAddr = s.auxAddr := rfl
@[simp] theorem State.writeCtrl_resLen (v : Word) : (s.writeCtrl v).resLen = s.resLen := rfl
@[simp] theorem State.writeCtrl_resCnt (v : Word) : (s.writeCtrl v).resCnt = s.resCnt := rfl
@[simp] theorem State.writeCtrl_group (v : Word) : (s.writeCtrl v).group = s.group := rfl
@[simp] theorem State.writeCtrl_hres (v : Word) : (s.writeCtrl v).hres = s.hres := rfl
@[simp] theorem State.writeCtrl_buf (v : Word) : (s.writeCtrl v).buf = s.buf := rfl
@[simp] theorem State.writeCtrl_ctLen (v : Word) : (s.writeCtrl v).ctLen = s.ctLen := rfl
@[simp] theorem State.writeCtrl_ctCw (v : Word) : (s.writeCtrl v).ctCw = s.ctCw := rfl
@[simp] theorem State.writeCtrl_freq (v : Word) : (s.writeCtrl v).freq = s.freq := rfl
@[simp] theorem State.writeCtrl_cfg (v : Word) : (s.writeCtrl v).cfg = s.cfg := rfl
@[simp] theorem State.writeCtrl_epoch (v : Word) : (s.writeCtrl v).epoch = s.epoch := rfl
@[simp] theorem State.writeCtrl_sched (v : Word) : (s.writeCtrl v).sched = s.sched := rfl
@[simp] theorem State.writeCtrl_script (v : Word) : (s.writeCtrl v).script = s.script := rfl
@[simp] theorem State.writeCtrl_answers (v : Word) : (s.writeCtrl v).answers = s.answers := rfl

@[simp] theorem State.writeBytes_ie (a : Nat) (bs : List Byte) : (s.writeBytes a bs).ie = s.ie := rfl
@[simp] theorem State.writeBytes_busy (a : Nat) (bs : List Byte) : (s.writeBytes a bs).busy = s.busy := rfl
@[simp] theorem State.writeBytes_done (a : Nat) (bs : List Byte) : (s.writeBytes a bs).done = s.done := rfl
@[simp] theorem State.writeBytes_haz (a : Nat) (bs : List Byte) : (s.writeBytes a bs).haz = s.haz := rfl
@[simp] theorem State.writeBytes_ecode (a : Nat) (bs : List Byte) : (s.writeBytes a bs).ecode = s.ecode := rfl
@[simp] theorem State.writeBytes_cmd (a : Nat) (bs : List Byte) : (s.writeBytes a bs).cmd = s.cmd := rfl
@[simp] theorem State.writeBytes_srcAddr (a : Nat) (bs : List Byte) : (s.writeBytes a bs).srcAddr = s.srcAddr := rfl
@[simp] theorem State.writeBytes_srcLen (a : Nat) (bs : List Byte) : (s.writeBytes a bs).srcLen = s.srcLen := rfl
@[simp] theorem State.writeBytes_dstAddr (a : Nat) (bs : List Byte) : (s.writeBytes a bs).dstAddr = s.dstAddr := rfl
@[simp] theorem State.writeBytes_auxAddr (a : Nat) (bs : List Byte) : (s.writeBytes a bs).auxAddr = s.auxAddr := rfl
@[simp] theorem State.writeBytes_resLen (a : Nat) (bs : List Byte) : (s.writeBytes a bs).resLen = s.resLen := rfl
@[simp] theorem State.writeBytes_resCnt (a : Nat) (bs : List Byte) : (s.writeBytes a bs).resCnt = s.resCnt := rfl
@[simp] theorem State.writeBytes_group (a : Nat) (bs : List Byte) : (s.writeBytes a bs).group = s.group := rfl
@[simp] theorem State.writeBytes_hres (a : Nat) (bs : List Byte) : (s.writeBytes a bs).hres = s.hres := rfl
@[simp] theorem State.writeBytes_buf (a : Nat) (bs : List Byte) : (s.writeBytes a bs).buf = Memory.writeBytes s.buf a bs := rfl
@[simp] theorem State.writeBytes_ctLen (a : Nat) (bs : List Byte) : (s.writeBytes a bs).ctLen = s.ctLen := rfl
@[simp] theorem State.writeBytes_ctCw (a : Nat) (bs : List Byte) : (s.writeBytes a bs).ctCw = s.ctCw := rfl
@[simp] theorem State.writeBytes_freq (a : Nat) (bs : List Byte) : (s.writeBytes a bs).freq = s.freq := rfl
@[simp] theorem State.writeBytes_cfg (a : Nat) (bs : List Byte) : (s.writeBytes a bs).cfg = s.cfg := rfl
@[simp] theorem State.writeBytes_epoch (a : Nat) (bs : List Byte) : (s.writeBytes a bs).epoch = s.epoch := rfl
@[simp] theorem State.writeBytes_sched (a : Nat) (bs : List Byte) : (s.writeBytes a bs).sched = s.sched := rfl
@[simp] theorem State.writeBytes_script (a : Nat) (bs : List Byte) : (s.writeBytes a bs).script = s.script := rfl
@[simp] theorem State.writeBytes_answers (a : Nat) (bs : List Byte) : (s.writeBytes a bs).answers = s.answers := rfl

@[simp] theorem State.replaceTable_ie (x : List Byte) (k : List (Byte × List Bool)) : (s.replaceTable x k).ie = s.ie := rfl
@[simp] theorem State.replaceTable_busy (x : List Byte) (k : List (Byte × List Bool)) : (s.replaceTable x k).busy = s.busy := rfl
@[simp] theorem State.replaceTable_done (x : List Byte) (k : List (Byte × List Bool)) : (s.replaceTable x k).done = s.done := rfl
@[simp] theorem State.replaceTable_haz (x : List Byte) (k : List (Byte × List Bool)) : (s.replaceTable x k).haz = s.haz := rfl
@[simp] theorem State.replaceTable_ecode (x : List Byte) (k : List (Byte × List Bool)) : (s.replaceTable x k).ecode = s.ecode := rfl
@[simp] theorem State.replaceTable_cmd (x : List Byte) (k : List (Byte × List Bool)) : (s.replaceTable x k).cmd = s.cmd := rfl
@[simp] theorem State.replaceTable_srcAddr (x : List Byte) (k : List (Byte × List Bool)) : (s.replaceTable x k).srcAddr = s.srcAddr := rfl
@[simp] theorem State.replaceTable_srcLen (x : List Byte) (k : List (Byte × List Bool)) : (s.replaceTable x k).srcLen = s.srcLen := rfl
@[simp] theorem State.replaceTable_dstAddr (x : List Byte) (k : List (Byte × List Bool)) : (s.replaceTable x k).dstAddr = s.dstAddr := rfl
@[simp] theorem State.replaceTable_auxAddr (x : List Byte) (k : List (Byte × List Bool)) : (s.replaceTable x k).auxAddr = s.auxAddr := rfl
@[simp] theorem State.replaceTable_resLen (x : List Byte) (k : List (Byte × List Bool)) : (s.replaceTable x k).resLen = s.resLen := rfl
@[simp] theorem State.replaceTable_resCnt (x : List Byte) (k : List (Byte × List Bool)) : (s.replaceTable x k).resCnt = s.resCnt := rfl
@[simp] theorem State.replaceTable_group (x : List Byte) (k : List (Byte × List Bool)) : (s.replaceTable x k).group = s.group := rfl
@[simp] theorem State.replaceTable_hres (x : List Byte) (k : List (Byte × List Bool)) : (s.replaceTable x k).hres = s.hres := rfl
@[simp] theorem State.replaceTable_buf (x : List Byte) (k : List (Byte × List Bool)) : (s.replaceTable x k).buf = s.buf := rfl
@[simp] theorem State.replaceTable_cfg (x : List Byte) (k : List (Byte × List Bool)) : (s.replaceTable x k).cfg = s.cfg := rfl
@[simp] theorem State.replaceTable_epoch (x : List Byte) (k : List (Byte × List Bool)) : (s.replaceTable x k).epoch = s.epoch := rfl
@[simp] theorem State.replaceTable_sched (x : List Byte) (k : List (Byte × List Bool)) : (s.replaceTable x k).sched = s.sched := rfl
@[simp] theorem State.replaceTable_script (x : List Byte) (k : List (Byte × List Bool)) : (s.replaceTable x k).script = s.script := rfl
@[simp] theorem State.replaceTable_answers (x : List Byte) (k : List (Byte × List Bool)) : (s.replaceTable x k).answers = s.answers := rfl

@[simp] theorem State.resetUnit_ie : s.resetUnit.ie = false := rfl
@[simp] theorem State.resetUnit_busy : s.resetUnit.busy = false := rfl
@[simp] theorem State.resetUnit_done : s.resetUnit.done = false := rfl
@[simp] theorem State.resetUnit_haz : s.resetUnit.haz = false := rfl
@[simp] theorem State.resetUnit_ecode : s.resetUnit.ecode = 0 := rfl
@[simp] theorem State.resetUnit_cmd : s.resetUnit.cmd = 0 := rfl
@[simp] theorem State.resetUnit_srcAddr : s.resetUnit.srcAddr = 0 := rfl
@[simp] theorem State.resetUnit_srcLen : s.resetUnit.srcLen = 0 := rfl
@[simp] theorem State.resetUnit_dstAddr : s.resetUnit.dstAddr = 0 := rfl
@[simp] theorem State.resetUnit_auxAddr : s.resetUnit.auxAddr = 0 := rfl
@[simp] theorem State.resetUnit_resLen : s.resetUnit.resLen = 0 := rfl
@[simp] theorem State.resetUnit_resCnt : s.resetUnit.resCnt = 0 := rfl
@[simp] theorem State.resetUnit_group : s.resetUnit.group = 0 := rfl
@[simp] theorem State.resetUnit_hres : s.resetUnit.hres = 0 := rfl
@[simp] theorem State.resetUnit_buf : s.resetUnit.buf = [] := rfl
@[simp] theorem State.resetUnit_ctLen : s.resetUnit.ctLen = [] := rfl
@[simp] theorem State.resetUnit_ctCw : s.resetUnit.ctCw = [] := rfl
@[simp] theorem State.resetUnit_freq : s.resetUnit.freq = [] := rfl
@[simp] theorem State.resetUnit_cfg : s.resetUnit.cfg = s.cfg := rfl
@[simp] theorem State.resetUnit_epoch : s.resetUnit.epoch = s.epoch + 1 := rfl
@[simp] theorem State.resetUnit_sched : s.resetUnit.sched = s.sched := rfl
@[simp] theorem State.resetUnit_script : s.resetUnit.script = s.script := rfl
@[simp] theorem State.resetUnit_answers : s.resetUnit.answers = s.answers := rfl

@[simp] theorem State.complete_bufByte (e : BitVec 4) (x : Nat) : (s.complete e).bufByte x = s.bufByte x := rfl
@[simp] theorem State.complete_ctLenAt (e : BitVec 4) (y : Byte) : (s.complete e).ctLenAt y = s.ctLenAt y := rfl
@[simp] theorem State.complete_ctCwAt (e : BitVec 4) (y : Byte) (j : Nat) : (s.complete e).ctCwAt y j = s.ctCwAt y j := rfl
@[simp] theorem State.complete_freqAt (e : BitVec 4) (y : Byte) : (s.complete e).freqAt y = s.freqAt y := rfl
@[simp] theorem State.complete_codeword (e : BitVec 4) (y : Byte) : (s.complete e).codeword y = s.codeword y := rfl
@[simp] theorem State.complete_bufBytes (e : BitVec 4) : (s.complete e).bufBytes = s.bufBytes := rfl
@[simp] theorem State.complete_n (e : BitVec 4) : (s.complete e).n = s.n := rfl
@[simp] theorem State.complete_input (e : BitVec 4) : (s.complete e).input = s.input := rfl
@[simp] theorem State.complete_positions (e : BitVec 4) : (s.complete e).positions = s.positions := rfl

@[simp] theorem State.setResults_bufByte (l c : Nat) (x : Nat) : (s.setResults l c).bufByte x = s.bufByte x := rfl
@[simp] theorem State.setResults_ctLenAt (l c : Nat) (y : Byte) : (s.setResults l c).ctLenAt y = s.ctLenAt y := rfl
@[simp] theorem State.setResults_ctCwAt (l c : Nat) (y : Byte) (j : Nat) : (s.setResults l c).ctCwAt y j = s.ctCwAt y j := rfl
@[simp] theorem State.setResults_freqAt (l c : Nat) (y : Byte) : (s.setResults l c).freqAt y = s.freqAt y := rfl
@[simp] theorem State.setResults_codeword (l c : Nat) (y : Byte) : (s.setResults l c).codeword y = s.codeword y := rfl
@[simp] theorem State.setResults_bufBytes (l c : Nat) : (s.setResults l c).bufBytes = s.bufBytes := rfl
@[simp] theorem State.setResults_n (l c : Nat) : (s.setResults l c).n = s.n := rfl
@[simp] theorem State.setResults_input (l c : Nat) : (s.setResults l c).input = s.input := rfl
@[simp] theorem State.setResults_positions (l c : Nat) : (s.setResults l c).positions = s.positions := rfl

@[simp] theorem State.writeBytes_ctLenAt (a : Nat) (bs : List Byte) (y : Byte) : (s.writeBytes a bs).ctLenAt y = s.ctLenAt y := rfl
@[simp] theorem State.writeBytes_ctCwAt (a : Nat) (bs : List Byte) (y : Byte) (j : Nat) : (s.writeBytes a bs).ctCwAt y j = s.ctCwAt y j := rfl
@[simp] theorem State.writeBytes_freqAt (a : Nat) (bs : List Byte) (y : Byte) : (s.writeBytes a bs).freqAt y = s.freqAt y := rfl
@[simp] theorem State.writeBytes_codeword (a : Nat) (bs : List Byte) (y : Byte) : (s.writeBytes a bs).codeword y = s.codeword y := rfl
@[simp] theorem State.writeBytes_bufBytes (a : Nat) (bs : List Byte) : (s.writeBytes a bs).bufBytes = s.bufBytes := rfl
@[simp] theorem State.writeBytes_n (a : Nat) (bs : List Byte) : (s.writeBytes a bs).n = s.n := rfl
@[simp] theorem State.writeBytes_input (a : Nat) (bs : List Byte) : (s.writeBytes a bs).input = s.input := rfl
@[simp] theorem State.writeBytes_positions (a : Nat) (bs : List Byte) : (s.writeBytes a bs).positions = s.positions := rfl

@[simp] theorem State.replaceTable_freq (x : List Byte) (k : List (Byte × List Bool)) : (s.replaceTable x k).freq =
    Memory.tabulate none 256 fun y => BitVec.ofNat 32 (frequency x (BitVec.ofNat 8 y)) := by simp only [State.replaceTable]
@[simp] theorem State.replaceTable_ctLen (x : List Byte) (k : List (Byte × List Bool)) : (s.replaceTable x k).ctLen =
    Memory.tabulate (some 0) 256 fun y => BitVec.ofNat 8 (codeOf k (BitVec.ofNat 8 y)).length := by simp only [State.replaceTable]
@[simp] theorem State.replaceTable_ctCw (x : List Byte) (k : List (Byte × List Bool)) : (s.replaceTable x k).ctCw =
    Memory.tabulate none 2048 fun y => codeWord (codeOf k (BitVec.ofNat 8 (y / 8))) (y % 8) := by simp only [State.replaceTable]
@[simp] theorem State.replaceTable_bufByte (x : List Byte) (k : List (Byte × List Bool)) (z : Nat) : (s.replaceTable x k).bufByte z = s.bufByte z := rfl
@[simp] theorem State.replaceTable_bufBytes (x : List Byte) (k : List (Byte × List Bool)) : (s.replaceTable x k).bufBytes = s.bufBytes := rfl
@[simp] theorem State.replaceTable_n (x : List Byte) (k : List (Byte × List Bool)) : (s.replaceTable x k).n = s.n := rfl
@[simp] theorem State.replaceTable_input (x : List Byte) (k : List (Byte × List Bool)) : (s.replaceTable x k).input = s.input := rfl
@[simp] theorem State.replaceTable_positions (x : List Byte) (k : List (Byte × List Bool)) : (s.replaceTable x k).positions = s.positions := rfl

@[simp] theorem State.writeBits_ie (a : Nat) (bs : List Bool) : (s.writeBits a bs).ie = s.ie := rfl
@[simp] theorem State.writeBits_busy (a : Nat) (bs : List Bool) : (s.writeBits a bs).busy = s.busy := rfl
@[simp] theorem State.writeBits_done (a : Nat) (bs : List Bool) : (s.writeBits a bs).done = s.done := rfl
@[simp] theorem State.writeBits_haz (a : Nat) (bs : List Bool) : (s.writeBits a bs).haz = s.haz := rfl
@[simp] theorem State.writeBits_ecode (a : Nat) (bs : List Bool) : (s.writeBits a bs).ecode = s.ecode := rfl
@[simp] theorem State.writeBits_cmd (a : Nat) (bs : List Bool) : (s.writeBits a bs).cmd = s.cmd := rfl
@[simp] theorem State.writeBits_srcAddr (a : Nat) (bs : List Bool) : (s.writeBits a bs).srcAddr = s.srcAddr := rfl
@[simp] theorem State.writeBits_srcLen (a : Nat) (bs : List Bool) : (s.writeBits a bs).srcLen = s.srcLen := rfl
@[simp] theorem State.writeBits_dstAddr (a : Nat) (bs : List Bool) : (s.writeBits a bs).dstAddr = s.dstAddr := rfl
@[simp] theorem State.writeBits_auxAddr (a : Nat) (bs : List Bool) : (s.writeBits a bs).auxAddr = s.auxAddr := rfl
@[simp] theorem State.writeBits_resLen (a : Nat) (bs : List Bool) : (s.writeBits a bs).resLen = s.resLen := rfl
@[simp] theorem State.writeBits_resCnt (a : Nat) (bs : List Bool) : (s.writeBits a bs).resCnt = s.resCnt := rfl
@[simp] theorem State.writeBits_group (a : Nat) (bs : List Bool) : (s.writeBits a bs).group = s.group := rfl
@[simp] theorem State.writeBits_hres (a : Nat) (bs : List Bool) : (s.writeBits a bs).hres = s.hres := rfl
@[simp] theorem State.writeBits_ctLen (a : Nat) (bs : List Bool) : (s.writeBits a bs).ctLen = s.ctLen := rfl
@[simp] theorem State.writeBits_ctCw (a : Nat) (bs : List Bool) : (s.writeBits a bs).ctCw = s.ctCw := rfl
@[simp] theorem State.writeBits_freq (a : Nat) (bs : List Bool) : (s.writeBits a bs).freq = s.freq := rfl
@[simp] theorem State.writeBits_cfg (a : Nat) (bs : List Bool) : (s.writeBits a bs).cfg = s.cfg := rfl
@[simp] theorem State.writeBits_epoch (a : Nat) (bs : List Bool) : (s.writeBits a bs).epoch = s.epoch := rfl
@[simp] theorem State.writeBits_sched (a : Nat) (bs : List Bool) : (s.writeBits a bs).sched = s.sched := rfl
@[simp] theorem State.writeBits_script (a : Nat) (bs : List Bool) : (s.writeBits a bs).script = s.script := rfl
@[simp] theorem State.writeBits_answers (a : Nat) (bs : List Bool) : (s.writeBits a bs).answers = s.answers := rfl
@[simp] theorem State.writeBits_ctLenAt (a : Nat) (bs : List Bool) (y : Byte) : (s.writeBits a bs).ctLenAt y = s.ctLenAt y := rfl
@[simp] theorem State.writeBits_ctCwAt (a : Nat) (bs : List Bool) (y : Byte) (j : Nat) : (s.writeBits a bs).ctCwAt y j = s.ctCwAt y j := rfl
@[simp] theorem State.writeBits_freqAt (a : Nat) (bs : List Bool) (y : Byte) : (s.writeBits a bs).freqAt y = s.freqAt y := rfl
@[simp] theorem State.writeBits_codeword (a : Nat) (bs : List Bool) (y : Byte) : (s.writeBits a bs).codeword y = s.codeword y := rfl
@[simp] theorem State.writeBits_bufBytes (a : Nat) (bs : List Bool) : (s.writeBits a bs).bufBytes = s.bufBytes := rfl
@[simp] theorem State.writeBits_n (a : Nat) (bs : List Bool) : (s.writeBits a bs).n = s.n := rfl
@[simp] theorem State.writeBits_input (a : Nat) (bs : List Bool) : (s.writeBits a bs).input = s.input := rfl
@[simp] theorem State.writeBits_positions (a : Nat) (bs : List Bool) : (s.writeBits a bs).positions = s.positions := rfl
@[simp] theorem State.memWrite_ie (a : Nat) (m v : Nat) : (s.memWrite a m v).ie = s.ie := rfl
@[simp] theorem State.memWrite_busy (a : Nat) (m v : Nat) : (s.memWrite a m v).busy = s.busy := rfl
@[simp] theorem State.memWrite_done (a : Nat) (m v : Nat) : (s.memWrite a m v).done = s.done := rfl
@[simp] theorem State.memWrite_haz (a : Nat) (m v : Nat) : (s.memWrite a m v).haz = s.haz := rfl
@[simp] theorem State.memWrite_ecode (a : Nat) (m v : Nat) : (s.memWrite a m v).ecode = s.ecode := rfl
@[simp] theorem State.memWrite_cmd (a : Nat) (m v : Nat) : (s.memWrite a m v).cmd = s.cmd := rfl
@[simp] theorem State.memWrite_srcAddr (a : Nat) (m v : Nat) : (s.memWrite a m v).srcAddr = s.srcAddr := rfl
@[simp] theorem State.memWrite_srcLen (a : Nat) (m v : Nat) : (s.memWrite a m v).srcLen = s.srcLen := rfl
@[simp] theorem State.memWrite_dstAddr (a : Nat) (m v : Nat) : (s.memWrite a m v).dstAddr = s.dstAddr := rfl
@[simp] theorem State.memWrite_auxAddr (a : Nat) (m v : Nat) : (s.memWrite a m v).auxAddr = s.auxAddr := rfl
@[simp] theorem State.memWrite_resLen (a : Nat) (m v : Nat) : (s.memWrite a m v).resLen = s.resLen := rfl
@[simp] theorem State.memWrite_resCnt (a : Nat) (m v : Nat) : (s.memWrite a m v).resCnt = s.resCnt := rfl
@[simp] theorem State.memWrite_group (a : Nat) (m v : Nat) : (s.memWrite a m v).group = s.group := rfl
@[simp] theorem State.memWrite_hres (a : Nat) (m v : Nat) : (s.memWrite a m v).hres = s.hres := rfl
@[simp] theorem State.memWrite_ctLen (a : Nat) (m v : Nat) : (s.memWrite a m v).ctLen = s.ctLen := rfl
@[simp] theorem State.memWrite_ctCw (a : Nat) (m v : Nat) : (s.memWrite a m v).ctCw = s.ctCw := rfl
@[simp] theorem State.memWrite_freq (a : Nat) (m v : Nat) : (s.memWrite a m v).freq = s.freq := rfl
@[simp] theorem State.memWrite_cfg (a : Nat) (m v : Nat) : (s.memWrite a m v).cfg = s.cfg := rfl
@[simp] theorem State.memWrite_epoch (a : Nat) (m v : Nat) : (s.memWrite a m v).epoch = s.epoch := rfl
@[simp] theorem State.memWrite_sched (a : Nat) (m v : Nat) : (s.memWrite a m v).sched = s.sched := rfl
@[simp] theorem State.memWrite_script (a : Nat) (m v : Nat) : (s.memWrite a m v).script = s.script := rfl
@[simp] theorem State.memWrite_answers (a : Nat) (m v : Nat) : (s.memWrite a m v).answers = s.answers := rfl
@[simp] theorem State.memWrite_ctLenAt (a : Nat) (m v : Nat) (y : Byte) : (s.memWrite a m v).ctLenAt y = s.ctLenAt y := rfl
@[simp] theorem State.memWrite_ctCwAt (a : Nat) (m v : Nat) (y : Byte) (j : Nat) : (s.memWrite a m v).ctCwAt y j = s.ctCwAt y j := rfl
@[simp] theorem State.memWrite_freqAt (a : Nat) (m v : Nat) (y : Byte) : (s.memWrite a m v).freqAt y = s.freqAt y := rfl
@[simp] theorem State.memWrite_codeword (a : Nat) (m v : Nat) (y : Byte) : (s.memWrite a m v).codeword y = s.codeword y := rfl
@[simp] theorem State.memWrite_bufBytes (a : Nat) (m v : Nat) : (s.memWrite a m v).bufBytes = s.bufBytes := rfl
@[simp] theorem State.memWrite_n (a : Nat) (m v : Nat) : (s.memWrite a m v).n = s.n := rfl
@[simp] theorem State.memWrite_input (a : Nat) (m v : Nat) : (s.memWrite a m v).input = s.input := rfl
@[simp] theorem State.memWrite_positions (a : Nat) (m v : Nat) : (s.memWrite a m v).positions = s.positions := rfl

@[simp] theorem State.clearTable_ie : s.clearTable.ie = s.ie := rfl
@[simp] theorem State.clearTable_busy : s.clearTable.busy = s.busy := rfl
@[simp] theorem State.clearTable_done : s.clearTable.done = s.done := rfl
@[simp] theorem State.clearTable_haz : s.clearTable.haz = s.haz := rfl
@[simp] theorem State.clearTable_ecode : s.clearTable.ecode = s.ecode := rfl
@[simp] theorem State.clearTable_cmd : s.clearTable.cmd = s.cmd := rfl
@[simp] theorem State.clearTable_srcAddr : s.clearTable.srcAddr = s.srcAddr := rfl
@[simp] theorem State.clearTable_srcLen : s.clearTable.srcLen = s.srcLen := rfl
@[simp] theorem State.clearTable_dstAddr : s.clearTable.dstAddr = s.dstAddr := rfl
@[simp] theorem State.clearTable_auxAddr : s.clearTable.auxAddr = s.auxAddr := rfl
@[simp] theorem State.clearTable_resLen : s.clearTable.resLen = s.resLen := rfl
@[simp] theorem State.clearTable_resCnt : s.clearTable.resCnt = s.resCnt := rfl
@[simp] theorem State.clearTable_group : s.clearTable.group = s.group := rfl
@[simp] theorem State.clearTable_hres : s.clearTable.hres = s.hres := rfl
@[simp] theorem State.clearTable_buf : s.clearTable.buf = s.buf := rfl
@[simp] theorem State.clearTable_freq : s.clearTable.freq = s.freq := rfl
@[simp] theorem State.clearTable_cfg : s.clearTable.cfg = s.cfg := rfl
@[simp] theorem State.clearTable_epoch : s.clearTable.epoch = s.epoch := rfl
@[simp] theorem State.clearTable_sched : s.clearTable.sched = s.sched := rfl
@[simp] theorem State.clearTable_script : s.clearTable.script = s.script := rfl
@[simp] theorem State.clearTable_answers : s.clearTable.answers = s.answers := rfl
@[simp] theorem State.clearTable_ctLen : s.clearTable.ctLen = [] := rfl
@[simp] theorem State.clearTable_ctCw : s.clearTable.ctCw = Memory.tabulate none 2048 fun _ => 0 := by simp only [State.clearTable]
@[simp] theorem State.clearTable_bufByte (x : Nat) : s.clearTable.bufByte x = s.bufByte x := rfl
@[simp] theorem State.clearTable_freqAt (y : Byte) : s.clearTable.freqAt y = s.freqAt y := rfl
@[simp] theorem State.clearTable_ctLenAt (y : Byte) : s.clearTable.ctLenAt y = 0 := rfl
@[simp] theorem State.clearTable_bufBytes : s.clearTable.bufBytes = s.bufBytes := rfl
@[simp] theorem State.clearTable_n : s.clearTable.n = s.n := rfl

end Sys2Proof.Machine
end

