-- ==== Sys2Proof/Laws/Ops.lean ====
section
/-! SUPPORT. One lemma for each shared operation: the BUF primitives, the checks and the end of a command. -/

namespace Sys2Proof.Machine

/-! BUF primitives -/

@[simp] theorem State.readBytes_length (s : State) (a n : Nat) : (s.readBytes a n).length = n := by
  simp [State.readBytes]

theorem State.readBytes_getElem (s : State) (a n i : Nat) (h : i < (s.readBytes a n).length) :
    (s.readBytes a n)[i] = s.bufByte (a + i) := by
  simp [State.readBytes]

theorem State.readBytes_zero (s : State) (a : Nat) : s.readBytes a 0 = [] := rfl

theorem State.mem_readBytes (s : State) (a n : Nat) (b : Byte) :
    b ∈ s.readBytes a n ↔ ∃ i < n, s.bufByte (a + i) = b := by
  simp [State.readBytes]

/-- Two states whose bytes agree on a region read the same bytes there. -/
theorem State.readBytes_congr (s t : State) (a b n : Nat)
    (h : ∀ i < n, s.bufByte (a + i) = t.bufByte (b + i)) : s.readBytes a n = t.readBytes b n := by
  unfold State.readBytes
  exact List.map_congr_left fun i hi => h i (List.mem_range.1 hi)

/-- A byte inside the written bytes. -/
theorem State.bufByte_writeBytes_inside (s : State) (a : Nat) (bytes : List Byte) (i : Nat) (h : i < bytes.length) :
    (s.writeBytes a bytes).bufByte (a + i) = bytes[i] := by
  simp [State.bufByte, Memory.find_writeBytes, h]

/-- A byte outside the written bytes reads as before. -/
theorem State.bufByte_writeBytes_outside (s : State) (a : Nat) (bytes : List Byte) (x : Nat)
    (h : x < a ∨ a + bytes.length ≤ x) : (s.writeBytes a bytes).bufByte x = s.bufByte x := by
  have : ¬(a ≤ x ∧ x < a + bytes.length) := by omega
  simp [State.bufByte, Memory.find_writeBytes, this]

/-- What was written is what is read. -/
theorem State.readBytes_writeBytes (s : State) (a : Nat) (bytes : List Byte) :
    (s.writeBytes a bytes).readBytes a bytes.length = bytes := by
  apply List.ext_getElem
  · simp
  · intro i h1 h2
    rw [State.readBytes_getElem, State.bufByte_writeBytes_inside _ _ _ _ h2]

/-- A region disjoint from the written bytes reads as before. -/
theorem State.readBytes_writeBytes_disjoint (s : State) (a : Nat) (bytes : List Byte) (b n : Nat)
    (h : ¬Overlap b n a bytes.length) : (s.writeBytes a bytes).readBytes b n = s.readBytes b n := by
  refine State.readBytes_congr _ _ _ _ _ fun i hi => ?_
  by_cases hb : bytes.length = 0
  · exact State.bufByte_writeBytes_outside _ _ _ _ (by omega)
  · exact State.bufByte_writeBytes_outside _ _ _ _ (by unfold Overlap at h; omega)

@[simp] theorem leBytes_length (n v : Nat) : (leBytes n v).length = n := by
  induction n generalizing v with
  | zero => rfl
  | succ n ih => simp [leBytes, ih]

/-- Little-endian bytes hold the value's low bytes. -/
theorem leValue_leBytes (n v : Nat) : leValue (leBytes n v) = v % 256 ^ n := by
  induction n generalizing v with
  | zero => simp [leBytes, leValue, Nat.mod_one]
  | succ n ih =>
    have h256 : (BitVec.ofNat 8 v).toNat = v % 256 := by simp
    rw [leBytes, leValue, ih, h256, show 256 ^ (n + 1) = 256 * 256 ^ n from Nat.pow_succ', Nat.mod_mul]

theorem leValue_lt (bytes : List Byte) : leValue bytes < 256 ^ bytes.length := by
  induction bytes with
  | nil => simp [leValue]
  | cons b bytes ih =>
    simp only [leValue, List.length_cons, Nat.pow_succ]
    have := b.isLt
    omega

/-- The `k`-th byte of a value stored least significant first (spec/20_memory.md R72). -/
theorem leBytes_getElem (n v k : Nat) (h : k < (leBytes n v).length) : (leBytes n v)[k] = BitVec.ofNat 8 (v / 256 ^ k) := by
  induction n generalizing v k with
  | zero => simp [leBytes] at h
  | succ n ih =>
    cases k with
    | zero => simp [leBytes]
    | succ k =>
      simp only [leBytes, List.getElem_cons_succ]
      rw [ih, Nat.pow_succ', ← Nat.div_div_eq_div_mul]

/-- The bytes of a value read least significant first (spec/20_memory.md R72). -/
theorem ofNat_leValue_div (bytes : List Byte) (k : Nat) (h : k < bytes.length) :
    BitVec.ofNat 8 (leValue bytes / 256 ^ k) = bytes[k] := by
  induction bytes generalizing k with
  | nil => simp at h
  | cons b bytes ih =>
    have := b.isLt
    cases k with
    | zero => apply BitVec.eq_of_toNat_eq; simp [leValue]; omega
    | succ k =>
      rw [leValue, Nat.pow_succ', ← Nat.div_div_eq_div_mul]
      rw [show (b.toNat + 256 * leValue bytes) / 256 = leValue bytes by omega]
      simpa using ih k (by simpa using h)

/-- A field with zeros above it has the field's value. -/
theorem zeros_append (n w : Nat) (x : BitVec w) : (0#n ++ x).toNat = x.toNat := by
  simp [BitVec.toNat_append]

/-- A word written at BUF offset `a` is read back. -/
theorem State.memRead_memWrite (s : State) (a n v : Nat) (h : v < 256 ^ n) :
    (s.memWrite a n v).memRead a n = v := by
  have := State.readBytes_writeBytes s a (leBytes n v)
  rw [leBytes_length] at this
  rw [State.memRead, State.memWrite, this, leValue_leBytes, Nat.mod_eq_of_lt h]

/-! Bit arrays -/

@[simp] theorem bitOfByte_byteOfBit (b : Bool) : bitOfByte (byteOfBit b) = some b := by
  cases b <;> rfl

theorem bitOfByte_eq_some (b : Byte) (x : Bool) : bitOfByte b = some x ↔ b = byteOfBit x := by
  unfold bitOfByte
  by_cases h0 : b = 0
  · subst h0; cases x <;> simp [byteOfBit]
  · by_cases h1 : b = 1
    · subst h1; cases x <;> simp [byteOfBit]
    · rw [if_neg h0, if_neg h1]; cases x <;> simp [byteOfBit] <;> assumption

theorem byteOfBit_injective : Function.Injective byteOfBit := by
  intro a b h; cases a <;> cases b <;> simp_all [byteOfBit]

theorem byteOfBit_isBit (b : Bool) : byteOfBit b = 0 ∨ byteOfBit b = 1 := by cases b <;> simp [byteOfBit]

@[simp] theorem byteOfBit_beq_one (b : Bool) : (byteOfBit b == 1#8) = b := by cases b <;> rfl

theorem byteOfBit_bitAt (s : State) (a : Nat) (h : s.IsBit a) : byteOfBit (s.bitAt a) = s.bufByte a := by
  unfold State.bitAt
  rcases h with h | h <;> simp [h, byteOfBit]

/-- A bit array is exactly the bytes of its bits. -/
theorem bitsOfBytes_eq_some (bytes : List Byte) (bits : List Bool) :
    bitsOfBytes bytes = some bits ↔ bytes = bits.map byteOfBit := by
  induction bytes generalizing bits with
  | nil => cases bits <;> simp [bitsOfBytes]
  | cons b bytes ih =>
    cases bits with
    | nil =>
      simp only [bitsOfBytes, List.map_nil]
      constructor
      · intro h; split at h <;> simp at h
      · intro h; simp at h
    | cons x xs =>
      simp only [bitsOfBytes, List.map_cons, List.cons.injEq]
      rw [← ih xs, ← bitOfByte_eq_some]
      cases bitOfByte b <;> cases bitsOfBytes bytes <;> simp

theorem bitsOfBytes_eq_none (bytes : List Byte) :
    bitsOfBytes bytes = none ↔ ∃ b ∈ bytes, b ≠ 0 ∧ b ≠ 1 := by
  induction bytes with
  | nil => simp [bitsOfBytes]
  | cons b bytes ih =>
    have hb : bitOfByte b = none ↔ b ≠ 0 ∧ b ≠ 1 := by
      unfold bitOfByte
      by_cases h0 : b = 0
      · simp [h0]
      · by_cases h1 : b = 1
        · simp [h1]
        · rw [if_neg h0, if_neg h1]; exact ⟨fun _ => ⟨h0, h1⟩, fun _ => rfl⟩
    simp only [bitsOfBytes, List.mem_cons, exists_eq_or_imp, ← ih, ← hb]
    cases bitOfByte b <;> cases bitsOfBytes bytes <;> simp

/-- The bits of a region whose bytes are all bits. -/
def State.bitsAt (s : State) (a n : Nat) : List Bool := (List.range n).map fun i => s.bitAt (a + i)

@[simp] theorem State.bitsAt_length (s : State) (a n : Nat) : (s.bitsAt a n).length = n := by simp [State.bitsAt]

theorem State.bitsAt_getElem (s : State) (a n i : Nat) (h : i < (s.bitsAt a n).length) :
    (s.bitsAt a n)[i] = s.bitAt (a + i) := by simp [State.bitsAt]

theorem State.readBits_eq (s : State) (a n : Nat) (h : ∀ i < n, s.IsBit (a + i)) :
    s.readBits a n = some (s.bitsAt a n) := by
  rw [State.readBits, bitsOfBytes_eq_some]
  apply List.ext_getElem
  · simp
  · intro i h1 h2
    rw [State.readBytes_getElem, List.getElem_map, State.bitsAt_getElem]
    exact (byteOfBit_bitAt s _ (h i (by simpa using h1))).symm

theorem State.readBits_none (s : State) (a n : Nat) :
    s.readBits a n = none ↔ ∃ i < n, ¬s.IsBit (a + i) := by
  rw [State.readBits, bitsOfBytes_eq_none]
  constructor
  · rintro ⟨b, hb, h⟩
    obtain ⟨i, hi, rfl⟩ := (State.mem_readBytes s a n b).1 hb
    exact ⟨i, hi, by simpa [not_or] using h⟩
  · rintro ⟨i, hi, h⟩
    exact ⟨_, (State.mem_readBytes s a n _).2 ⟨i, hi, rfl⟩, by simpa [not_or] using h⟩

/-- After a write of bits: the bit inside. -/
theorem State.bufByte_writeBits_inside (s : State) (a : Nat) (bits : List Bool) (i : Nat) (h : i < bits.length) :
    (s.writeBits a bits).bufByte (a + i) = byteOfBit bits[i] := by
  unfold State.writeBits
  rw [State.bufByte_writeBytes_inside _ _ _ _ (by simpa using h), List.getElem_map]

/-- After a write of bits: the bytes outside. -/
theorem State.bufByte_writeBits_outside (s : State) (a : Nat) (bits : List Bool) (x : Nat)
    (h : x < a ∨ a + bits.length ≤ x) : (s.writeBits a bits).bufByte x = s.bufByte x :=
  State.bufByte_writeBytes_outside _ _ _ _ (by simpa using h)

/-! The region predicates -/

theorem Region.inRange_iff (r : Region) (size : Nat) : r.inRange size = true ↔ InRange r.addr r.len size := by
  simp [Region.inRange, InRange]

theorem Region.overlaps_iff (r t : Region) : r.overlaps t = true ↔ Overlap r.addr r.len t.addr t.len := by
  simp [Region.overlaps, Overlap, and_assoc]

/-! The checks -/

theorem check_passed (e : ErrorCode) (s : State) (rest : Unit → CommandEnd) (b : Bool) (h : b = true) :
    check b e s rest = rest () := by simp [check, h]

theorem check_failed (e : ErrorCode) (s : State) (rest : Unit → CommandEnd) (b : Bool) (h : b = false) :
    check b e s rest = raise e s := by simp [check, h]

/-- An error raised before any output leaves exactly `emptyEnd`, with its code. -/
@[simp] theorem raise_finish (e : ErrorCode) (s : State) : (raise e s).finish = s.emptyEnd e.code := rfl

/-- A property of how a command ends that an error and everything after the check has. -/
theorem check_cases {P : CommandEnd → Prop} (b : Bool) (e : ErrorCode) (s : State) (rest : Unit → CommandEnd)
    (hfail : P (raise e s)) (hrest : b = true → P (rest ())) : P (check b e s rest) := by
  unfold check; split
  · exact hrest ‹_›
  · exact hfail

/-- The three input checks of a bit-array command all pass. -/
theorem withInputBits_passed (strict : Bool) (size : Nat) (s : State) (rest : List Bool → CommandEnd)
    (h : s.BitInput strict size) :
    withInputBits strict size s rest = rest (s.bitsAt s.srcAddr.toNat s.n) := by
  unfold withInputBits
  rw [check_passed _ _ _ _ ((Region.inRange_iff _ _).2 h.inRange), check_passed]
  · rw [State.inputBits, State.readBits_eq _ _ _ h.bits]
  · cases strict
    · rfl
    · simp [h.whole rfl]

/-- Check step 2 fails. -/
theorem withInputBits_range (strict : Bool) (size : Nat) (s : State) (rest : List Bool → CommandEnd)
    (h : ¬s.InputInRange) : withInputBits strict size s rest = raise .range s := by
  unfold withInputBits
  exact check_failed _ _ _ _ (by rw [← Bool.not_eq_true, Region.inRange_iff]; exact h)

/-- Check step 3 fails. -/
theorem withInputBits_malformed (size : Nat) (s : State) (rest : List Bool → CommandEnd)
    (h : s.InputInRange) (hn : s.n % size ≠ 0) : withInputBits true size s rest = raise .malformed s := by
  unfold withInputBits
  rw [check_passed _ _ _ _ ((Region.inRange_iff _ _).2 h)]
  exact check_failed _ _ _ _ (by simp [hn])

/-- Check step 4 fails. -/
theorem withInputBits_bitRange (strict : Bool) (size : Nat) (s : State) (rest : List Bool → CommandEnd)
    (h : s.InputInRange) (hn : strict = true → s.n % size = 0) (hb : ∃ i < s.n, ¬s.IsBit (s.srcAddr.toNat + i)) :
    withInputBits strict size s rest = raise .bitRange s := by
  unfold withInputBits
  rw [check_passed _ _ _ _ ((Region.inRange_iff _ _).2 h), check_passed]
  · rw [State.inputBits, (State.readBits_none _ _ _).2 hb]
  · cases strict
    · rfl
    · simp [hn rfl]

/-- Everything `withInputBits` can do. -/
theorem withInputBits_cases {P : CommandEnd → Prop} (strict : Bool) (size : Nat) (s : State)
    (rest : List Bool → CommandEnd)
    (hrange : ¬s.InputInRange → P (raise .range s)) (hmal : P (raise .malformed s)) (hbit : P (raise .bitRange s))
    (hrest : s.BitInput strict size → P (rest (s.bitsAt s.srcAddr.toNat s.n))) :
    P (withInputBits strict size s rest) := by
  by_cases h : s.InputInRange
  · by_cases hn : strict = true → s.n % size = 0
    · by_cases hb : ∀ i < s.n, s.IsBit (s.srcAddr.toNat + i)
      · rw [withInputBits_passed _ _ _ _ ⟨h, hn, hb⟩]; exact hrest ⟨h, hn, hb⟩
      · rw [withInputBits_bitRange _ _ _ _ h hn (by simpa only [not_forall, exists_prop] using hb)]; exact hbit
    · have hs : strict = true := by simp at hn; exact hn.1
      subst hs
      rw [withInputBits_malformed _ _ _ h (by simpa using hn)]; exact hmal
  · rw [withInputBits_range _ _ _ _ h]; exact hrange h

/-- The two output checks pass. -/
theorem withOutput_passed (len : Nat) (s : State) (rest : Unit → CommandEnd) (h : s.OutputFits len) :
    withOutput len s rest = rest () := by
  unfold withOutput
  rw [check_passed _ _ _ _ ((Region.inRange_iff _ _).2 h.inRange), check_passed]
  rw [Bool.not_eq_true', ← Bool.not_eq_true, Region.overlaps_iff]
  exact h.disjoint

/-- Check step 6 fails. -/
theorem withOutput_range (len : Nat) (s : State) (rest : Unit → CommandEnd)
    (h : ¬InRange s.dstAddr.toNat len s.bufBytes) : withOutput len s rest = raise .range s := by
  unfold withOutput
  exact check_failed _ _ _ _ (by rw [← Bool.not_eq_true, Region.inRange_iff]; exact h)

/-- Check step 7 fails. -/
theorem withOutput_overlap (len : Nat) (s : State) (rest : Unit → CommandEnd)
    (h : InRange s.dstAddr.toNat len s.bufBytes) (ho : Overlap s.srcAddr.toNat s.n s.dstAddr.toNat len) :
    withOutput len s rest = raise .overlap s := by
  unfold withOutput
  rw [check_passed _ _ _ _ ((Region.inRange_iff _ _).2 h)]
  refine check_failed _ _ _ _ ?_
  rw [Bool.not_eq_false', Region.overlaps_iff]
  exact ho

/-- Everything `withOutput` can do. -/
theorem withOutput_cases {P : CommandEnd → Prop} (len : Nat) (s : State) (rest : Unit → CommandEnd)
    (hrange : P (raise .range s)) (hover : P (raise .overlap s)) (hrest : s.OutputFits len → P (rest ())) :
    P (withOutput len s rest) := by
  by_cases h : InRange s.dstAddr.toNat len s.bufBytes
  · by_cases ho : Overlap s.srcAddr.toNat s.n s.dstAddr.toNat len
    · rw [withOutput_overlap _ _ _ h ho]; exact hover
    · rw [withOutput_passed _ _ _ ⟨h, ho⟩]; exact hrest ⟨h, ho⟩
  · rw [withOutput_range _ _ _ h]; exact hrange

/-! Sizes -/

theorem State.bufBytes_ge (s : State) : 4096 ≤ s.bufBytes := by
  have := Nat.pow_le_pow_right (n := 2) (by omega) s.cfg.bufLog2_ge
  simpa [State.bufBytes] using this

theorem State.bufBytes_le (s : State) : s.bufBytes ≤ 1048576 := by
  have := Nat.pow_le_pow_right (n := 2) (by omega) s.cfg.bufLog2_le
  simpa [State.bufBytes] using this

/-- A result count that fits BUF is recorded exactly (spec/00_scope.md R17). -/
theorem State.toNat_count (s : State) (k : Nat) (h : k ≤ s.bufBytes) : (BitVec.ofNat 32 k).toNat = k := by
  have := s.bufBytes_le
  simp only [BitVec.toNat_ofNat]
  omega

end Sys2Proof.Machine
end

