-- ==== Sys2Proof/Laws/Bits.lean ====
section
/-! SUPPORT. Laws of the group and chunk functions: their lengths, and their elements by index. -/

namespace Sys2Proof.Machine

/-- Element `k * j + i` of a concatenation of chunks of length `k` is element `i` of chunk `j`. -/
theorem getElem?_flatMap_chunks {α β : Type} (k : Nat) (g : α → List β) (xs : List α)
    (hg : ∀ x ∈ xs, (g x).length = k) (j i : Nat) (hi : i < k) :
    (xs.flatMap g)[k * j + i]? = (xs[j]?).bind fun x => (g x)[i]? := by
  induction xs generalizing j with
  | nil => simp
  | cons x xs ih =>
    have hx : (g x).length = k := hg x List.mem_cons_self
    rw [List.flatMap_cons]
    cases j with
    | zero =>
      rw [List.getElem?_append_left (by omega)]; simp
    | succ j =>
      have : k * (j + 1) + i = k + (k * j + i) := by rw [Nat.mul_add]; omega
      rw [this, List.getElem?_append_right (by omega), hx, Nat.add_sub_cancel_left,
        ih (fun y hy => hg y (List.mem_cons_of_mem _ hy))]
      simp

theorem length_flatMap_chunks {α β : Type} (k : Nat) (g : α → List β) (xs : List α)
    (hg : ∀ x ∈ xs, (g x).length = k) : (xs.flatMap g).length = k * xs.length := by
  induction xs with
  | nil => simp
  | cons x xs ih =>
    simp [hg x, ih fun y hy => hg y (List.mem_cons_of_mem _ hy), Nat.mul_add, Nat.add_comm]

/-- The groups of a bit stream given by index (spec/41_hamming.md R148). -/
theorem groupsOf7_range (n : Nat) (f : Nat → Bool) :
    groupsOf7 ((List.range n).map f) = (List.range (n / 7)).map fun j =>
      ⟨f (7 * j), f (7 * j + 1), f (7 * j + 2), f (7 * j + 3), f (7 * j + 4), f (7 * j + 5), f (7 * j + 6)⟩ := by
  induction n using Nat.strong_induction_on generalizing f with
  | _ n ih =>
    by_cases h : n < 7
    · rw [Nat.div_eq_of_lt h]
      interval_cases n <;> rfl
    · obtain ⟨m, rfl⟩ : ∃ m, n = 7 + m := ⟨n - 7, by omega⟩
      have hdiv : (7 + m) / 7 = 1 + m / 7 := by omega
      rw [List.range_add, hdiv, List.range_add, List.map_append, List.map_append, List.map_map, List.map_map]
      have h7 : (List.range 7).map f = [f 0, f 1, f 2, f 3, f 4, f 5, f 6] := rfl
      rw [h7]
      simp only [List.cons_append, List.nil_append, groupsOf7]
      rw [ih m (by omega)]
      simp only [List.range_one, List.map_cons, List.map_nil, List.cons_append, List.nil_append]
      congr 1
      apply List.map_congr_left
      intro j _
      simp only [Function.comp]
      have e : 7 * (1 + j) = 7 + 7 * j := by omega
      simp only [e, Nat.add_assoc]

/-- The encoded stream of data bits given by index (spec/41_hamming.md R152). -/
theorem encodedBits_range (n : Nat) (f : Nat → Bool) :
    encodedBits ((List.range n).map f) = (List.range (n / 4)).flatMap fun j =>
      (encode4 (f (4 * j)) (f (4 * j + 1)) (f (4 * j + 2)) (f (4 * j + 3))).toList := by
  induction n using Nat.strong_induction_on generalizing f with
  | _ n ih =>
    by_cases h : n < 4
    · rw [Nat.div_eq_of_lt h]
      interval_cases n <;> rfl
    · obtain ⟨m, rfl⟩ : ∃ m, n = 4 + m := ⟨n - 4, by omega⟩
      have hdiv : (4 + m) / 4 = 1 + m / 4 := by omega
      rw [List.range_add, hdiv, List.range_add, List.map_append, List.flatMap_append, List.map_map]
      have h4 : (List.range 4).map f = [f 0, f 1, f 2, f 3] := rfl
      rw [h4]
      simp only [List.cons_append, List.nil_append, encodedBits]
      rw [ih m (by omega), List.flatMap_map]
      have : (List.range 1) = [0] := rfl
      rw [this, List.flatMap_singleton]
      congr 1
      congr 1
      funext j
      simp only [Function.comp]
      have e : 4 * (1 + j) = 4 + 4 * j := by omega
      simp only [e, Nat.add_assoc]

/-- The packed bytes of a bit stream given by index (spec/42_bitpack.md R171). -/
theorem packedBytes_range (n : Nat) (f : Nat → Bool) :
    packedBytes ((List.range n).map f) = (List.range (n / 8)).map fun j =>
      pack8 (f (8 * j)) (f (8 * j + 1)) (f (8 * j + 2)) (f (8 * j + 3)) (f (8 * j + 4)) (f (8 * j + 5)) (f (8 * j + 6))
        (f (8 * j + 7)) := by
  induction n using Nat.strong_induction_on generalizing f with
  | _ n ih =>
    by_cases h : n < 8
    · rw [Nat.div_eq_of_lt h]
      interval_cases n <;> rfl
    · obtain ⟨m, rfl⟩ : ∃ m, n = 8 + m := ⟨n - 8, by omega⟩
      have hdiv : (8 + m) / 8 = 1 + m / 8 := by omega
      rw [List.range_add, hdiv, List.range_add, List.map_append, List.map_append, List.map_map, List.map_map]
      have h8 : (List.range 8).map f = [f 0, f 1, f 2, f 3, f 4, f 5, f 6, f 7] := rfl
      rw [h8]
      simp only [List.cons_append, List.nil_append, packedBytes]
      rw [ih m (by omega)]
      simp only [List.range_one, List.map_cons, List.map_nil, List.cons_append, List.nil_append]
      congr 1
      apply List.map_congr_left
      intro j _
      simp only [Function.comp]
      have e : 8 * (1 + j) = 8 + 8 * j := by omega
      simp only [e, Nat.add_assoc]

/-- Any list is its elements by index. -/
theorem eq_map_range {α : Type} (xs : List α) (d : α) : xs = (List.range xs.length).map fun i => xs.getD i d := by
  apply List.ext_getElem
  · simp
  · intro i h1 h2; simp [List.getD, h1]

@[simp] theorem BitGroup.toList_length (c : BitGroup) : c.toList.length = 7 := rfl

theorem groupsOf7_length (bits : List Bool) : (groupsOf7 bits).length = bits.length / 7 := by
  rw [eq_map_range bits false, groupsOf7_range]; simp

theorem encodedBits_length (bits : List Bool) : (encodedBits bits).length = 7 * (bits.length / 4) := by
  rw [eq_map_range bits false, encodedBits_range, length_flatMap_chunks 7 _ _ fun _ _ => rfl]; simp

theorem packedBytes_length (bits : List Bool) : (packedBytes bits).length = bits.length / 8 := by
  rw [eq_map_range bits false, packedBytes_range]; simp

theorem correctedBits_length (groups : List BitGroup) : (correctedBits groups).length = 7 * groups.length :=
  length_flatMap_chunks 7 _ _ fun _ _ => rfl

theorem strippedBits_length (groups : List BitGroup) : (strippedBits groups).length = 4 * groups.length :=
  length_flatMap_chunks 4 _ _ fun _ _ => rfl

@[simp] theorem unpack8_length (x : Byte) : (unpack8 x).length = 8 := rfl

theorem unpackedBits_length (bytes : List Byte) : (bytes.flatMap unpack8).length = 8 * bytes.length :=
  length_flatMap_chunks 8 _ _ fun _ _ => rfl

theorem positionBytes_length (positions : List Nat) : (positionBytes positions).length = 4 * positions.length :=
  length_flatMap_chunks 4 _ _ fun _ _ => leBytes_length _ _

/-- A group yields at most one position (spec/41_hamming.md R149). -/
theorem flippedPositions_length_le (j : Nat) (groups : List BitGroup) :
    (flippedPositions j groups).length ≤ groups.length := by
  induction groups generalizing j with
  | nil => simp [flippedPositions]
  | cons c groups ih =>
    have := ih (j + 1)
    simp only [flippedPositions]
    split <;> simp <;> omega

/-- The positions of groups given by index (spec/41_hamming.md R149). -/
theorem flippedPositions_range (g j : Nat) (f : Nat → BitGroup) :
    flippedPositions j ((List.range g).map f) = (List.range g).filterMap fun k =>
      if (f k).syn = 0 then none else some (7 * (j + k) + (f k).syn - 1) := by
  induction g generalizing j f with
  | zero => rfl
  | succ g ih =>
    rw [List.range_succ_eq_map, List.map_cons, List.map_map, List.filterMap_cons, List.filterMap_map]
    simp only [flippedPositions]
    rw [ih]
    have e : ∀ k, j + 1 + k = j + (k + 1) := by intro k; omega
    split <;> simp [*]

/-- The syndrome is 0 to 4 (spec/41_hamming.md R143). -/
theorem BitGroup.syn_le (c : BitGroup) : c.syn ≤ 4 := by
  unfold BitGroup.syn
  cases c.m1 <;> cases c.m2 <;> cases c.m3 <;> decide

/-- `unpack8` reads back what `pack8` packs (spec/42_bitpack.md R170). -/
theorem unpack8_pack8 (b0 b1 b2 b3 b4 b5 b6 b7 : Bool) :
    unpack8 (pack8 b0 b1 b2 b3 b4 b5 b6 b7) = [b0, b1, b2, b3, b4, b5, b6, b7] := by
  revert b0 b1 b2 b3 b4 b5 b6 b7; decide

/-- `pack8` packs what `unpack8` reads (spec/42_bitpack.md R170). -/
theorem pack8_unpack8 (x : Byte) :
    pack8 (x.getLsbD 7) (x.getLsbD 6) (x.getLsbD 5) (x.getLsbD 4) (x.getLsbD 3) (x.getLsbD 2) (x.getLsbD 1)
      (x.getLsbD 0) = x := by
  apply BitVec.eq_of_getLsbD_eq
  intro i hi
  generalize ha : x.getLsbD 7 = b0
  generalize hb : x.getLsbD 6 = b1
  generalize hc : x.getLsbD 5 = b2
  generalize hd : x.getLsbD 4 = b3
  generalize he : x.getLsbD 3 = b4
  generalize hf : x.getLsbD 2 = b5
  generalize hg : x.getLsbD 1 = b6
  generalize hh : x.getLsbD 0 = b7
  have h := unpack8_pack8 b0 b1 b2 b3 b4 b5 b6 b7
  simp only [unpack8, List.cons.injEq] at h
  interval_cases i <;> simp_all

/-- A codeword has no syndrome (spec/41_hamming.md R147). -/
theorem encode4_syn (d1 d2 d3 d4 : Bool) : (encode4 d1 d2 d3 d4).syn = 0 := by
  revert d1 d2 d3 d4; decide

theorem BitGroup.corrected_of_syn_zero (c : BitGroup) (h : c.syn = 0) : c.corrected = c := by
  simp [BitGroup.corrected, h]

/-- The group that seven bit bytes in BUF hold (spec/00_scope.md R15). -/
theorem State.groupAt_eq (t : State) (a : Nat) (g : BitGroup)
    (h : ∀ k < 7, g.toList[k]? = some (t.bitAt (a + k))) : t.groupAt a = g := by
  have h0 := h 0 (by omega)
  have h1 := h 1 (by omega)
  have h2 := h 2 (by omega)
  have h3 := h 3 (by omega)
  have h4 := h 4 (by omega)
  have h5 := h 5 (by omega)
  have h6 := h 6 (by omega)
  simp [BitGroup.toList] at h0 h1 h2 h3 h4 h5 h6
  simp [State.groupAt, ← h0, ← h1, ← h2, ← h3, ← h4, ← h5, ← h6]

/-- The groups of a bit array in BUF. -/
theorem groupsOf7_bitsAt (s : State) (a n : Nat) :
    groupsOf7 (s.bitsAt a n) = (List.range (n / 7)).map fun j => s.groupAt (a + 7 * j) := by
  rw [State.bitsAt, groupsOf7_range]; rfl

end Sys2Proof.Machine
end

