-- ==== Sys2Proof/Laws/Decode.lean ====
section
/-! SUPPORT. Laws of the command word: its fields recombine to it, and what each opcode row decodes to. -/

namespace Sys2Proof

/-- A word is its three fields side by side (spec/30_encoding.md R90). -/
theorem fieldsOf_recombine (w : Word) :
    w.toNat = (fieldsOf w).op.toNat + 256 * (fieldsOf w).s.toNat + 512 * (fieldsOf w).rsv.toNat := by
  have hs : (w.getLsbD 8).toNat = w.toNat / 256 % 2 := by
    simp [BitVec.getLsbD, Nat.testBit, Nat.shiftRight_eq_div_pow]
    rcases Nat.mod_two_eq_zero_or_one (w.toNat / 256) with h | h <;> simp [h]
  simp only [fieldsOf, BitVec.extractLsb'_toNat, hs, Nat.shiftRight_eq_div_pow]
  have := w.isLt
  omega

/-- The word with operation code `op`, strict bit `strict` and RSV 0. -/
theorem eq_of_fieldsOf (w : Word) (hr : (fieldsOf w).rsv = 0) :
    w = BitVec.ofNat 32 ((fieldsOf w).op.toNat + 256 * (fieldsOf w).s.toNat) := by
  have := fieldsOf_recombine w
  rw [hr] at this
  apply BitVec.eq_of_toNat_eq
  rw [BitVec.toNat_ofNat, Nat.mod_eq_of_lt]
  · simpa using this
  · have := w.isLt; simp at *; omega

/-- Decoding an encoded command gives it back. -/
theorem decode_encode (i : Instr) : decode (encode i) = .ok i := by
  cases i <;> first
    | rfl
    | (rename_i strict; cases strict <;> rfl)

/-- What decodes to a command: its row's operation code, RSV 0, and S where the row allows it. -/
theorem decode_eq_ok (w : Word) (i : Instr) : decode w = .ok i ↔
    ∃ row, opcodeRow (fieldsOf w).op.toNat = some row ∧ (fieldsOf w).rsv = 0 ∧ rowInstr row (fieldsOf w).s = .ok i := by
  unfold decode
  constructor
  · intro h
    split at h
    · simp at h
    · split at h
      · exact ⟨_, ‹_›, ‹_›, h⟩
      · simp at h
  · rintro ⟨row, h1, h2, h3⟩
    simp [h1, h2, h3]

/-- The opcode map, inverted: the operation code of each row. -/
theorem opcodeRow_eq_some (op : Nat) (row : Instr ⊕ (Bool → Instr)) (h : opcodeRow op = some row) :
    (op = 0x00 ∧ row = .inl .nop) ∨ (op = 0x01 ∧ row = .inl .hSynd) ∨ (op = 0x02 ∧ row = .inr .hCorrect) ∨
    (op = 0x03 ∧ row = .inr .hEncode) ∨ (op = 0x04 ∧ row = .inr .hStrip) ∨ (op = 0x05 ∧ row = .inr .bPack) ∨
    (op = 0x06 ∧ row = .inl .bUnpack) ∨ (op = 0x10 ∧ row = .inl .hufBuild) ∨ (op = 0x11 ∧ row = .inl .hufEncode) ∨
    (op = 0x12 ∧ row = .inl .hufDecode) ∨ (op = 0x13 ∧ row = .inl .hufClear) := by
  unfold opcodeRow at h
  split at h <;> simp_all

end Sys2Proof
end

