-- ==== Sys2Proof/Laws/Huffman.lean ====
section
/-! SUPPORT. Laws of the Huffman engine: extracting the least entry, the tree, the codes, the table written from them,
and the decode loop. -/

namespace Sys2Proof.Machine

/-! The symbols -/

theorem symbols_getElem (i : Nat) (h : i < symbols.length) : symbols[i] = BitVec.ofNat 8 i := by simp [symbols]

@[simp] theorem symbols_length : symbols.length = 256 := by simp [symbols]

theorem mem_symbols (c : Byte) : c ∈ symbols := by
  simp only [symbols, List.mem_map, List.mem_range]
  exact ⟨c.toNat, c.isLt, by simp⟩

theorem symbols_nodup : symbols.Nodup := by
  unfold symbols
  refine List.Nodup.map_on ?_ List.nodup_range
  intro a ha b hb h
  have := congrArg BitVec.toNat h
  simp only [BitVec.toNat_ofNat, List.mem_range] at this ha hb
  omega

/-! The priority structure -/

theorem QueueEntry.before_iff (x y : QueueEntry) :
    x.before y = true ↔ x.node.freq < y.node.freq ∨ (x.node.freq = y.node.freq ∧ x.id < y.id) := by
  simp [QueueEntry.before]

theorem extractMin_none (q : List QueueEntry) : extractMin q = none ↔ q = [] := by
  cases q with
  | nil => simp [extractMin]
  | cons x q =>
    simp only [extractMin]
    split
    · simp
    · split <;> simp

/-- What `extractMin` returns: the other entries, and the least one. -/
theorem extractMin_some (q : List QueueEntry) (x : QueueEntry) (rest : List QueueEntry)
    (h : extractMin q = some (x, rest)) : q.Perm (x :: rest) ∧ IsLeast x q := by
  induction q generalizing x rest with
  | nil => simp [extractMin] at h
  | cons z q ih =>
    simp only [extractMin] at h
    split at h
    · rename_i hn
      obtain ⟨rfl, rfl⟩ : z = x ∧ [] = rest := by simpa using h
      rw [(extractMin_none q).1 hn]
      exact ⟨List.Perm.refl _, by simp, by intro y hy; simp at hy; subst hy; omega⟩
    · rename_i y r hy
      obtain ⟨hp, hmem, hle⟩ := ih y r hy
      split at h
      · rename_i hb
        obtain ⟨rfl, rfl⟩ : z = x ∧ q = rest := by simpa using h
        refine ⟨List.Perm.refl _, by simp, fun w hw => ?_⟩
        rw [QueueEntry.before_iff] at hb
        rcases List.mem_cons.1 hw with rfl | hw
        · omega
        · have := hle w hw; omega
      · rename_i hb
        obtain ⟨rfl, rfl⟩ : y = x ∧ z :: r = rest := by simpa using h
        rw [QueueEntry.before_iff] at hb
        refine ⟨(hp.cons z).trans (List.Perm.swap _ _ _), List.mem_cons_of_mem _ hmem, fun w hw => ?_⟩
        rcases List.mem_cons.1 hw with rfl | hw
        · omega
        · exact hle w hw

theorem enqueue_length (id : Nat) (xs : List HuffmanNode) : (enqueue id xs).length = xs.length := by
  induction xs generalizing id with
  | nil => rfl
  | cons x xs ih => simp [enqueue, ih]

theorem enqueue_nodes (id : Nat) (xs : List HuffmanNode) : (enqueue id xs).map (·.node) = xs := by
  induction xs generalizing id with
  | nil => rfl
  | cons x xs ih => simp [enqueue, ih]

/-- The merge loop follows R192's procedure to its end. -/
theorem mergeNodes_mergesTo (fuel id : Nat) (q : List QueueEntry) (hq : q.length = fuel) (hpos : 0 < fuel) :
    ∃ root, mergeNodes fuel id q = some root ∧ MergesTo q id root := by
  induction fuel generalizing id q with
  | zero => omega
  | succ fuel ih =>
    simp only [mergeNodes]
    cases h1 : extractMin q with
    | none => rw [(extractMin_none q).1 h1] at hq; simp at hq
    | some p =>
      obtain ⟨x, q1⟩ := p
      obtain ⟨hp1, hl1⟩ := extractMin_some _ _ _ h1
      have hlen1 := hp1.length_eq
      simp only
      cases h2 : extractMin q1 with
      | none =>
        have := (extractMin_none q1).1 h2
        subst this
        have hqx : q = [x] := by simpa using hp1
        subst hqx
        exact ⟨x.node, rfl, MergesTo.root x id⟩
      | some p =>
        obtain ⟨y, q2⟩ := p
        obtain ⟨hp2, hl2⟩ := extractMin_some _ _ _ h2
        have hlen2 := hp2.length_eq
        simp only [List.length_cons] at hlen1 hlen2
        obtain ⟨root, hr, hm⟩ := ih (id + 1)
          (⟨.internal x.node y.node (x.node.freq + y.node.freq), id⟩ :: q2) (by simp; omega) (by omega)
        exact ⟨root, hr, MergesTo.merge q q2 x y id root (hp1.trans (hp2.cons x)) hl1
          ⟨by simp, fun w hw => hl2.2 w (hp2.mem_iff.2 hw)⟩ hm⟩

/-! The tree -/

/-- The symbols of a tree's leaves, from left to right. -/
def HuffmanNode.leafSymbols : HuffmanNode → List Byte
  | .leaf c _ => [c]
  | .internal l r _ => l.leafSymbols ++ r.leafSymbols

/-- The tree has an internal root. -/
def HuffmanNode.isInternal : HuffmanNode → Bool
  | .leaf _ _ => false
  | .internal _ _ _ => true

theorem MergesTo.leafSymbols {q : List QueueEntry} {id : Nat} {root : HuffmanNode} (h : MergesTo q id root) :
    root.leafSymbols.Perm (q.flatMap fun x => x.node.leafSymbols) := by
  induction h with
  | root x id => simp
  | merge q rest x y id root hq hx hy hrest ih =>
    refine ih.trans ?_
    refine List.Perm.trans ?_ (hq.flatMap_right _).symm
    simp [HuffmanNode.leafSymbols]

theorem MergesTo.freq {q : List QueueEntry} {id : Nat} {root : HuffmanNode} (h : MergesTo q id root) :
    root.freq = (q.map fun x => x.node.freq).sum := by
  induction h with
  | root x id => simp
  | merge q rest x y id root hq hx hy hrest ih =>
    rw [ih, (hq.map _).sum_eq]
    simp [HuffmanNode.freq, Nat.add_assoc]

theorem MergesTo.single {x : QueueEntry} {id : Nat} {root : HuffmanNode} (h : MergesTo [x] id root) :
    root = x.node := by
  cases h with
  | root => rfl
  | merge =>
    have hq := (by assumption : List.Perm [x] _)
    have := hq.length_eq
    simp at this

theorem MergesTo.internal {q : List QueueEntry} {id : Nat} {root : HuffmanNode} (h : MergesTo q id root)
    (hq : 2 ≤ q.length ∨ ∃ x ∈ q, x.node.isInternal = true) : root.isInternal = true := by
  induction h with
  | root x id =>
    rcases hq with h | ⟨y, hy, h⟩
    · simp at h
    · simp at hy; subst hy; exact h
  | merge q rest x y id root _ _ _ _ ih => exact ih (.inr ⟨_, List.mem_cons_self, rfl⟩)

/-- The leaves of a text, as R192 lists them. -/
theorem leaves_eq (text : List Byte) :
    leaves text = (symbols.filter fun c => decide (c ∈ text)).map fun c => HuffmanNode.leaf c (text.count c) := by
  unfold leaves
  generalize symbols = xs
  induction xs with
  | nil => rfl
  | cons c xs ih =>
    rw [List.filterMap_cons, List.filter_cons]
    by_cases h : c ∈ text
    · have : frequency text c > 0 := List.count_pos_iff.2 h
      simp only [this, if_true, h, decide_true, List.map_cons]
      rw [ih]; rfl
    · have : ¬frequency text c > 0 := by rw [frequency, List.count_eq_zero_of_not_mem h]; omega
      simp only [this, if_false, h, decide_false]
      rw [ih]; simp

/-- The distinct symbols of a text, ascending. -/
def distinctSymbols (text : List Byte) : List Byte := symbols.filter fun c => decide (c ∈ text)

theorem mem_distinctSymbols (text : List Byte) (c : Byte) : c ∈ distinctSymbols text ↔ c ∈ text := by
  simp [distinctSymbols, mem_symbols]

theorem distinctSymbols_nodup (text : List Byte) : (distinctSymbols text).Nodup := symbols_nodup.filter _

theorem distinctSymbols_length_le (text : List Byte) : (distinctSymbols text).length ≤ 256 := by
  have := List.length_filter_le (fun c => decide (c ∈ text)) symbols
  simpa [distinctSymbols] using this

theorem leaves_length (text : List Byte) : (leaves text).length = (distinctSymbols text).length := by
  rw [leaves_eq]; simp [distinctSymbols]

theorem distinctSymbols_pos (text : List Byte) (h : text ≠ []) : 0 < (distinctSymbols text).length := by
  obtain ⟨c, hc⟩ := List.exists_mem_of_ne_nil text h
  exact List.length_pos_of_mem ((mem_distinctSymbols text c).2 hc)

/-- The tree of a text that is not empty. -/
theorem buildTree_mergesTo (text : List Byte) (h : text ≠ []) :
    ∃ root, buildTree text = some root ∧ MergesTo (enqueue 0 (leaves text)) (leaves text).length root :=
  mergeNodes_mergesTo _ _ _ (enqueue_length _ _) (by rw [leaves_length]; exact distinctSymbols_pos text h)

theorem flatMap_enqueue_leafSymbols (text : List Byte) :
    ((enqueue 0 (leaves text)).flatMap fun x => x.node.leafSymbols) = distinctSymbols text := by
  have : ((enqueue 0 (leaves text)).flatMap fun x => x.node.leafSymbols) =
      ((enqueue 0 (leaves text)).map (·.node)).flatMap HuffmanNode.leafSymbols := by rw [List.flatMap_map]
  rw [this, enqueue_nodes, leaves_eq, List.flatMap_map]
  simp [HuffmanNode.leafSymbols, distinctSymbols]

/-- The leaves of the tree are the text's distinct symbols. -/
theorem buildTree_leafSymbols (text : List Byte) (root : HuffmanNode) (h : buildTree text = some root) (ht : text ≠ []) :
    root.leafSymbols.Perm (distinctSymbols text) := by
  obtain ⟨r, hr, hm⟩ := buildTree_mergesTo text ht
  rw [h, Option.some.injEq] at hr
  subst hr
  rw [← flatMap_enqueue_leafSymbols]
  exact hm.leafSymbols

/-- Counting each value of a list once counts the whole list. -/
theorem sum_count (xs : List Byte) (hnd : xs.Nodup) (hall : ∀ b, b ∈ xs) (text : List Byte) :
    (xs.map fun c => text.count c).sum = text.length := by
  induction text with
  | nil => simp
  | cons b text ih =>
    have h1 : ∀ ys : List Byte,
        (ys.map fun c => (b :: text).count c).sum = (ys.map fun c => text.count c).sum + ys.count b := by
      intro ys
      induction ys with
      | nil => rfl
      | cons y ys ihy =>
        rw [List.map_cons, List.sum_cons, ihy, List.map_cons, List.sum_cons, List.count_cons, List.count_cons]
        by_cases h : b = y
        · subst h; simp; omega
        · have h' : ¬y = b := fun e => h e.symm
          simp [h, h']; omega
    rw [h1, ih, List.count_eq_one_of_mem hnd (hall b), List.length_cons]

/-- The sum of the frequencies of all symbols is the length of the text. -/
theorem sum_count_symbols (text : List Byte) : (symbols.map fun c => text.count c).sum = text.length :=
  sum_count symbols symbols_nodup mem_symbols text

theorem leaves_freq_sum (text : List Byte) : ((leaves text).map HuffmanNode.freq).sum = text.length := by
  rw [← sum_count_symbols text]
  unfold leaves
  generalize symbols = xs
  induction xs with
  | nil => rfl
  | cons c xs ih =>
    rw [List.filterMap_cons, List.map_cons, List.sum_cons, ← ih]
    by_cases h : frequency text c > 0
    · simp only [h, if_true, List.map_cons, List.sum_cons]; rfl
    · simp only [h, if_false]
      have : text.count c = 0 := by unfold frequency at h; omega
      rw [this]; simp

/-! The codes -/

/-- Codes below a path are the codes of the subtree with the path in front. -/
theorem assignCodes_path (node : HuffmanNode) (path : List Bool) :
    assignCodes node path = (assignCodes node []).map fun p => (p.1, path ++ p.2) := by
  induction node generalizing path with
  | leaf c f => simp [assignCodes]
  | internal l r f ihl ihr =>
    simp only [assignCodes, List.nil_append]
    rw [ihl (path ++ [false]), ihr (path ++ [true]), ihl [false], ihr [true]]
    simp [Function.comp_def]

theorem assignCodes_internal (l r : HuffmanNode) (f : Nat) :
    assignCodes (.internal l r f) [] =
      ((assignCodes l []).map fun p => (p.1, false :: p.2)) ++ (assignCodes r []).map fun p => (p.1, true :: p.2) := by
  simp only [assignCodes, List.nil_append]
  rw [assignCodes_path l [false], assignCodes_path r [true]]
  rfl

theorem assignCodes_symbols (node : HuffmanNode) : (assignCodes node []).map Prod.fst = node.leafSymbols := by
  induction node with
  | leaf c f => rfl
  | internal l r f ihl ihr =>
    rw [assignCodes_internal, HuffmanNode.leafSymbols, ← ihl, ← ihr]
    simp [Function.comp_def]

/-- Only leaves get codes, so no code is a prefix of another's. -/
theorem assignCodes_prefix (node : HuffmanNode) (p q : Byte × List Bool) (hp : p ∈ assignCodes node [])
    (hq : q ∈ assignCodes node []) (h : p.2 <+: q.2) : p = q := by
  induction node generalizing p q with
  | leaf c f => simp [assignCodes] at hp hq; rw [hp, hq]
  | internal l r f ihl ihr =>
    rw [assignCodes_internal] at hp hq
    simp only [List.mem_append, List.mem_map] at hp hq
    rcases hp with ⟨p, hp, rfl⟩ | ⟨p, hp, rfl⟩ <;> rcases hq with ⟨q, hq, rfl⟩ | ⟨q, hq, rfl⟩
    · rw [ihl p q hp hq (by simpa using h)]
    · simp at h
    · simp at h
    · rw [ihr p q hp hq (by simpa using h)]

/-- Every bit string is a prefix of a code or has one as a prefix. -/
theorem assignCodes_complete (node : HuffmanNode) (bits : List Bool) :
    ∃ p ∈ assignCodes node [], bits <+: p.2 ∨ p.2 <+: bits := by
  induction node generalizing bits with
  | leaf c f => exact ⟨(c, []), by simp [assignCodes], .inr List.nil_prefix⟩
  | internal l r f ihl ihr =>
    rw [assignCodes_internal]
    simp only [List.mem_append, List.mem_map]
    cases bits with
    | nil =>
      obtain ⟨p, hp, -⟩ := ihl []
      exact ⟨_, .inl ⟨p, hp, rfl⟩, .inl List.nil_prefix⟩
    | cons b bits =>
      cases b with
      | false =>
        obtain ⟨p, hp, h⟩ := ihl bits
        exact ⟨_, .inl ⟨p, hp, rfl⟩, by simpa using h⟩
      | true =>
        obtain ⟨p, hp, h⟩ := ihr bits
        exact ⟨_, .inr ⟨p, hp, rfl⟩, by simpa using h⟩

theorem leafSymbols_pos (node : HuffmanNode) : 0 < node.leafSymbols.length := by
  induction node with
  | leaf c f => simp [HuffmanNode.leafSymbols]
  | internal l r f ihl ihr => simp [HuffmanNode.leafSymbols]; omega

/-- A code is shorter than the number of leaves (spec/00_scope.md R9). -/
theorem assignCodes_length_lt (node : HuffmanNode) (p : Byte × List Bool) (hp : p ∈ assignCodes node []) :
    p.2.length < node.leafSymbols.length := by
  induction node generalizing p with
  | leaf c f => simp [assignCodes] at hp; rw [hp]; simp [HuffmanNode.leafSymbols]
  | internal l r f ihl ihr =>
    rw [assignCodes_internal] at hp
    have hl := leafSymbols_pos l
    have hr := leafSymbols_pos r
    simp only [List.mem_append, List.mem_map] at hp
    rcases hp with ⟨p, hp, rfl⟩ | ⟨p, hp, rfl⟩
    · have := ihl p hp; simp [HuffmanNode.leafSymbols]; omega
    · have := ihr p hp; simp [HuffmanNode.leafSymbols]; omega

/-- In a tree with an internal root no code is empty. -/
theorem assignCodes_ne_nil (node : HuffmanNode) (h : node.isInternal = true) (p : Byte × List Bool)
    (hp : p ∈ assignCodes node []) : p.2 ≠ [] := by
  cases node with
  | leaf c f => simp [HuffmanNode.isInternal] at h
  | internal l r f =>
    rw [assignCodes_internal] at hp
    simp only [List.mem_append, List.mem_map] at hp
    rcases hp with ⟨p, -, rfl⟩ | ⟨p, -, rfl⟩ <;> simp

theorem codesOfTree_internal (node : HuffmanNode) (h : node.isInternal = true) : codesOfTree node = assignCodes node [] := by
  cases node with
  | leaf c f => simp [HuffmanNode.isInternal] at h
  | internal l r f => rfl

/-- The codes of a text that is not empty: either one symbol with code [0], or the codes of a tree with an internal
root and at least two leaves. -/
theorem codesOfText_cases (text : List Byte) (h : text ≠ []) :
    (∃ c, distinctSymbols text = [c] ∧ codesOfText text = [(c, [false])]) ∨
    (2 ≤ (distinctSymbols text).length ∧ ∃ root, buildTree text = some root ∧ root.isInternal = true ∧
      codesOfText text = assignCodes root [] ∧ root.leafSymbols.Perm (distinctSymbols text)) := by
  obtain ⟨root, hr, hm⟩ := buildTree_mergesTo text h
  have hpos := distinctSymbols_pos text h
  have hlen : (enqueue 0 (leaves text)).length = (distinctSymbols text).length := by
    rw [enqueue_length, leaves_length]
  have hperm := buildTree_leafSymbols text root hr h
  by_cases h2 : 2 ≤ (distinctSymbols text).length
  · right
    have hi := hm.internal (.inl (by omega))
    exact ⟨h2, root, hr, hi, by rw [codesOfText, hr]; exact codesOfTree_internal root hi, hperm⟩
  · left
    obtain ⟨c, hc⟩ := List.length_eq_one_iff.1 (show (distinctSymbols text).length = 1 by omega)
    refine ⟨c, hc, ?_⟩
    obtain ⟨x, hx⟩ := List.length_eq_one_iff.1 (show (enqueue 0 (leaves text)).length = 1 by omega)
    rw [hx] at hm
    have hroot := hm.single
    have hnodes := enqueue_nodes 0 (leaves text)
    rw [hx, leaves_eq] at hnodes
    change [x.node] = List.map _ (distinctSymbols text) at hnodes
    rw [hc] at hnodes
    simp at hnodes
    rw [codesOfText, hr, hroot, hnodes]
    rfl

/-- The symbols of the code table are the distinct symbols of the text. -/
theorem codesOfText_symbols (text : List Byte) (h : text ≠ []) :
    ((codesOfText text).map Prod.fst).Perm (distinctSymbols text) := by
  rcases codesOfText_cases text h with ⟨c, hc, hk⟩ | ⟨-, root, -, -, hk, hp⟩
  · rw [hk, hc]; simp
  · rw [hk, assignCodes_symbols]; exact hp

theorem lookup_eq_some_iff {α β : Type} [BEq α] [LawfulBEq α] (xs : List (α × β)) (h : (xs.map Prod.fst).Nodup)
    (k : α) (v : β) : xs.lookup k = some v ↔ (k, v) ∈ xs := by
  induction xs with
  | nil => simp
  | cons p xs ih =>
    obtain ⟨j, w⟩ := p
    rw [List.map_cons, List.nodup_cons] at h
    rw [List.lookup_cons]
    by_cases hk : k = j
    · subst k
      simp only [beq_self_eq_true, List.mem_cons, Prod.mk.injEq, true_and, Option.some.injEq]
      constructor
      · intro e; exact .inl e.symm
      · rintro (e | e)
        · exact e.symm
        · exact absurd (List.mem_map.2 ⟨_, e, rfl⟩) h.1
    · have : (k == j) = false := by simpa using hk
      simp [this, ih h.2, hk]

/-- The code of a symbol that occurs is in the table; one that does not occur has none. -/
theorem codeOf_mem (text : List Byte) (c : Byte) (h : c ∈ text) :
    (c, codeOf (codesOfText text) c) ∈ codesOfText text := by
  have ht : text ≠ [] := List.ne_nil_of_mem h
  have hp := codesOfText_symbols text ht
  have hnd : ((codesOfText text).map Prod.fst).Nodup := hp.nodup_iff.2 (distinctSymbols_nodup text)
  have hm : c ∈ (codesOfText text).map Prod.fst := hp.mem_iff.2 ((mem_distinctSymbols text c).2 h)
  obtain ⟨⟨d, w⟩, hdw, rfl⟩ := List.mem_map.1 hm
  have := (lookup_eq_some_iff _ hnd d w).2 hdw
  simpa [codeOf, this] using hdw

theorem codeOf_absent (text : List Byte) (c : Byte) (h : c ∉ text) : codeOf (codesOfText text) c = [] := by
  by_cases ht : text = []
  · subst ht; rfl
  · have hp := codesOfText_symbols text ht
    have hnd : ((codesOfText text).map Prod.fst).Nodup := hp.nodup_iff.2 (distinctSymbols_nodup text)
    cases hl : (codesOfText text).lookup c with
    | none => simp [codeOf, hl]
    | some w =>
      have := (lookup_eq_some_iff _ hnd c w).1 hl
      have := hp.mem_iff.1 (List.mem_map.2 ⟨_, this, rfl⟩)
      exact absurd ((mem_distinctSymbols text c).1 this) h

/-- A code has between 1 and 255 bits, and fewer than there are distinct symbols where there are two or more
(spec/43_huffman.md R197). -/
theorem codeOf_length (text : List Byte) (c : Byte) (h : c ∈ text) :
    1 ≤ (codeOf (codesOfText text) c).length ∧ (codeOf (codesOfText text) c).length ≤ 255 ∧
    (2 ≤ (distinctSymbols text).length → (codeOf (codesOfText text) c).length < (distinctSymbols text).length) ∧
    ((distinctSymbols text).length = 1 → codeOf (codesOfText text) c = [false]) := by
  have ht : text ≠ [] := List.ne_nil_of_mem h
  have hm := codeOf_mem text c h
  have h256 := distinctSymbols_length_le text
  generalize hw : codeOf (codesOfText text) c = w at hm ⊢
  rcases codesOfText_cases text ht with ⟨d, hd, hk⟩ | ⟨h2, root, -, hi, hk, hp⟩
  · rw [hk] at hm
    obtain ⟨rfl, rfl⟩ : c = d ∧ w = [false] := by simpa using hm
    rw [hd]; simp
  · rw [hk] at hm
    have h1 := assignCodes_ne_nil root hi _ hm
    have h3 := assignCodes_length_lt root _ hm
    rw [hp.length_eq] at h3
    simp only [ne_eq] at h1 h3
    have : 0 < w.length := List.length_pos_of_ne_nil h1
    exact ⟨by omega, by omega, fun _ => h3, fun h => by omega⟩

/-- Two symbols of the text whose codes are prefixes are one symbol (spec/43_huffman.md R197). -/
theorem codeOf_prefix (text : List Byte) (c d : Byte) (hc : c ∈ text) (hd : d ∈ text)
    (h : codeOf (codesOfText text) c <+: codeOf (codesOfText text) d) : c = d := by
  have ht : text ≠ [] := List.ne_nil_of_mem hc
  have hmc := codeOf_mem text c hc
  have hmd := codeOf_mem text d hd
  generalize codeOf (codesOfText text) c = w at *
  generalize codeOf (codesOfText text) d = v at *
  rcases codesOfText_cases text ht with ⟨e, he, hk⟩ | ⟨-, root, -, -, hk, -⟩
  · rw [hk] at hmc hmd
    simp only [List.mem_singleton, Prod.mk.injEq] at hmc hmd
    rw [hmc.1, hmd.1]
  · rw [hk] at hmc hmd
    exact congrArg Prod.fst (assignCodes_prefix root _ _ hmc hmd h)

/-! The table -/

theorem lsbFirst_lt (bits : List Bool) : lsbFirst bits < 2 ^ bits.length := by
  induction bits with
  | nil => simp [lsbFirst]
  | cons b bits ih =>
    simp only [lsbFirst, List.length_cons, Nat.pow_succ]
    cases b <;> simp <;> omega

theorem lsbFirst_testBit (bits : List Bool) (i : Nat) : (lsbFirst bits).testBit i = bits.getD i false := by
  induction bits generalizing i with
  | nil => simp [lsbFirst]
  | cons b bits ih =>
    cases i with
    | zero => rw [lsbFirst, Nat.testBit_zero]; cases b <;> simp
    | succ i =>
      rw [lsbFirst, Nat.testBit_succ, List.getD_cons_succ, ← ih]
      congr 1
      cases b
      · simp
      · simp; omega

/-- Bit `b` of word `j` of a codeword is its bit `32 * j + b`, 0 past its end (spec/20_memory.md R66). -/
theorem codeWord_getLsbD (code : List Bool) (j b : Nat) (hb : b < 32) :
    (codeWord code j).getLsbD b = code.getD (32 * j + b) false := by
  simp only [codeWord, BitVec.getLsbD_ofNat, hb, decide_true, Bool.true_and, lsbFirst_testBit]
  simp [List.getD, hb, List.getElem?_drop]

@[simp] theorem State.codeword_length (s : State) (c : Byte) : (s.codeword c).length = (s.ctLenAt c).toNat := by
  simp [State.codeword]

theorem State.replaceTable_freqAt (s : State) (text : List Byte) (codes : List (Byte × List Bool)) (c : Byte) :
    (s.replaceTable text codes).freqAt c = BitVec.ofNat 32 (text.count c) := by
  simp only [State.freqAt, State.replaceTable]
  rw [Memory.find_tabulate_none _ _ _ c.isLt]
  simp [frequency]

theorem State.replaceTable_ctLenAt (s : State) (text : List Byte) (codes : List (Byte × List Bool)) (c : Byte) :
    (s.replaceTable text codes).ctLenAt c = BitVec.ofNat 8 (codeOf codes c).length := by
  simp only [State.ctLenAt, State.replaceTable]
  rw [Memory.find_tabulate_some _ _ _ _ c.isLt]
  simp

theorem State.replaceTable_ctCwAt (s : State) (text : List Byte) (codes : List (Byte × List Bool)) (c : Byte) (j : Nat)
    (hj : j < 8) : (s.replaceTable text codes).ctCwAt c j = codeWord (codeOf codes c) j := by
  have hc := c.isLt
  have hk : ctCwKey c j < 2048 := by unfold ctCwKey; omega
  simp only [State.ctCwAt, State.replaceTable]
  rw [Memory.find_tabulate_none _ _ _ hk]
  have h1 : ctCwKey c j / 8 = c.toNat := by unfold ctCwKey; omega
  have h2 : ctCwKey c j % 8 = j := by unfold ctCwKey; omega
  simp [h1, h2]

/-- The codeword stored for a symbol is its code, if it fits CT_LEN. -/
theorem State.replaceTable_codeword (s : State) (text : List Byte) (codes : List (Byte × List Bool)) (c : Byte)
    (h : (codeOf codes c).length ≤ 255) : (s.replaceTable text codes).codeword c = codeOf codes c := by
  have hlen : ((s.replaceTable text codes).ctLenAt c).toNat = (codeOf codes c).length := by
    rw [State.replaceTable_ctLenAt, BitVec.toNat_ofNat]; omega
  apply List.ext_getElem
  · rw [State.codeword_length, hlen]
  · intro i h1 h2
    simp only [State.codeword, List.getElem_map, List.getElem_range]
    rw [State.replaceTable_ctCwAt _ _ _ _ _ (by omega), codeWord_getLsbD _ _ _ (by omega)]
    rw [show 32 * (i / 32) + i % 32 = i by omega]
    simp [List.getD, h2]

theorem State.replaceTable_ctLenAt_zero (s : State) (text : List Byte) (c : Byte) :
    (s.replaceTable text (codesOfText text)).ctLenAt c = 0 ↔ c ∉ text := by
  rw [State.replaceTable_ctLenAt]
  by_cases h : c ∈ text
  · have := codeOf_length text c h
    simp only [h, not_true, iff_false]
    intro he
    have := congrArg BitVec.toNat he
    simp at this
    omega
  · simp [codeOf_absent text c h, h]

theorem State.replaceTable_codeword_text (s : State) (text : List Byte) (c : Byte) :
    (s.replaceTable text (codesOfText text)).codeword c = codeOf (codesOfText text) c := by
  refine State.replaceTable_codeword _ _ _ _ ?_
  by_cases h : c ∈ text
  · exact (codeOf_length text c h).2.1
  · simp [codeOf_absent text c h]

/-- Every word of CT_CW is 0 after HUF_CLEAR (spec/43_huffman.md R220). -/
theorem State.clearTable_ctCwAt (s : State) (c : Byte) (j : Nat) (hj : j < 8) : s.clearTable.ctCwAt c j = 0 := by
  have := c.isLt
  rw [State.ctCwAt, State.clearTable_ctCw, Memory.find_tabulate_none _ _ _ (by unfold ctCwKey; omega)]
  rfl

/-- A maximum over the symbols bounds each of them and is one of them. -/
theorem foldl_max_spec (xs : List Nat) (a : Nat) :
    (∀ x ∈ xs, x ≤ xs.foldl max a) ∧ a ≤ xs.foldl max a ∧ (xs.foldl max a = a ∨ xs.foldl max a ∈ xs) := by
  induction xs generalizing a with
  | nil => simp
  | cons x xs ih =>
    obtain ⟨h1, h2, h3⟩ := ih (max a x)
    rw [List.foldl_cons]
    refine ⟨?_, by omega, ?_⟩
    · intro y hy
      rcases List.mem_cons.1 hy with rfl | hy
      · omega
      · exact h1 y hy
    · rcases h3 with h | h
      · rw [h]; rcases Nat.le_total a x with h' | h' <;> simp [h']
      · exact .inr (List.mem_cons_of_mem _ h)

theorem State.le_maxCtLen (s : State) (c : Byte) : (s.ctLenAt c).toNat ≤ s.maxCtLen :=
  (foldl_max_spec _ 0).1 _ (List.mem_map.2 ⟨c, mem_symbols c, rfl⟩)

theorem State.maxCtLen_attained (s : State) : ∃ c, (s.ctLenAt c).toNat = s.maxCtLen := by
  rcases (foldl_max_spec (symbols.map fun c => (s.ctLenAt c).toNat) 0).2.2 with h | h
  · refine ⟨0, ?_⟩
    have := s.le_maxCtLen 0
    unfold State.maxCtLen at *
    omega
  · obtain ⟨c, -, hc⟩ := List.mem_map.1 h
    exact ⟨c, hc⟩

theorem State.maxCtLen_le (s : State) : s.maxCtLen ≤ 255 := by
  obtain ⟨c, hc⟩ := s.maxCtLen_attained
  have := (s.ctLenAt c).isLt
  omega

/-! Encoding and decoding -/

theorem State.encodedLength_eq (s : State) (text : List Byte) :
    s.encodedLength text = (text.flatMap s.codeword).length := by
  simp [State.encodedLength, List.length_flatMap]

theorem State.codeword_eq_nil (s : State) (c : Byte) : s.codeword c = [] ↔ s.ctLenAt c = 0 := by
  rw [← List.length_eq_zero_iff, State.codeword_length]
  constructor
  · intro h; exact BitVec.eq_of_toNat_eq h
  · intro h; simp [h]

theorem State.not_isCodeword_nil (s : State) : ¬s.IsCodeword [] := by
  rintro ⟨c, hc, h⟩
  exact hc ((State.codeword_eq_nil s c).1 h)

/-- A match is the least symbol with that codeword. -/
theorem State.matching_some (s : State) (acc : List Bool) (c : Byte) (h : s.matching acc = some c) :
    s.codeword c = acc ∧ ∀ d, s.codeword d = acc → c.toNat ≤ d.toNat := by
  unfold State.matching at h
  obtain ⟨hp, i, hi, hget, hlt⟩ := List.find?_eq_some_iff_getElem.1 h
  simp only [Bool.and_eq_true, beq_iff_eq] at hp
  refine ⟨hp.2, fun d hd => ?_⟩
  by_contra hcon
  have hi256 : i < 256 := by simpa using hi
  rw [symbols_getElem] at hget
  have hci : c.toNat = i := by rw [← hget, BitVec.toNat_ofNat]; omega
  have hdi : d.toNat < i := by omega
  have := hlt d.toNat hdi
  rw [symbols_getElem] at this
  have hlen : (s.ctLenAt d).toNat = acc.length := by rw [← hd, State.codeword_length]
  simp [hd, hlen] at this

/-- No match: no symbol has that codeword. -/
theorem State.matching_none (s : State) (acc : List Bool) (h : s.matching acc = none) : ¬s.IsCodeword acc := by
  rintro ⟨c, -, hc⟩
  unfold State.matching at h
  have := List.find?_eq_none.1 h c (mem_symbols c)
  have hlen : (s.ctLenAt c).toNat = acc.length := by rw [← hc, State.codeword_length]
  simp [hc, hlen] at this

/-- A symbol the decoder may emit: it has a codeword, no shorter prefix of which is one, and it is the least with it
(spec/43_huffman.md R213). -/
def State.Emits (s : State) (c : Byte) : Prop :=
  s.ctLenAt c ≠ 0 ∧ (∀ k < (s.codeword c).length, ¬s.IsCodeword ((s.codeword c).take k)) ∧
    ∀ d, s.ctLenAt d ≠ 0 → s.codeword d = s.codeword c → c.toNat ≤ d.toNat

/-- What the decode loop does, from an accumulator no prefix of which is a codeword (spec/43_huffman.md R212, R213). -/
theorem State.decodeBits_spec (s : State) (bits acc : List Bool) (hacc : ∀ k ≤ acc.length, ¬s.IsCodeword (acc.take k)) :
    acc ++ bits = (s.decodeBits acc bits).1.flatMap s.codeword ++ (s.decodeBits acc bits).2 ∧
    (∀ c ∈ (s.decodeBits acc bits).1, s.Emits c) ∧
    ∀ k ≤ (s.decodeBits acc bits).2.length, ¬s.IsCodeword ((s.decodeBits acc bits).2.take k) := by
  induction bits generalizing acc with
  | nil => simpa [State.decodeBits] using hacc
  | cons b bits ih =>
    simp only [State.decodeBits]
    cases hm : s.matching (acc ++ [b]) with
    | none =>
      simp only
      have hnew : ∀ k ≤ (acc ++ [b]).length, ¬s.IsCodeword ((acc ++ [b]).take k) := by
        intro k hk
        by_cases hk' : k ≤ acc.length
        · rw [List.take_append_of_le_length hk']; exact hacc k hk'
        · have : k = (acc ++ [b]).length := by simp at hk ⊢; omega
          rw [this, List.take_length]
          exact s.matching_none _ hm
      have := ih (acc ++ [b]) hnew
      rw [List.append_assoc] at this
      exact this
    | some c =>
      obtain ⟨hc, hleast⟩ := s.matching_some _ _ hm
      obtain ⟨h1, h2, h3⟩ := ih [] (by simpa using s.not_isCodeword_nil)
      simp only
      refine ⟨?_, ?_, h3⟩
      · rw [List.flatMap_cons, hc, List.append_assoc, List.append_assoc, ← h1]; simp
      · intro d hd
        rcases List.mem_cons.1 hd with rfl | hd
        · refine ⟨?_, ?_, fun e _ he => hleast e (he.trans hc)⟩
          · intro h0
            have := (s.codeword_eq_nil d).2 h0
            rw [hc] at this; simp at this
          · intro k hk
            rw [hc] at hk ⊢
            have hk' : k ≤ acc.length := by simp at hk; omega
            rw [List.take_append_of_le_length hk']; exact hacc k hk'
        · exact h2 d hd

/-- Each symbol takes at least one bit: the loop writes no more symbols than it reads bits (spec/43_huffman.md R213). -/
theorem State.decodeBits_length_le (s : State) (bits : List Bool) :
    (s.decodeBits [] bits).1.length + (s.decodeBits [] bits).2.length ≤ bits.length := by
  obtain ⟨h1, h2, -⟩ := s.decodeBits_spec bits [] (by simpa using s.not_isCodeword_nil)
  rw [List.nil_append] at h1
  conv_rhs => rw [h1]
  rw [List.length_append]
  have : ∀ xs : List Byte, (∀ c ∈ xs, s.Emits c) → xs.length ≤ (xs.flatMap s.codeword).length := by
    intro xs
    induction xs with
    | nil => simp
    | cons x xs ih =>
      intro h
      have hx : 0 < (s.ctLenAt x).toNat := by
        rcases Nat.eq_zero_or_pos (s.ctLenAt x).toNat with h0 | h0
        · exact absurd (BitVec.eq_of_toNat_eq (by simpa using h0)) (h x List.mem_cons_self).1
        · exact h0
      have := ih fun c hc => h c (List.mem_cons_of_mem _ hc)
      rw [List.flatMap_cons, List.length_append, List.length_cons, State.codeword_length]
      omega
  have := this _ h2
  omega

end Sys2Proof.Machine
end

