-- ==== Sys2Proof/Laws/Exec.lean ====
section
/-! SUPPORT. Everything a command can do, said once: the completions of each command. -/

namespace Sys2Proof.Machine

/-- The completions of a command from state `s`. -/
inductive Completion (s : State) : Instr → State → Prop where
  /-- An error that writes no output. -/
  | error (i : Instr) (e : ErrorCode) (h : Instr.streams i = true) : Completion s i (s.emptyEnd e.code)
  | nop : Completion s .nop (s.complete 0)
  | hSynd : Completion s .hSynd ({ s with hres := (BitGroup.ofBitVec s.group).hres }.complete 0)
  /-- Bytes written at `DST_ADDR`, with the counts `len` and `cnt`. -/
  | output (i : Instr) (bytes : List Byte) (len cnt : Nat) (code : BitVec 4) (h : Instr.streams i = true)
      (hi : i ≠ .hufBuild) (hc : ∀ strict, i ≠ .hCorrect strict) (hn : s.n ≤ s.bufBytes)
      (hr : InRange s.dstAddr.toNat (s.outputLength i) s.bufBytes)
      (hb : bytes.length ≤ s.outputLength i) (hdec : i = .hufDecode → bytes.length = len)
      (hlen : len ≤ s.outputLength i) (hcnt : cnt ≤ s.n) (hcode : code = 0 ∨ (i = .hufDecode ∧ code = 8)) :
      Completion s i (((s.writeBytes s.dstAddr.toNat bytes).setResults len cnt).complete code)
  /-- H_CORRECT's two outputs. -/
  | hCorrect (strict : Bool) (bits : List Bool) (positions : List Nat) (hn : s.n ≤ s.bufBytes)
      (hb : bits.length = 7 * (s.n / 7)) (hp : positions.length ≤ s.n / 7)
      (ho : s.CorrectFits) :
      Completion s (.hCorrect strict) ((((s.writeBits s.dstAddr.toNat bits).writeBytes s.auxAddr.toNat
        (positionBytes positions)).setResults (7 * (s.n / 7)) positions.length).complete 0)
  | hufBuild (hn : s.n ≤ s.bufBytes) (hpos : s.n ≠ 0) : Completion s .hufBuild
      (((s.replaceTable s.inputBytes (codesOfText s.inputBytes)).setResults
        (s.replaceTable s.inputBytes (codesOfText s.inputBytes)).maxCtLen (leaves s.inputBytes).length).complete 0)
  | hufClear : Completion s .hufClear ((s.clearTable.setResults 0 0).complete 0)

variable (s : State)

theorem State.n_le (h : s.InputInRange) : s.n ≤ s.bufBytes := by
  rcases h with h | h <;> omega

/-- A command with one output region, once its input has passed: an error, or the bytes and counts given. -/
theorem withOutput_completion (i : Instr) (hs : Instr.streams i = true) (hi : i ≠ .hufBuild)
    (hc : ∀ strict, i ≠ .hCorrect strict) (len cnt : Nat)
    (bytes : List Byte) (hlen : s.outputLength i = len) (hn : s.n ≤ s.bufBytes) (hb : bytes.length = len)
    (hcnt : cnt ≤ s.n) :
    Completion s i (withOutput len s fun _ => .ok (s.writeBytes s.dstAddr.toNat bytes) len cnt).finish :=
  withOutput_cases (P := fun c => Completion s i c.finish) _ _ _ (.error _ _ hs) (.error _ _ hs) fun h =>
    .output i bytes len cnt 0 hs hi hc hn (hlen ▸ h.inRange) (by omega) (fun _ => hb) (by omega) hcnt (.inl rfl)

/-- Every command completes, in one of the ways `Completion` lists. -/
theorem exec_completion (i : Instr) : ∃ t, exec i s = .next t ∧ Completion s i t := by
  cases i with
  | nop => exact ⟨_, rfl, .nop⟩
  | hSynd => exact ⟨_, rfl, .hSynd⟩
  | hufClear => exact ⟨_, rfl, .hufClear⟩
  | hCorrect strict =>
    refine ⟨_, rfl, withInputBits_cases (P := fun c => Completion s (.hCorrect strict) c.finish) strict 7 s _
      (fun _ => .error _ _ rfl) (.error _ _ rfl) (.error _ _ rfl) fun h => ?_⟩
    unfold hCorrectBits
    refine check_cases (P := fun c => Completion s (.hCorrect strict) c.finish) _ _ _ _ (.error _ _ rfl) fun hr => ?_
    refine check_cases (P := fun c => Completion s (.hCorrect strict) c.finish) _ _ _ _ (.error _ _ rfl) fun hv => ?_
    rw [Bool.and_eq_true, Region.inRange_iff, Region.inRange_iff] at hr
    rw [Bool.not_eq_true', ← Bool.not_eq_true, Bool.or_eq_true, Bool.or_eq_true, Region.overlaps_iff,
      Region.overlaps_iff, Region.overlaps_iff, not_or, not_or] at hv
    refine .hCorrect strict _ _ (s.n_le h.inRange) ?_ ?_ ⟨hr.1, hr.2, hv.1.1, hv.1.2, hv.2⟩
    · rw [correctedBits_length, groupsOf7_length, State.bitsAt_length]
    · refine (flippedPositions_length_le _ _).trans ?_
      rw [groupsOf7_length, State.bitsAt_length]
  | hEncode strict =>
    refine ⟨_, rfl, withInputBits_cases (P := fun c => Completion s (.hEncode strict) c.finish) strict 4 s _
      (fun _ => .error _ _ rfl) (.error _ _ rfl) (.error _ _ rfl) fun h => ?_⟩
    exact withOutput_completion s _ rfl (by simp) (by simp) _ _ _ rfl (s.n_le h.inRange)
      (by rw [List.length_map, encodedBits_length, State.bitsAt_length]) (by omega)
  | hStrip strict =>
    refine ⟨_, rfl, withInputBits_cases (P := fun c => Completion s (.hStrip strict) c.finish) strict 7 s _
      (fun _ => .error _ _ rfl) (.error _ _ rfl) (.error _ _ rfl) fun h => ?_⟩
    exact withOutput_completion s _ rfl (by simp) (by simp) _ _ _ rfl (s.n_le h.inRange)
      (by rw [List.length_map, strippedBits_length, groupsOf7_length, State.bitsAt_length]) (by omega)
  | bPack strict =>
    refine ⟨_, rfl, withInputBits_cases (P := fun c => Completion s (.bPack strict) c.finish) strict 8 s _
      (fun _ => .error _ _ rfl) (.error _ _ rfl) (.error _ _ rfl) fun h => ?_⟩
    exact withOutput_completion s _ rfl (by simp) (by simp) _ _ _ rfl (s.n_le h.inRange)
      (by rw [packedBytes_length, State.bitsAt_length]) (by omega)
  | bUnpack =>
    refine ⟨_, rfl, check_cases (P := fun c => Completion s .bUnpack c.finish) _ _ _ _ (.error _ _ rfl) fun h => ?_⟩
    exact withOutput_completion s _ rfl (by simp) (by simp) _ _ _ rfl (s.n_le ((Region.inRange_iff _ _).1 h))
      (by rw [List.length_map, unpackedBits_length, State.inputBytes, State.readBytes_length]) le_rfl
  | hufBuild =>
    refine ⟨_, rfl, check_cases (P := fun c => Completion s .hufBuild c.finish) _ _ _ _ (.error _ _ rfl) fun h => ?_⟩
    refine check_cases (P := fun c => Completion s .hufBuild c.finish) _ _ _ _ (.error _ _ rfl) fun hn => ?_
    exact .hufBuild (s.n_le ((Region.inRange_iff _ _).1 h)) (by simpa using hn)
  | hufEncode =>
    refine ⟨_, rfl, check_cases (P := fun c => Completion s .hufEncode c.finish) _ _ _ _ (.error _ _ rfl) fun h => ?_⟩
    refine check_cases (P := fun c => Completion s .hufEncode c.finish) _ _ _ _ (.error _ _ rfl) fun _ => ?_
    exact withOutput_completion s _ rfl (by simp) (by simp) _ _ _ rfl (s.n_le ((Region.inRange_iff _ _).1 h))
      (by rw [List.length_map, State.encodedLength_eq]) le_rfl
  | hufDecode =>
    refine ⟨_, rfl, withInputBits_cases (P := fun c => Completion s .hufDecode c.finish) false 1 s _
      (fun _ => .error _ _ rfl) (.error _ _ rfl) (.error _ _ rfl) fun h => ?_⟩
    refine withOutput_cases (P := fun c => Completion s .hufDecode c.finish) _ _ _ (.error _ _ rfl) (.error _ _ rfl) fun ho => ?_
    have hle := s.decodeBits_length_le (s.bitsAt s.srcAddr.toNat s.n)
    rw [State.bitsAt_length] at hle
    have hn := s.n_le h.inRange
    rcases hd : s.decodeBits [] (s.bitsAt s.srcAddr.toNat s.n) with ⟨out, _ | ⟨b, acc⟩⟩ <;> rw [hd] at hle
    · exact .output _ out out.length 0 0 rfl (by simp) (by simp) hn ho.inRange (by simpa [State.outputLength] using hle) (fun _ => rfl)
        (by simpa [State.outputLength] using hle) (Nat.zero_le _) (.inl rfl)
    · simp only at hle
      exact .output _ out out.length (b :: acc).length 8 rfl (by simp) (by simp) hn ho.inRange
        (by simp only [State.outputLength]; omega) (fun _ => rfl) (by simp only [State.outputLength]; omega) (by omega)
        (.inr ⟨rfl, rfl⟩)

/-- A command that answers a next state answers one of its completions. -/
theorem completion_of_exec {i : Instr} {t : State} (h : exec i s = .next t) : Completion s i t := by
  obtain ⟨u, hu, hc⟩ := exec_completion s i
  rw [hu] at h
  cases h
  exact hc

/-! What each streaming command leaves once its checks pass -/

theorem exec_hCorrect_passed (strict : Bool) (h : s.BitInput strict 7) (ho : s.CorrectFits) :
    exec (.hCorrect strict) s = .next ((((s.writeBits s.dstAddr.toNat
      (correctedBits (groupsOf7 (s.bitsAt s.srcAddr.toNat s.n)))).writeBytes s.auxAddr.toNat
      (positionBytes (flippedPositions 0 (groupsOf7 (s.bitsAt s.srcAddr.toNat s.n))))).setResults (7 * (s.n / 7))
      (flippedPositions 0 (groupsOf7 (s.bitsAt s.srcAddr.toNat s.n))).length).complete 0) := by
  simp only [exec, execHCorrect]
  rw [withInputBits_passed _ 7 _ _ h]
  unfold hCorrectBits
  rw [check_passed, check_passed]
  · rfl
  · rw [Bool.not_eq_true', ← Bool.not_eq_true, Bool.or_eq_true, Bool.or_eq_true, Region.overlaps_iff,
      Region.overlaps_iff, Region.overlaps_iff]
    exact fun h => h.elim (fun h => h.elim ho.inputOutput ho.inputPositions) ho.outputPositions
  · rw [Bool.and_eq_true, Region.inRange_iff, Region.inRange_iff]
    exact ⟨ho.outputInRange, ho.positionsInRange⟩

theorem exec_hEncode_passed (strict : Bool) (h : s.BitInput strict 4) (ho : s.OutputFits (7 * (s.n / 4))) :
    exec (.hEncode strict) s = .next (((s.writeBits s.dstAddr.toNat
      (encodedBits (s.bitsAt s.srcAddr.toNat s.n))).setResults (7 * (s.n / 4)) (s.n / 4)).complete 0) := by
  simp only [exec, execHEncode]
  rw [withInputBits_passed _ 4 _ _ h, withOutput_passed _ _ _ ho]
  rfl

theorem exec_hStrip_passed (strict : Bool) (h : s.BitInput strict 7) (ho : s.OutputFits (4 * (s.n / 7))) :
    exec (.hStrip strict) s = .next (((s.writeBits s.dstAddr.toNat
      (strippedBits (groupsOf7 (s.bitsAt s.srcAddr.toNat s.n)))).setResults (4 * (s.n / 7)) (s.n / 7)).complete 0) := by
  simp only [exec, execHStrip]
  rw [withInputBits_passed _ 7 _ _ h, withOutput_passed _ _ _ ho]
  rfl

theorem exec_bPack_passed (strict : Bool) (h : s.BitInput strict 8) (ho : s.OutputFits (s.n / 8)) :
    exec (.bPack strict) s = .next (((s.writeBytes s.dstAddr.toNat
      (packedBytes (s.bitsAt s.srcAddr.toNat s.n))).setResults (s.n / 8) (s.n % 8)).complete 0) := by
  simp only [exec, execBPack]
  rw [withInputBits_passed _ 8 _ _ h, withOutput_passed _ _ _ ho]
  rfl

theorem exec_bUnpack_passed (h : s.InputInRange) (ho : s.OutputFits (8 * s.n)) :
    exec .bUnpack s = .next (((s.writeBits s.dstAddr.toNat (s.inputBytes.flatMap unpack8)).setResults (8 * s.n)
      s.n).complete 0) := by
  simp only [exec, execBUnpack]
  rw [check_passed _ _ _ _ ((Region.inRange_iff _ _).2 h), withOutput_passed _ _ _ ho]
  rfl

theorem exec_hufBuild_passed (h : s.InputInRange) (hn : s.n ≠ 0) :
    exec .hufBuild s = .next (((s.replaceTable s.inputBytes (codesOfText s.inputBytes)).setResults
      (s.replaceTable s.inputBytes (codesOfText s.inputBytes)).maxCtLen (leaves s.inputBytes).length).complete 0) := by
  simp only [exec, execHufBuild]
  rw [check_passed _ _ _ _ ((Region.inRange_iff _ _).2 h), check_passed]
  · rfl
  · simpa using hn

theorem State.all_hasCodeword : (s.inputBytes.all fun c => s.ctLenAt c != 0) = true ↔
    ∀ j < s.n, s.ctLenAt (s.bufByte (s.srcAddr.toNat + j)) ≠ 0 := by
  simp [State.inputBytes, State.readBytes]

theorem exec_hufEncode_passed (h : s.InputInRange) (ht : s.TextOk .hufEncode)
    (ho : s.OutputFits (s.inputBytes.flatMap s.codeword).length) :
    exec .hufEncode s = .next (((s.writeBits s.dstAddr.toNat (s.inputBytes.flatMap s.codeword)).setResults
      (s.inputBytes.flatMap s.codeword).length s.n).complete 0) := by
  rw [← State.encodedLength_eq] at ho ⊢
  simp only [exec, execHufEncode]
  rw [check_passed _ _ _ _ ((Region.inRange_iff _ _).2 h), check_passed, withOutput_passed _ _ _ ho]
  · rfl
  · rw [State.all_hasCodeword]
    exact ht.2 rfl

theorem exec_hufDecode_passed (h : s.BitInput false 1) (ho : s.OutputFits s.n) :
    exec .hufDecode s =
      .next (((s.writeBytes s.dstAddr.toNat (s.decodeBits [] (s.bitsAt s.srcAddr.toNat s.n)).1).setResults
        (s.decodeBits [] (s.bitsAt s.srcAddr.toNat s.n)).1.length
        (s.decodeBits [] (s.bitsAt s.srcAddr.toNat s.n)).2.length).complete
        (if (s.decodeBits [] (s.bitsAt s.srcAddr.toNat s.n)).2 = [] then 0 else 8)) := by
  simp only [exec, execHufDecode]
  rw [withInputBits_passed _ 1 _ _ h, withOutput_passed _ _ _ ho]
  rcases s.decodeBits [] (s.bitsAt s.srcAddr.toNat s.n) with ⟨out, _ | ⟨b, acc⟩⟩ <;> rfl

end Sys2Proof.Machine
end

