-- ==== Sys2Proof/Laws/PerInstr.lean ====
section
/-! SUPPORT. The per-instruction family `Encoding`: the command word of each command selects its row of the opcode map
(spec/30_encoding.md R93) and decodes to it. -/

namespace Sys2Proof.Laws.Encoding

/-- The fields of the command's word are well-formed (R95), and the word decodes to the command. -/
def Statement (i : Instr) : Prop := (fieldsOf (encode i)).wellFormed = true ∧ decode (encode i) = .ok i

theorem nop : Statement .nop := by constructor <;> rfl
theorem hSynd : Statement .hSynd := by constructor <;> rfl
theorem hCorrect (strict : Bool) : Statement (.hCorrect strict) := by constructor <;> cases strict <;> rfl
theorem hEncode (strict : Bool) : Statement (.hEncode strict) := by constructor <;> cases strict <;> rfl
theorem hStrip (strict : Bool) : Statement (.hStrip strict) := by constructor <;> cases strict <;> rfl
theorem bPack (strict : Bool) : Statement (.bPack strict) := by constructor <;> cases strict <;> rfl
theorem bUnpack : Statement .bUnpack := by constructor <;> rfl
theorem hufBuild : Statement .hufBuild := by constructor <;> rfl
theorem hufEncode : Statement .hufEncode := by constructor <;> rfl
theorem hufDecode : Statement .hufDecode := by constructor <;> rfl
theorem hufClear : Statement .hufClear := by constructor <;> rfl

end Sys2Proof.Laws.Encoding
end

