-- ==== Sys2Proof/Laws/Port.lean ====
section
/-! SUPPORT. Laws of the host port: where each offset of the map leads, and what an access there does. -/

namespace Sys2Proof.Machine

variable (s : State)

/-- The offset of a register leads to it. -/
theorem State.target_reg (r : Reg) : s.target (BitVec.ofNat 21 r.offset) = .reg r := by cases r <;> rfl

theorem State.target_ct (c : Byte) (w : Nat) (hw : w < 16) :
    s.target (BitVec.ofNat 21 (0x10000 + 64 * c.toNat + 4 * w)) = .ct c w := by
  have hc := c.isLt
  have ho : (BitVec.ofNat 21 (0x10000 + 64 * c.toNat + 4 * w)).toNat = 0x10000 + 64 * c.toNat + 4 * w := by
    simp only [BitVec.toNat_ofNat]; omega
  unfold State.target
  simp only [ho]
  rw [if_neg (by omega), if_neg (by omega), if_pos (by omega)]
  have h1 : (0x10000 + 64 * c.toNat + 4 * w - 0x10000) / 64 = c.toNat := by omega
  have h2 : (0x10000 + 64 * c.toNat + 4 * w - 0x10000) % 64 / 4 = w := by omega
  rw [h1, h2, BitVec.ofNat_toNat, BitVec.setWidth_eq]

theorem State.target_freq (c : Byte) : s.target (BitVec.ofNat 21 (0x20000 + 4 * c.toNat)) = .freq c := by
  have hc := c.isLt
  have ho : (BitVec.ofNat 21 (0x20000 + 4 * c.toNat)).toNat = 0x20000 + 4 * c.toNat := by
    simp only [BitVec.toNat_ofNat]; omega
  unfold State.target
  simp only [ho]
  rw [if_neg (by omega), if_neg (by omega), if_neg (by omega), if_neg (by omega), if_pos (by omega)]
  have h1 : (0x20000 + 4 * c.toNat - 0x20000) / 4 = c.toNat := by omega
  rw [h1, BitVec.ofNat_toNat, BitVec.setWidth_eq]

theorem State.target_buf (a : Nat) (ha : a < s.bufBytes) : s.target (BitVec.ofNat 21 (0x100000 + a)) = .buf a := by
  have hs := s.bufBytes_le
  have ho : (BitVec.ofNat 21 (0x100000 + a)).toNat = 0x100000 + a := by
    simp only [BitVec.toNat_ofNat]; omega
  unfold State.target
  simp only [ho]
  rw [if_neg (by omega), if_neg (by omega), if_neg (by omega), if_neg (by omega), if_neg (by omega), if_neg (by omega),
    if_pos (by omega)]
  simp

/-- The registers are the offsets below 0x34, the windows the other offsets that are not reserved. -/
theorem State.target_cases (off : BitVec 21) :
    (off.toNat < 0x34 ∧ ∃ r, s.target off = .reg r) ∨
    (0x10000 ≤ off.toNat ∧ off.toNat < 0x14000 ∧ ∃ c w, w < 16 ∧ s.target off = .ct c w) ∨
    (0x20000 ≤ off.toNat ∧ off.toNat < 0x20400 ∧ ∃ c, s.target off = .freq c) ∨
    (0x100000 ≤ off.toNat ∧ off.toNat < 0x100000 + s.bufBytes ∧ s.target off = .buf (off.toNat - 0x100000)) ∨
    (s.target off = .reserved ∧ ((0x34 ≤ off.toNat ∧ off.toNat ≤ 0xFFFF) ∨ (0x14000 ≤ off.toNat ∧ off.toNat ≤ 0x1FFFF) ∨
      (0x20400 ≤ off.toNat ∧ off.toNat ≤ 0xFFFFF) ∨ 0x100000 + s.bufBytes ≤ off.toNat)) := by
  unfold State.target
  simp only
  split
  · rename_i h
    refine .inl ⟨h, ?_⟩
    have : off.toNat / 4 < 13 := by omega
    generalize off.toNat / 4 = k at this
    interval_cases k <;> exact ⟨_, rfl⟩
  · split
    · right; right; right; right; exact ⟨rfl, by omega⟩
    · split
      · right; left; exact ⟨by omega, by omega, _, _, by omega, rfl⟩
      · split
        · right; right; right; right; exact ⟨rfl, by omega⟩
        · split
          · right; right; left; exact ⟨by omega, by omega, _, rfl⟩
          · split
            · right; right; right; right; exact ⟨rfl, by omega⟩
            · split
              · right; right; right; left; exact ⟨by omega, by omega, rfl⟩
              · right; right; right; right; exact ⟨rfl, by omega⟩

theorem State.isBusError_reg (r : Reg) : s.isBusError .w4 (BitVec.ofNat 21 r.offset) = false := by
  unfold State.isBusError
  rw [State.target_reg]
  cases r <;> rfl

/-- A 4-byte register read: the register's word, no change, at any time (spec/20_memory.md R69, R71). -/
theorem State.serve_read_reg (r : Reg) :
    s.serve .read .w4 (BitVec.ofNat 21 r.offset) = (s, .data (s.readReg r)) := by
  simp only [State.serve, State.isBusError_reg, State.target_reg, PortTarget.isWindow, Bool.and_false, State.readTarget]
  rfl

/-- A 4-byte register write: the register's write rule, at any time (spec/20_memory.md R69, R71). -/
theorem State.serve_write_reg (r : Reg) (v : Word) :
    s.serve (.write v) .w4 (BitVec.ofNat 21 r.offset) = (s.writeReg r v, .written) := by
  simp only [State.serve, State.isBusError_reg, State.target_reg, PortTarget.isWindow, Bool.and_false, State.writeTarget]
  rfl

/-- Everything a host access at a port offset can do to the state. -/
theorem State.serve_cases {P : State → Prop} (kind : AccessKind) (width : Width) (off : BitVec 21)
    (hsame : P s) (hrefuse : s.busy = true → P s.refuse)
    (hreg : ∀ r v, P (s.writeReg r v))
    (hct : ∀ c w v, s.busy = false → w < 16 → P (s.writeCt c w v))
    (hbuf : ∀ a v, s.busy = false → a + width.bytes ≤ s.bufBytes → P (s.memWrite a width.bytes v)) :
    P (s.serve kind width off).1 := by
  unfold State.serve
  split
  · exact hsame
  · rename_i herr
    have herr : s.isBusError width off = false := by simpa using herr
    cases kind with
    | read =>
      simp only
      split
      · rename_i h; exact hrefuse (by simp at h; exact h.1)
      · exact hsame
    | write v =>
      simp only
      split
      · rename_i h; exact hrefuse (by simp at h; exact h.1)
      · rename_i h
        rcases s.target_cases off with ⟨-, r, ht⟩ | ⟨-, -, c, w, hw, ht⟩ | ⟨-, -, c, ht⟩ | ⟨hlo, hhi, ht⟩ | ⟨ht, -⟩ <;>
          rw [ht] at h ⊢
        · exact hreg r v
        · exact hct c w v (by simpa [PortTarget.isWindow] using h) hw
        · exact hsame
        · refine hbuf _ _ (by simpa [PortTarget.isWindow] using h) ?_
          have hal : off.toNat % width.bytes = 0 := by
            simp [State.isBusError, ht, PortTarget.allows] at herr; exact herr
          have hb : s.bufBytes % 4096 = 0 := by
            have := Nat.pow_dvd_pow 2 s.cfg.bufLog2_ge
            exact Nat.mod_eq_zero_of_dvd this
          cases width <;> simp only [Width.bytes] at hal ⊢ <;> omega
        · exact hsame

/-- STATUS bit 0 is BUSY (spec/10_state.md R25). -/
theorem State.statusWord_busy : s.statusWord.getLsbD 0 = s.busy := by
  simp only [State.statusWord, BitVec.getLsbD_append]
  simp

/-- The system address of a port offset reaches it (spec/20_memory.md R63). -/
theorem portOffset_base (p : Params) (o : Nat) (h : o < 0x200000) :
    portOffset p (p.unitBase + o) = some (BitVec.ofNat 21 o) := by
  simp [portOffset, h]

/-- An offset leads to a register only at one of its four bytes. -/
theorem State.offset_of_target_reg (off : BitVec 21) (r : Reg) (h : s.target off = .reg r) :
    off.toNat / 4 * 4 = r.offset := by
  rcases s.target_cases off with ⟨hlt, -, -⟩ | ⟨-, -, _, _, -, ht⟩ | ⟨-, -, _, ht⟩ | ⟨-, -, ht⟩ | ⟨ht, -⟩
  · simp only [State.target, hlt, if_true] at h
    have hk : off.toNat / 4 < 13 := by omega
    generalize off.toNat / 4 = k at h hk
    interval_cases k <;> simp only [regOfIndex, PortTarget.reg.injEq] at h <;> subst h <;> rfl
  all_goals rw [ht] at h; cases h

/-- The only access that sets IE is a 4-byte write of CTRL with bit 0 set (spec/10_state.md R26). -/
theorem State.serve_ie (kind : AccessKind) (width : Width) (off : BitVec 21) (hs : s.ie = false)
    (h : (s.serve kind width off).1.ie = true) :
    width = .w4 ∧ off.toNat = Reg.offset .ctrl ∧ ∃ v, kind = .write v ∧ v.getLsbD 0 = true := by
  unfold State.serve at h
  split at h
  · simp [hs] at h
  · rename_i herr
    have herr : s.isBusError width off = false := by simpa using herr
    cases kind with
    | read => simp only at h; split at h <;> simp [State.refuse, hs] at h
    | write v =>
      simp only at h
      split at h
      · simp [State.refuse, hs] at h
      · cases ht : s.target off with
        | reg r =>
          have hoff := s.offset_of_target_reg off r ht
          simp only [State.isBusError, ht, PortTarget.allows, Bool.or_eq_false_iff, Bool.not_eq_false',
            beq_iff_eq] at herr
          obtain ⟨rfl, hal⟩ := herr
          simp only [Width.bytes, bne_eq_false_iff_eq] at hal
          rw [ht] at h
          simp only [State.writeTarget] at h
          cases r
          case ctrl => exact ⟨rfl, by omega, v, rfl, by simpa [State.writeReg, State.writeCtrl] using h⟩
          all_goals
            simp only [State.writeReg] at h
            (try split at h) <;> simp [State.refuse, State.accept, State.writeStatus, hs] at h
        | ct c w =>
          rw [ht] at h
          simp only [State.writeTarget, State.writeCt] at h
          split at h <;> [skip; split at h] <;> simp [hs] at h
        | freq c => rw [ht] at h; simp [State.writeTarget, hs] at h
        | buf a => rw [ht] at h; simp [State.writeTarget, State.memWrite, State.writeBytes, hs] at h
        | reserved => rw [ht] at h; simp [State.writeTarget, hs] at h

/-- A system address that reaches a port offset is UNIT_BASE plus that offset (spec/20_memory.md R63). -/
theorem eq_base_of_portOffset (p : Params) (addr : Nat) (off : BitVec 21) (h : portOffset p addr = some off) :
    addr = p.unitBase + off.toNat := by
  unfold portOffset at h
  split at h
  · cases h
    simp only [BitVec.toNat_ofNat]
    omega
  · cases h

end Sys2Proof.Machine
end

