-- ==== Sys2Proof/Laws/Step.lean ====
section
/-! SUPPORT. Everything a step can do, said once: the move of each agent. -/

namespace Sys2Proof.Machine

/-- What one host access can do to the unit. -/
inductive PortEffect (s : State) : State → Prop where
  | same : PortEffect s s
  | refuse (h : s.busy = true) : PortEffect s s.refuse
  | reg (r : Reg) (v : Word) : PortEffect s (s.writeReg r v)
  | ct (c : Byte) (w : Nat) (v : Word) (h : s.busy = false) (hw : w < 16) : PortEffect s (s.writeCt c w v)
  | buf (a n v : Nat) (h : s.busy = false) (ha : a + n ≤ s.bufBytes) : PortEffect s (s.memWrite a n v)

theorem State.serve_effect (s : State) (kind : AccessKind) (width : Width) (off : BitVec 21) :
    PortEffect s (s.serve kind width off).1 :=
  s.serve_cases kind width off .same .refuse (fun r v => .reg r v) (fun c w v h hw => .ct c w v h hw)
    (fun a v h ha => .buf a _ v h ha)

theorem State.access_effect (s : State) (a : Access) : PortEffect s (s.access a).1 := by
  unfold State.access
  split
  · exact .same
  · exact s.serve_effect _ _ _

/-- What a host move can do: its script advances, the port is accessed, the answer is recorded. -/
theorem hostMove_effect {s t : State} (h : hostMove s = .next t) :
    ∃ (script : List HostItem) (answers : List Answer) (u : State),
      PortEffect { s with script := script } u ∧ t = { u with answers := answers } := by
  unfold hostMove at h
  split at h <;> cases h
  · exact ⟨s.script, s.answers, s, .same, rfl⟩
  · exact ⟨_, _, _, State.access_effect _ _, rfl⟩
  · exact ⟨_, _, _, State.access_effect _ _, rfl⟩

/-- Everything a step can do, from the state whose schedule has been used up by one place. -/
inductive StepEffect (s : State) : State → Prop where
  | completes (i : Instr) (t : State) (ha : s.nextAgent = .unit) (hb : s.busy = true) (hd : decode s.cmd = .ok i)
      (h : Completion { s with sched := s.sched.tail } i t) : StepEffect s t
  | invalid (e : Invalid) (ha : s.nextAgent = .unit) (hb : s.busy = true) (hd : decode s.cmd = .error e) :
      StepEffect s ({ s with sched := s.sched.tail }.emptyEnd 1)
  | idle (ha : s.nextAgent = .unit) (hb : s.busy = false) : StepEffect s { s with sched := s.sched.tail }
  | host (ha : s.nextAgent = .host) (script : List HostItem) (answers : List Answer) (u : State)
      (h : PortEffect { s with sched := s.sched.tail, script := script } u) :
      StepEffect s { u with answers := answers }
  | reset (ha : s.nextAgent = .platformReset) : StepEffect s { s with sched := s.sched.tail }.resetUnit

theorem step_effect {s t : State} (h : step s = .next t) : StepEffect s t := by
  unfold step at h
  cases ha : s.nextAgent <;> rw [ha] at h <;> simp only [move] at h
  · unfold unitMove at h
    split at h
    · rename_i hb
      split at h
      · rename_i i hd
        exact .completes i t ha hb hd (completion_of_exec _ h)
      · rename_i e hd
        cases h
        exact .invalid e ha hb hd
    · rename_i hb
      cases h
      exact .idle ha (by simpa using hb)
  · obtain ⟨script, answers, u, hu, rfl⟩ := hostMove_effect h
    exact .host ha script answers u hu
  · cases h
    exact .reset ha

end Sys2Proof.Machine
end

