-- ==== Sys2Proof/Tests/Slice0.lean ====
section
/-! SUPPORT. The model's own tests. Expected values come from spec/95_test_vectors.md (the vector is named) or are worked
out by hand from the rule named; words are written out from spec/30_encoding.md R90, R93. `test_witness_*` shows a
concrete state and operands that meet the hypotheses of the obligation of that name. -/

open Sys2Proof Sys2Proof.Machine

namespace Sys2Proof.Tests

/-! Small states -/

/-- The state after reset with `bytes` in BUF from offset `src` and the operand registers set. -/
def given (bytes : List Byte) (src len dst aux : Word) : State :=
  { State.reset.writeBytes src.toNat bytes with srcAddr := src, srcLen := len, dstAddr := dst, auxAddr := aux }

/-- The same, with `aab` (61 61 62) at 0 and the table of that text: `a` = 1, `b` = 0 (spec/95_test_vectors.md 1.7). -/
def withTable (bytes : List Byte) (src len dst : Word) : State :=
  { given bytes src len dst 0 with
    ctLen := [(0x61, 1), (0x62, 1)], ctCw := [(ctCwKey 0x61 0, 1), (ctCwKey 0x62 0, 0)] }

/-- The result of a next state. -/
def after (o : Host.Outcome State Fault Refusal) (p : State → Bool) : Bool :=
  match o with
  | .next t => p t
  | .fault _ => false
  | .refused _ => false

/-- A completion with error code `code` and the two counts. -/
def ended (code : Nat) (len cnt : Nat) (t : State) : Bool :=
  t.ecode.toNat == code && t.resLen.toNat == len && t.resCnt.toNat == cnt && t.done && !t.busy

/-! The three checks of a command word refuse an ill-formed one (spec/30_encoding.md R95) -/

theorem test_wellFormed_accepts : CommandFields.wellFormed ⟨0x05, true, 0⟩ = true := by decide
theorem test_wellFormed_refuses_op : CommandFields.wellFormed ⟨0x07, false, 0⟩ = false ∧
    CommandFields.opAssigned ⟨0x07, false, 0⟩ = false ∧ CommandFields.opAssigned ⟨0x14, false, 0⟩ = false := by decide
theorem test_wellFormed_refuses_rsv : CommandFields.wellFormed ⟨0x02, false, 1⟩ = false ∧
    CommandFields.rsvZero ⟨0x02, false, 1⟩ = false := by decide
theorem test_wellFormed_refuses_strict : CommandFields.wellFormed ⟨0x06, true, 0⟩ = false ∧
    CommandFields.strictAllowed ⟨0x06, true, 0⟩ = false := by decide

/-! Decoding: words written out bit by bit, RSV [31:9], S [8], OP [7:0] (spec/30_encoding.md R90, R93) -/

theorem test_decode_nop : decode 0b00000000000000000000000_0_00000000 = .ok .nop := by decide
theorem test_decode_hSynd : decode 0b00000000000000000000000_0_00000001 = .ok .hSynd := by decide
theorem test_decode_hCorrect : decode 0b00000000000000000000000_0_00000010 = .ok (.hCorrect false) ∧
    decode 0b00000000000000000000000_1_00000010 = .ok (.hCorrect true) := by decide
theorem test_decode_hEncode : decode 0b00000000000000000000000_0_00000011 = .ok (.hEncode false) ∧
    decode 0b00000000000000000000000_1_00000011 = .ok (.hEncode true) := by decide
theorem test_decode_hStrip : decode 0b00000000000000000000000_0_00000100 = .ok (.hStrip false) ∧
    decode 0b00000000000000000000000_1_00000100 = .ok (.hStrip true) := by decide
theorem test_decode_bPack : decode 0b00000000000000000000000_0_00000101 = .ok (.bPack false) ∧
    decode 0b00000000000000000000000_1_00000101 = .ok (.bPack true) := by decide
theorem test_decode_bUnpack : decode 0b00000000000000000000000_0_00000110 = .ok .bUnpack := by decide
theorem test_decode_hufBuild : decode 0b00000000000000000000000_0_00010000 = .ok .hufBuild := by decide
theorem test_decode_hufEncode : decode 0b00000000000000000000000_0_00010001 = .ok .hufEncode := by decide
theorem test_decode_hufDecode : decode 0b00000000000000000000000_0_00010010 = .ok .hufDecode := by decide
theorem test_decode_hufClear : decode 0b00000000000000000000000_0_00010011 = .ok .hufClear := by decide

/-- The invalid words of spec/95_test_vectors.md 4.1. -/
theorem test_decode_invalid :
    decode 0x00000100 = .error .strictNotAllowed ∧ decode 0x00000101 = .error .strictNotAllowed ∧
    decode 0x00000106 = .error .strictNotAllowed ∧ decode 0x00000107 = .error .reservedOp ∧
    decode 0x0000000F = .error .reservedOp ∧ decode 0x00000014 = .error .reservedOp ∧
    decode 0x000000FF = .error .reservedOp ∧ decode 0x00000200 = .error .rsvNonzero ∧
    decode 0x80000002 = .error .rsvNonzero ∧ decode 0x00000113 = .error .strictNotAllowed := by decide

/-- Every row of spec/opcode_table.json runs as the first command after reset. -/
theorem test_rows_run : ∀ w ∈ [0x00, 0x01, 0x02, 0x03, 0x04, 0x05, 0x06, 0x10, 0x11, 0x12, 0x13],
    decodeTableWord 32 w ≠ none ∧ after (step (State.reset.withFetchWord 32 w)) (fun t => t.done && !t.busy) = true := by
  decide +kernel

/-! One step of each command -/

/-- spec/40_command_execution.md R120: STATUS = 0x00000002, the rest unchanged. -/
theorem test_nop : after (exec .nop { (given [] 1 2 3 4).accept 0 with resLen := 5 }) (fun t =>
    t.statusWord == 2 && t.resLen == 5 && t.dstAddr == 3) = true := by decide

/-- spec/95_test_vectors.md 4.1: H_CORRECT with RSV bit 31 completes with STATUS 0x106 and RES 0, 0. -/
theorem test_invalid : after (step { (given [] 1 2 3 4).accept 0x80000002 with resLen := 5, haz := false }) (fun t =>
    t.statusWord == 0x106 && t.resLen == 0 && t.cmd == 0x80000002) = true := by decide

/-- spec/95_test_vectors.md 2.2: GROUP 0x4F gives HRES 0x000E314E. -/
theorem test_hSynd : after (exec .hSynd { State.reset with group := 0x4F }) (fun t =>
    t.readReg .hres == 0x000E314E && t.resLen == 0) = true := by decide

/-- spec/95_test_vectors.md 2.1: c1 and c7 flipped, GROUP 0x4C gives HRES 0x000E724E. -/
theorem test_hSynd_double : after (exec .hSynd { State.reset with group := 0x4C }) (fun t =>
    t.readReg .hres == 0x000E724E) = true := by decide

/-- spec/95_test_vectors.md C6, groups 1 and 2 only: `0011000 1011010` becomes `1011000 1011010`, position 0. -/
theorem test_hCorrect : after (exec (.hCorrect false) (given [0,0,1,1,0,0,0, 1,0,1,1,0,1,0] 0 14 0x100 0x200)) (fun t =>
    ended 0 14 1 t && t.readBytes 0x100 14 == [1,0,1,1,0,0,0, 1,0,1,1,0,1,0] &&
    t.readBytes 0x200 4 == [0, 0, 0, 0]) = true := by decide +kernel

/-- spec/95_test_vectors.md C2: length 17 in strict mode is E_MALFORMED. -/
theorem test_hCorrect_strict : after (exec (.hCorrect true) (given [] 0 17 0x100 0x200)) (fun t =>
    ended 4 0 0 t) = true := by decide

/-- spec/95_test_vectors.md E2: 6 bits, two dropped. -/
theorem test_hEncode : after (exec (.hEncode false) (given [0,1,0,0, 0,1] 0 6 0x100 0)) (fun t =>
    ended 0 7 1 t && t.readBytes 0x100 7 == [0,1,0,0,1,1,1]) = true := by decide +kernel

/-- spec/95_test_vectors.md E6: byte 0x02 at offset 3 is E_BITRANGE. -/
theorem test_hEncode_bits : after (exec (.hEncode false) (given [0,1,0,2] 0 4 0x100 0)) (fun t =>
    ended 5 0 0 t && t.buf.length == 4) = true := by decide +kernel

/-- spec/95_test_vectors.md S2: `0111001 101` gives `0111`. -/
theorem test_hStrip : after (exec (.hStrip false) (given [0,1,1,1,0,0,1, 1,0,1] 0 10 0x100 0)) (fun t =>
    ended 0 4 1 t && t.readBytes 0x100 4 == [0,1,1,1]) = true := by decide +kernel

/-- spec/95_test_vectors.md K10: 0xFFF9 + 8 > 0x10000 is E_RANGE. -/
theorem test_hStrip_range : after (exec (.hStrip false) (given [] 0xFFF9 8 0 0)) (fun t =>
    ended 2 0 0 t) = true := by decide

/-- spec/95_test_vectors.md B2: 11 bits give A5, three dropped. -/
theorem test_bPack : after (exec (.bPack false) (given [1,0,1,0,0,1,0,1, 1,1,0] 0 11 0x100 0)) (fun t =>
    ended 0 1 3 t && t.bufByte 0x100 == 0xA5) = true := by decide +kernel

/-- spec/95_test_vectors.md K14, shortened: in [0, 8) and out [1, 2) overlap. -/
theorem test_bPack_overlap : after (exec (.bPack false) (given [1,0,1,0,0,1,0,1] 0 8 1 0)) (fun t =>
    ended 3 0 0 t) = true := by decide +kernel

/-- spec/95_test_vectors.md B6: A5 gives 10100101. -/
theorem test_bUnpack : after (exec .bUnpack (given [0xA5] 0 1 0x100 0)) (fun t =>
    ended 0 8 1 t && t.readBytes 0x100 8 == [1,0,1,0,0,1,0,1]) = true := by decide +kernel

/-- spec/95_test_vectors.md K13: 8 * 0x2001 bytes do not fit. -/
theorem test_bUnpack_range : after (exec .bUnpack (given [] 0 0x2001 0x4000 0)) (fun t =>
    ended 2 0 0 t) = true := by decide

/-- spec/95_test_vectors.md 1.7: "aab". -/
theorem test_hufBuild : after (exec .hufBuild (given [0x61, 0x61, 0x62] 0 3 0 0)) (fun t =>
    ended 0 1 2 t && t.freqAt 0x61 == 2 && t.freqAt 0x62 == 1 && t.codeword 0x61 == [true] &&
    t.codeword 0x62 == [false] && t.ctLenAt 0x63 == 0 && t.ctCwAt 0xFF 7 == 0) = true := by decide +kernel

/-- spec/95_test_vectors.md 3.1: "abc", a = 10, b = 11, c = 0. -/
theorem test_hufBuild_ties : after (exec .hufBuild (given [0x61, 0x62, 0x63] 0 3 0 0)) (fun t =>
    ended 0 2 3 t && t.ctCwAt 0x61 0 == 1 && t.ctCwAt 0x62 0 == 3 && t.codeword 0x63 == [false]) = true := by
  decide +kernel

/-- spec/95_test_vectors.md 3.1: after "aab", encoding "ba" gives 01. -/
theorem test_hufEncode : after (exec .hufEncode (withTable [0x62, 0x61] 0 2 0x100)) (fun t =>
    ended 0 2 2 t && t.readBytes 0x100 2 == [0, 1]) = true := by decide +kernel

/-- spec/95_test_vectors.md 3.1: after "aab", "abc" is E_NOSYM. -/
theorem test_hufEncode_absent : after (exec .hufEncode (withTable [0x61, 0x62, 0x63] 0 3 0x100)) (fun t =>
    ended 7 0 0 t) = true := by decide +kernel

/-- spec/95_test_vectors.md D1: 110 gives 61 61 62. -/
theorem test_hufDecode : after (exec .hufDecode (withTable [1, 1, 0] 0 3 0x100)) (fun t =>
    ended 0 3 0 t && t.readBytes 0x100 3 == [0x61, 0x61, 0x62]) = true := by decide +kernel

/-- spec/95_test_vectors.md D11: x = y = 10, the least symbol wins. -/
theorem test_hufDecode_least : after (exec .hufDecode { given [1, 0] 0 2 0x100 0 with
      ctLen := [(0x78, 2), (0x79, 2)], ctCw := [(ctCwKey 0x78 0, 1), (ctCwKey 0x79 0, 1)] }) (fun t =>
    ended 0 1 0 t && t.bufByte 0x100 == 0x78) = true := by decide +kernel

/-- spec/95_test_vectors.md 3.3. -/
theorem test_hufClear : after (exec .hufClear (withTable [] 0 0 0)) (fun t =>
    ended 0 0 0 t && t.ctLenAt 0x61 == 0 && t.ctCwAt 0x61 0 == 0 && t.ctCwAt 0xFF 7 == 0) = true := by decide +kernel

/-! The port: spec/95_test_vectors.md 5.1 -/

/-- A6, A7, A8: little-endian BUF accesses. -/
theorem test_port_buf :
    let s := (State.reset.serve (.write 0x11223344) .w4 0x100010).1
    s.bufByte 0x10 = 0x44 ∧ s.bufByte 0x13 = 0x11 ∧ (s.serve .read .w2 0x100012).2 = .data 0x1122 ∧
      (s.serve .read .w2 0x100011).2 = .busError := by decide +kernel

/-- A10, A11: the CT window. -/
theorem test_port_ct :
    let s := (State.reset.serve (.write 0x000001FF) .w4 0x011840).1
    s.ctLenAt 0x61 = 0xFF ∧ (s.serve .read .w4 0x011840).2 = .data 0x000000FF ∧
      (s.serve .read .w4 0x011864).2 = .data 0 := by decide +kernel

/-- A14: a STATUS write clears DONE and HAZ and nothing else; STATUS then reads 0x404. -/
theorem test_port_status :
    (({ State.reset with done := true, haz := true, ecode := 4 }.serve (.write 0x00000F0F) .w4 0x00C).1.serve
      .read .w4 0x00C).2 = .data 0x404 := by decide +kernel

/-! Witnesses: the hypotheses of the statements can be met -/

/-- A state with the NOP command pending, the unit to move. -/
def pendingNop : State := State.reset.accept 0

/-- A state in which the host moves next, with `items` in its script, a command pending. -/
def hostTurn (items : List HostItem) : State := { State.reset.accept 1 with sched := [.host], script := items }

theorem test_witness_InvalidWordsCompleteWithBadCmd : State.reset.busy = false ∧
    (State.reset.accept 0x107).busy = true ∧ (State.reset.accept 0x107).cmd = 0x107 ∧
    ((0x107 : Word).extractLsb' 0 8).toNat = 0x07 := by decide

theorem test_witness_StepRunsThePendingCommand :
    (pendingNop.nextAgent = .unit ∧ pendingNop.busy = true ∧ decode pendingNop.cmd = .ok .nop) ∧
    ({ State.reset with sched := [.unit] }.nextAgent = .unit ∧ { State.reset with sched := [.unit] }.busy = false) := by
  decide

theorem test_witness_StepServesTheHostAccess :
    let inside := hostTurn [.access ⟨.read, .w4, 0x1FFFFC⟩]
    let outside := hostTurn [.access ⟨.read, .w4, 0x200000⟩]
    inside.nextAgent = .host ∧ inside.script = [.access ⟨.read, .w4, 0x1FFFFC⟩] ∧
    (inside.cfg.unitBase ≤ 0x1FFFFC ∧ 0x1FFFFC < inside.cfg.unitBase + 0x200000) ∧
    outside.nextAgent = .host ∧ outside.script = [.access ⟨.read, .w4, 0x200000⟩] ∧
    ¬(outside.cfg.unitBase ≤ 0x200000 ∧ 0x200000 < outside.cfg.unitBase + 0x200000) := by decide

theorem test_witness_WaitRepeatsWhileBusy : (hostTurn [.wait]).nextAgent = .host ∧ (hostTurn [.wait]).script = [.wait] ∧
    (hostTurn [.wait]).statusWord.getLsbD 0 = true := by decide

theorem test_witness_PendingCommandCompletes : (hostTurn [.wait]).busy = true ∧
    .platformReset ∉ (hostTurn [.wait]).sched := by decide

theorem test_witness_ResetAbandonsThePendingCommand :
    { pendingNop with sched := [.platformReset] }.nextAgent = .platformReset ∧
    { pendingNop with sched := [.platformReset] }.busy = true := by decide

theorem test_witness_StepKeepsInv : pendingNop.Inv ∧ step pendingNop = .next (pendingNop.complete 0) :=
  ⟨⟨⟨by decide, by decide, by decide, by decide⟩, by decide, by decide, by decide, by decide, by decide⟩, rfl⟩

theorem test_witness_PendingCommandIsUndisturbed :
    (hostTurn [.wait]).busy = true ∧ (hostTurn [.wait]).nextAgent = .host ∧
    after (step (hostTurn [.wait])) (fun t => t.busy && t.script == [.wait]) = true := by decide

/-- H_SYND changes HRES, HUF_BUILD changes FREQ and RES_LEN. -/
theorem test_witness_ResultsChangeOnlyAtCompletion :
    let synd := { State.reset.accept 1 with group := 1 }
    let build := (given [0x61] 0 1 0 0).accept 0x10
    synd.nextAgent ≠ .platformReset ∧ after (step synd) (fun t => t.hres != synd.hres) = true ∧
    build.nextAgent ≠ .platformReset ∧
    after (step build) (fun t => t.freq != build.freq && t.resLen != build.resLen) = true := by decide +kernel

/-- A completion raises DONE and IRQ; a CTRL write raises IRQ while DONE = 1. -/
theorem test_witness_InterruptComesOnlyFromCompletion :
    let masked := { State.reset with done := true, script := [writeRegItem Params.default .ctrl 1] }
    pendingNop.done = false ∧ { pendingNop with ie := true }.irq = false ∧
    after (step { pendingNop with ie := true }) (fun t => t.done && t.irq) = true ∧
    masked.irq = false ∧ after (step masked) (fun t => t.irq) = true := by decide

/-- Each kind of bus error, at the ends of its ranges: reserved offsets, a width, an alignment. -/
theorem test_witness_BusErrorsExactly :
    (∀ o ∈ [0x34, 0xFFFC, 0x14000, 0x1FFFC, 0x20400, 0xFFFFC, 0x110000, 0x1FFFFC],
      (State.reset.serve .read .w4 (BitVec.ofNat 21 o)).2 = .busError) ∧
    (∀ o ∈ [0x30, 0x10000, 0x13FFC, 0x20000, 0x203FC], (State.reset.serve .read .w2 (BitVec.ofNat 21 o)).2 = .busError) ∧
    (∀ o ∈ [0x002, 0x100002, 0x10FFFE], (State.reset.serve .read .w4 (BitVec.ofNat 21 o)).2 = .busError) ∧
    (∀ o ∈ [0x30, 0x10000, 0x13FFC], (State.reset.serve (.write 0) .w4 (BitVec.ofNat 21 o)).2 = .written) ∧
    (∀ o ∈ [0x100000, 0x10FFFF], (State.reset.serve (.write 0) .w1 (BitVec.ofNat 21 o)).2 = .written) := by decide +kernel

theorem test_witness_BusyAndIdle : pendingNop.busy = true ∧ State.reset.busy = false := by decide

/-- For `WindowsAreClosedWhileBusy`: one offset in each window. -/
theorem test_witness_WindowsAreClosedWhileBusy :
    ∀ o ∈ [0x10000, 0x13FFC, 0x20000, 0x203FC, 0x100000, 0x10FFFC],
      pendingNop.busy = true ∧ 0x34 ≤ (BitVec.ofNat 21 o).toNat ∧ pendingNop.isBusError .w4 (BitVec.ofNat 21 o) = false := by
  decide

theorem test_witness_BufAccessIsLittleEndian : State.reset.busy = false ∧ 0xFFFC < State.reset.bufBytes ∧
    0xFFFC % Width.w4.bytes = 0 ∧ 0xFFFF < State.reset.bufBytes ∧ 0xFFFF % Width.w1.bytes = 0 := by decide

/-- For `CtWindowAccess` and `FreqWindowAccess`; words 0, 8, 9 and 15 are the boundary words. -/
theorem test_witness_CtWindowAccess : State.reset.busy = false ∧ (∀ w ∈ [0, 1, 8, 9, 15], w < 16) ∧
    State.reset.MemoriesWf := ⟨rfl, by decide, ⟨by decide, by decide, by decide, by decide⟩⟩

theorem test_witness_IrqFollowsDoneAndEnable : (pendingNop.complete 0).done = true ∧ State.reset.busy = false ∧
    exec .nop pendingNop = .next (pendingNop.complete 0) := ⟨rfl, rfl, rfl⟩

/-- The checks of R116 before the output checks, and all of them. -/
abbrev inputPasses (s : State) (i : Instr) : Prop := s.InputInRange ∧ s.WholeGroups i ∧ s.BitsOnly i ∧ s.TextOk i
abbrev passes (s : State) (i : Instr) : Prop := inputPasses s i ∧ s.OutputsInRange i ∧ s.NoOverlap i

/-! For `FirstFailingCheckIsReported`, a state for each clause (spec/95_test_vectors.md K1 to K16). -/

theorem test_witness_FirstFailingCheck_invalid : (State.reset.accept 0x107).busy = true ∧
    decode (State.reset.accept 0x107).cmd = .error .reservedOp := by decide
theorem test_witness_FirstFailingCheck_range : ¬(given [] 0xFFFC 10 0x100 0x200).InputInRange := by decide
theorem test_witness_FirstFailingCheck_malformed : (given [0,0,0,2] 0 10 0x100 0x200).InputInRange ∧
    ¬(given [0,0,0,2] 0 10 0x100 0x200).WholeGroups (.hCorrect true) := by decide
theorem test_witness_FirstFailingCheck_bits : (given [0,0,0,2] 0 4 0 0).InputInRange ∧
    (given [0,0,0,2] 0 4 0 0).WholeGroups (.hCorrect false) ∧ ¬(given [0,0,0,2] 0 4 0 0).BitsOnly (.hCorrect false) := by
  decide +kernel
theorem test_witness_FirstFailingCheck_empty : (given [] 0xFFFFFFFF 0 0 0).InputInRange ∧
    (given [] 0xFFFFFFFF 0 0 0).n = 0 := by decide
theorem test_witness_FirstFailingCheck_noSym : (given [0x61] 0 1 0xFFFF0 0).InputInRange ∧
    ¬(given [0x61] 0 1 0xFFFF0 0).TextOk .hufEncode := by decide +kernel
theorem test_witness_FirstFailingCheck_outputRange : inputPasses (given [0,0,0,0] 0 4 0xFFFA 0) (.hEncode true) ∧
    ¬(given [0,0,0,0] 0 4 0xFFFA 0).OutputsInRange (.hEncode true) := by decide +kernel
theorem test_witness_FirstFailingCheck_overlap : inputPasses (given [0,0,0,0,0,0,0] 0 7 0x100 0x106) (.hCorrect true) ∧
    (given [0,0,0,0,0,0,0] 0 7 0x100 0x106).OutputsInRange (.hCorrect true) ∧
    ¬(given [0,0,0,0,0,0,0] 0 7 0x100 0x106).NoOverlap (.hCorrect true) := by decide +kernel

/-! For `ChecksPassedMeansSuccess`, a state that passes every check, for each streaming command. -/

theorem test_witness_ChecksPassed_hCorrect : passes (given [0,0,0,0,0,0,1] 0 7 0x100 0x200) (.hCorrect true) := by
  decide +kernel
theorem test_witness_ChecksPassed_hEncode : passes (given [0,0,0,1] 0 4 0x100 0) (.hEncode true) := by decide +kernel
theorem test_witness_ChecksPassed_hStrip : passes (given [0,0,0,0,0,0,1] 0 7 0x100 0) (.hStrip true) := by decide +kernel
theorem test_witness_ChecksPassed_bPack : passes (given [0,0,0,0,0,0,0,1] 0 8 0x100 0) (.bPack true) := by decide +kernel
theorem test_witness_ChecksPassed_bUnpack : passes (given [0xA5] 0 1 0x100 0) .bUnpack := by decide +kernel
theorem test_witness_ChecksPassed_hufBuild : passes (given [0x61] 0 1 0 0) .hufBuild := by decide +kernel
theorem test_witness_ChecksPassed_hufEncode : passes (withTable [0x61] 0 1 0x100) .hufEncode := by decide +kernel
theorem test_witness_ChecksPassed_hufDecode : passes (withTable [1] 0 1 0x100) .hufDecode := by decide +kernel

/-- For `BufWrittenOnlyInOutputRegions`: a decode that writes. -/
theorem test_witness_BufWrittenOnlyInOutputRegions :
    after (exec .hufDecode (withTable [1] 0 1 0x100)) (fun t => t.bufByte 0x100 == 0x61 && t.resLen == 1) = true := by
  decide +kernel

theorem test_witness_ZeroLengthInput : (given [] 0xFFFFFFFF 0 0xFFFFFFFF 0).srcLen = 0 ∧
    Instr.streams (.bPack true) = true ∧ Instr.streams .hufBuild = true := by decide

/-- For `SyndromeTableRows`: the groups of spec/95_test_vectors.md 1.1, one for each row. -/
theorem test_witness_SyndromeTableRows :
    [0x01, 0x02, 0x04, 0x08, 0x00, 0x10, 0x20, 0x40].map (fun v => (BitGroup.ofBitVec v).syn) = [1, 2, 3, 4, 0, 0, 0, 0] := by
  decide

theorem test_witness_HCorrectResult : (given [1,1,1,1,0,0,1] 0 7 0x100 0x200).BitInput true 7 ∧
    (given [1,1,1,1,0,0,1] 0 7 0x100 0x200).CorrectFits :=
  ⟨⟨by decide, by decide, by decide +kernel⟩, ⟨by decide, by decide, by decide, by decide, by decide⟩⟩

theorem test_witness_HEncodeResult : (given [0,1,0,0] 0 4 0x100 0).BitInput true 4 ∧
    (given [0,1,0,0] 0 4 0x100 0).OutputFits 7 :=
  ⟨⟨by decide, by decide, by decide +kernel⟩, ⟨by decide, by decide⟩⟩

theorem test_witness_HStripResult : (given [0,1,1,1,0,0,1] 0xFFF9 7 0 0).BitInput true 7 ∧
    (given [0,1,1,1,0,0,1] 0xFFF9 7 0 0).OutputFits 4 :=
  ⟨⟨by decide, by decide, by decide +kernel⟩, ⟨by decide, by decide⟩⟩

/-- The host's operands between the commands of `HammingRoundTrip` pass the checks: the codeword at 0x100, the corrected
group at 0x200, the data at 0x400. -/
def codecFits (strict strict2 : Bool) (s : State) : Bool :=
  after (exec (.hEncode strict) s) fun t =>
    let s2 := { t with srcAddr := t.dstAddr, srcLen := t.resLen, dstAddr := 0x200, auxAddr := 0x300 }
    decide (InRange 0x200 (7 * (s2.n / 7)) s2.bufBytes) && decide (InRange 0x300 (4 * (s2.n / 7)) s2.bufBytes) &&
    !decide (Overlap 0x100 s2.n 0x200 (7 * (s2.n / 7))) && !decide (Overlap 0x100 s2.n 0x300 (4 * (s2.n / 7))) &&
    !decide (Overlap 0x200 (7 * (s2.n / 7)) 0x300 (4 * (s2.n / 7))) &&
    after (exec (.hCorrect strict2) s2) fun u =>
      decide (InRange 0x400 (4 * (u.resLen.toNat / 7)) u.bufBytes) && u.resLen == 7 &&
      !decide (Overlap 0x200 u.resLen.toNat 0x400 (4 * (u.resLen.toNat / 7)))

/-- BUF 0100 in the strict form, and 0100 with a remainder of one bit in the plain form. -/
theorem test_witness_HammingRoundTrip :
    (given [0,1,0,0] 0 4 0x100 0).BitInput true 4 ∧ (given [0,1,0,0] 0 4 0x100 0).OutputFits 7 ∧
    codecFits true true (given [0,1,0,0] 0 4 0x100 0) = true ∧
    (given [0,1,0,0,1] 0 5 0x100 0).BitInput false 4 ∧ (given [0,1,0,0,1] 0 5 0x100 0).OutputFits 7 ∧
    codecFits false false (given [0,1,0,0,1] 0 5 0x100 0) = true :=
  ⟨⟨by decide, by decide, by decide +kernel⟩, ⟨by decide, by decide⟩, by decide +kernel,
    ⟨by decide, by decide, by decide +kernel⟩, ⟨by decide, by decide⟩, by decide +kernel⟩

theorem test_witness_BPackResult : (given [1,0,1,0,0,1,0,1, 1,1,0] 0 11 0x100 0).BitInput false 8 ∧
    (given [1,0,1,0,0,1,0,1, 1,1,0] 0 11 0x100 0).OutputFits 1 :=
  ⟨⟨by decide, by decide, by decide +kernel⟩, ⟨by decide, by decide⟩⟩

theorem test_witness_BUnpackResult : (given [0xA5] 0 1 0x100 0).InputInRange ∧ (given [0xA5] 0 1 0x100 0).OutputFits 8 :=
  ⟨by decide, ⟨by decide, by decide⟩⟩

/-- Both round trips of `PackRoundTrip`, the second command's output at 0x200: packing first, plain with a remainder and
strict without, and unpacking first. -/
theorem test_witness_PackRoundTrip :
    (given [1,0,1,0,0,1,0,1] 0 8 0x100 0).BitInput true 8 ∧ (given [1,0,1,0,0,1,0,1] 0 8 0x100 0).OutputFits 1 ∧
    (∀ p ∈ [(false, given [1,0,1,0,0,1,0,1, 1,1,0] 0 11 0x100 0), (true, given [1,0,1,0,0,1,0,1] 0 8 0x100 0)],
      after (exec (.bPack p.1) p.2) (fun t =>
        decide (InRange 0x200 (8 * t.resLen.toNat) t.bufBytes) && t.resLen == 1 &&
        !decide (Overlap 0x100 t.resLen.toNat 0x200 (8 * t.resLen.toNat))) = true) ∧
    after (exec .bUnpack (given [0xA5] 0 1 0x100 0)) (fun t =>
      decide (InRange 0x200 (t.resLen.toNat / 8) t.bufBytes) && t.resLen == 8 &&
      !decide (Overlap 0x100 t.resLen.toNat 0x200 (t.resLen.toNat / 8))) = true :=
  ⟨⟨by decide, by decide, by decide +kernel⟩, ⟨by decide, by decide⟩, by decide +kernel, by decide +kernel⟩

theorem test_witness_ExtractMinTakesTheLeast : [QueueEntry.mk (.leaf 0x61 2) 0] ≠ [] := by decide

theorem test_witness_TreeIsBuiltByLeastPairs : ([0x61, 0x61, 0x62] : List Byte) ≠ [] := by decide

/-- For `HufBuildResult` and `BuiltTableIsPrefixFree`: "aab". -/
theorem test_witness_HufBuildResult : (given [0x61, 0x61, 0x62] 0 3 0 0).InputInRange ∧
    (given [0x61, 0x61, 0x62] 0 3 0 0).n ≠ 0 ∧
    after (exec .hufBuild (given [0x61, 0x61, 0x62] 0 3 0 0)) (fun t => t.resCnt == 2) = true := by decide +kernel

theorem test_witness_OneSymbolTextGetsCodewordZero : (given [0x61, 0x61] 0 2 0 0).InputInRange ∧
    (given [0x61, 0x61] 0 2 0 0).n ≠ 0 ∧ ∀ i < 2, (given [0x61, 0x61] 0 2 0 0).bufByte (0 + i) = 0x61 := by decide +kernel

/-- The built table, and one a host loads: the codeword of `a` has 33 bits, of which bit 0 (word 0) and bit 32 (word 1)
are 1 and the rest 0 (spec/10_state.md R33). -/
theorem test_witness_HufEncodeResult :
    let s := withTable [0x62, 0x61] 0 2 0x100
    let loaded := { given [0x61] 0 1 0x100 0 with
      ctLen := [(0x61, 33)], ctCw := [(ctCwKey 0x61 0, 1), (ctCwKey 0x61 1, 1)] }
    s.InputInRange ∧ s.TextOk .hufEncode ∧ s.OutputFits (s.inputBytes.flatMap s.codeword).length ∧
    after (exec .hufEncode loaded) (fun t => t.resLen == 33 && t.bufByte 0x100 == 1 && t.bufByte 0x11F == 0 &&
      t.bufByte 0x120 == 1) = true :=
  ⟨by decide, by decide +kernel, ⟨by decide +kernel, by decide +kernel⟩, by decide +kernel⟩

theorem test_witness_HufDecodeResult : (withTable [1, 1, 0] 0 3 0x100).BitInput false 1 ∧
    (withTable [1, 1, 0] 0 3 0x100).OutputFits 3 :=
  ⟨⟨by decide, by decide, by decide +kernel⟩, ⟨by decide, by decide⟩⟩

/-- The three states of the round trip of "aa": its code at 0x100, the text again at 0x200. -/
theorem test_witness_HuffmanRoundTrip :
    (given [0x61, 0x61] 0 2 0 0).InputInRange ∧ (given [0x61, 0x61] 0 2 0 0).n ≠ 0 ∧
    after (exec .hufBuild (given [0x61, 0x61] 0 2 0 0)) (fun t =>
      let s2 := { t with dstAddr := 0x100 }
      decide (InRange 0x100 (s2.outputLength .hufEncode) s2.bufBytes) &&
      !decide (Overlap 0 s2.n 0x100 (s2.outputLength .hufEncode)) &&
      after (exec .hufEncode s2) (fun u => decide (InRange 0x200 u.resLen.toNat u.bufBytes) && u.resLen == 2 &&
        !decide (Overlap 0x100 u.resLen.toNat 0x200 u.resLen.toNat))) = true := by decide +kernel

theorem test_witness_HufClearEmptiesTheTable : (given [1, 0] 0 2 0x100 0).InputInRange ∧ (given [1, 0] 0 2 0x100 0).n ≠ 0 ∧
    (given [1, 0] 0 2 0x100 0).BitInput false 1 ∧ (given [1, 0] 0 2 0x100 0).OutputFits 2 :=
  ⟨by decide, by decide, ⟨by decide, by decide, by decide +kernel⟩, ⟨by decide, by decide⟩⟩

/-- The one-symbol table of `a` with the bits 010 and 00 (spec/95_test_vectors.md D5, D6). -/
theorem test_witness_DegenerateDecode :
    let table := fun (bits : List Byte) (n : Word) =>
      { given bits 0 n 0x100 0 with ctLen := [(0x61, 1)], ctCw := [(ctCwKey 0x61 0, 0)] }
    (table [0, 1, 0] 3).BitInput false 1 ∧ (table [0, 1, 0] 3).OutputFits 3 ∧
    (table [0, 1, 0] 3).codeword 0x61 = [false] ∧ (∀ d, d ≠ 0x61 → (table [0, 1, 0] 3).ctLenAt d = 0) ∧
    (table [0, 1, 0] 3).bitAt 0 = false ∧ (table [0, 1, 0] 3).bitAt 1 = true ∧
    (table [0, 0] 2).BitInput false 1 ∧ (table [0, 0] 2).OutputFits 2 ∧
    (∀ i < 2, (table [0, 0] 2).bitAt (0 + i) = false) :=
  ⟨⟨by decide, by decide, by decide +kernel⟩, ⟨by decide, by decide⟩, by decide +kernel, by decide +kernel,
    by decide +kernel, by decide +kernel, ⟨by decide, by decide, by decide +kernel⟩, ⟨by decide, by decide⟩,
    by decide +kernel⟩

end Sys2Proof.Tests
end

/- The state family (spec/10_state.md): the invariant under every step, who writes which part of the state, and the
register accesses of the host. The structure stands before every theorem on purpose: adding it waits until the kernel
has checked the tests above, so that their checks and these proofs do not hold threads at the same time. -/

namespace Sys2Proof.Machine

/-- HRES, FREQ and the result registers are unchanged (spec/10_state.md R30, R31, R35). -/
structure SameResults (s t : State) : Prop where
  hres : t.hres = s.hres
  freq : t.freq = s.freq
  resLen : t.resLen = s.resLen
  resCnt : t.resCnt = s.resCnt

variable {s t : State}

/-! What a register write and a CT write can do -/

/-- Everything a register write can do: nothing, a refusal while BUSY = 1, the rules of CTRL and STATUS, acceptance,
or new operands (spec/10_state.md R23 to R31). -/
theorem State.writeReg_cases {P : State → Prop} (s : State) (r : Reg) (v : Word) (same : P s)
    (refuse : s.busy = true → P s.refuse) (ctrl : P (s.writeCtrl v)) (status : P (s.writeStatus v))
    (accept : s.busy = false → P (s.accept v))
    (operands : ∀ src len dst aux group, s.busy = false →
      P { s with srcAddr := src, srcLen := len, dstAddr := dst, auxAddr := aux, group := group }) :
    P (s.writeReg r v) := by
  have guarded : ∀ u, (s.busy = false → P u) → P (if s.busy then s.refuse else u) := fun u hu => by
    split
    · exact refuse ‹_›
    · exact hu (Bool.eq_false_iff.2 ‹_›)
  cases r with
  | id | caps | resLen | resCnt | hres => exact same
  | ctrl => exact ctrl
  | status => exact status
  | cmd => exact guarded _ accept
  | srcAddr | srcLen | dstAddr | auxAddr | group => exact guarded _ (operands _ _ _ _ _)

/-- Everything a write of a CT word can do (spec/20_memory.md R66). -/
theorem State.writeCt_cases {P : State → Prop} (s : State) (c : Byte) (w : Nat) (v : Word) (same : P s)
    (len : ∀ b, P { s with ctLen := Memory.write (some 0) s.ctLen c.toNat b })
    (codeword : ∀ k < 2048, P { s with ctCw := Memory.write none s.ctCw k v }) : P (s.writeCt c w v) := by
  unfold State.writeCt
  split
  · exact len _
  · split
    · exact codeword _ (by have := c.isLt; unfold ctCwKey; omega)
    · exact same

/-! The canonical form of the memories under each operation -/

/-- The canonical form speaks of the four memories and the size of BUF alone. -/
theorem State.MemoriesWf.congr (h : s.MemoriesWf) (hcfg : t.cfg = s.cfg := by rfl) (hbuf : t.buf = s.buf := by rfl)
    (hlen : t.ctLen = s.ctLen := by rfl) (hcw : t.ctCw = s.ctCw := by rfl) (hfreq : t.freq = s.freq := by rfl) :
    t.MemoriesWf where
  buf := by rw [hbuf, State.bufBytes, hcfg]; exact h.buf
  ctLen := hlen ▸ h.ctLen
  ctCw := hcw ▸ h.ctCw
  freq := hfreq ▸ h.freq

theorem State.MemoriesWf.writeBytes (h : s.MemoriesWf) (a : Nat) (bytes : List Byte)
    (hr : InRange a bytes.length s.bufBytes) : (s.writeBytes a bytes).MemoriesWf :=
  ⟨Memory.wf_writeBytes _ _ _ _ h.buf (hr.imp_left List.length_eq_zero_iff.1), h.ctLen, h.ctCw, h.freq⟩

theorem State.MemoriesWf.replaceTable (h : s.MemoriesWf) (text : List Byte) (codes : List (Byte × List Bool)) :
    (s.replaceTable text codes).MemoriesWf where
  buf := h.buf
  ctLen := by rw [State.replaceTable_ctLen]; exact Memory.wf_tabulate _ _ _
  ctCw := by rw [State.replaceTable_ctCw]; exact Memory.wf_tabulate _ _ _
  freq := by rw [State.replaceTable_freq]; exact Memory.wf_tabulate _ _ _

theorem State.MemoriesWf.clearTable (h : s.MemoriesWf) : s.clearTable.MemoriesWf where
  buf := h.buf
  ctLen := Memory.wf_nil _ _
  ctCw := by rw [State.clearTable_ctCw]; exact Memory.wf_tabulate _ _ _
  freq := h.freq

/-! The invariant under each operation -/

/-- The schedule, the script and the recorded answers are no part of the invariant. -/
theorem State.Inv.agents (h : s.Inv) (sched : List Agent) (script : List HostItem) (answers : List Answer) :
    { s with sched := sched, script := script, answers := answers }.Inv :=
  ⟨h.memories.congr, h.ecode, h.pending, h.hres, h.resLen, h.resCnt⟩

theorem State.afterReset_inv (p : Params) (epoch : Nat) : (State.afterReset p epoch).Inv :=
  ⟨⟨Memory.wf_nil _ _, Memory.wf_nil _ _, Memory.wf_nil _ _, Memory.wf_nil _ _⟩, Nat.zero_le _,
    nofun, ⟨BitVec.getLsbD_zero, BitVec.getLsbD_zero, BitVec.getLsbD_zero⟩, Nat.zero_le _, Nat.zero_le _⟩

theorem State.resetUnit_inv (s : State) : s.resetUnit.Inv := (State.afterReset_inv s.cfg (s.epoch + 1)).agents _ _ _

theorem State.Inv.refuse (h : s.Inv) : s.refuse.Inv :=
  ⟨h.memories.congr, h.ecode, h.pending, h.hres, h.resLen, h.resCnt⟩

theorem State.Inv.writeCtrl (h : s.Inv) (v : Word) : (s.writeCtrl v).Inv :=
  ⟨h.memories.congr, h.ecode, h.pending, h.hres, h.resLen, h.resCnt⟩

theorem State.Inv.writeStatus (h : s.Inv) (v : Word) : (s.writeStatus v).Inv :=
  ⟨h.memories.congr, h.ecode, fun hb => ⟨by simp [(h.pending hb).1], (h.pending hb).2⟩, h.hres, h.resLen, h.resCnt⟩

theorem State.Inv.accept (h : s.Inv) (w : Word) : (s.accept w).Inv :=
  ⟨h.memories.congr, Nat.zero_le _, fun _ => ⟨rfl, rfl⟩, h.hres, h.resLen, h.resCnt⟩

theorem State.Inv.writeReg (h : s.Inv) (r : Reg) (v : Word) : (s.writeReg r v).Inv :=
  s.writeReg_cases (P := State.Inv) r v h (fun _ => h.refuse) (h.writeCtrl v) (h.writeStatus v) (fun _ => h.accept v)
    (fun _ _ _ _ _ _ => ⟨h.memories.congr, h.ecode, h.pending, h.hres, h.resLen, h.resCnt⟩)

/-- Memories that stay canonical are all of the invariant that a write of BUF, CT or FREQ can break. -/
theorem State.Inv.withMemories (h : s.Inv) (buf : List Host.Cell) (ctLen : Memory Byte) (ctCw freq : Memory Word)
    (hm : { s with buf := buf, ctLen := ctLen, ctCw := ctCw, freq := freq }.MemoriesWf) :
    { s with buf := buf, ctLen := ctLen, ctCw := ctCw, freq := freq }.Inv :=
  ⟨hm, h.ecode, h.pending, h.hres, h.resLen, h.resCnt⟩

theorem State.Inv.writeBytes (h : s.Inv) (a : Nat) (bytes : List Byte) (hr : InRange a bytes.length s.bufBytes) :
    (s.writeBytes a bytes).Inv :=
  h.withMemories _ _ _ _ (h.memories.writeBytes a bytes hr)

theorem State.Inv.writeCt (h : s.Inv) (c : Byte) (w : Nat) (v : Word) : (s.writeCt c w v).Inv := by
  obtain ⟨hbuf, hlen, hcw, hfreq⟩ := h.memories
  exact s.writeCt_cases (P := State.Inv) c w v h
    (fun _ => h.withMemories _ _ _ _ ⟨hbuf, Memory.wf_write _ _ _ _ _ hlen c.isLt, hcw, hfreq⟩)
    (fun _ hk => h.withMemories _ _ _ _ ⟨hbuf, hlen, Memory.wf_write _ _ _ _ _ hcw hk, hfreq⟩)

theorem State.Inv.replaceTable (h : s.Inv) (text : List Byte) (codes : List (Byte × List Bool)) :
    (s.replaceTable text codes).Inv :=
  h.withMemories _ _ _ _ (h.memories.replaceTable text codes)

theorem State.Inv.clearTable (h : s.Inv) : s.clearTable.Inv := h.withMemories _ _ _ _ h.memories.clearTable

theorem State.Inv.setResults (h : s.Inv) (len cnt : Nat) (hlen : len ≤ s.bufBytes) (hcnt : cnt ≤ s.bufBytes) :
    (s.setResults len cnt).Inv :=
  ⟨h.memories.congr, h.ecode, h.pending, h.hres, (s.toNat_count len hlen).trans_le hlen,
    (s.toNat_count cnt hcnt).trans_le hcnt⟩

theorem State.Inv.complete (h : s.Inv) (code : BitVec 4) (hcode : code.toNat ≤ 8) : (s.complete code).Inv :=
  ⟨h.memories.congr, hcode, nofun, h.hres, h.resLen, h.resCnt⟩

/-- Every error code is one of R230's (spec/60_exceptions.md R230). -/
theorem ErrorCode.code_le (e : ErrorCode) : e.code.toNat ≤ 8 := by cases e <;> decide

theorem State.Inv.emptyEnd (h : s.Inv) (code : BitVec 4) (hcode : code.toNat ≤ 8) : (s.emptyEnd code).Inv :=
  (h.setResults 0 0 (Nat.zero_le _) (Nat.zero_le _)).complete code hcode

/-- The reserved bits of an HRES word are 0 (spec/10_state.md R30). -/
theorem BitGroup.hres_reserved (c : BitGroup) :
    c.hres.getLsbD 7 = false ∧ c.hres.getLsbD 11 = false ∧ c.hres.getLsbD 15 = false := by
  simp only [BitGroup.hres, BitVec.getLsbD_append]
  simp

theorem State.Inv.withHres (h : s.Inv) (c : BitGroup) : { s with hres := c.hres }.Inv :=
  ⟨h.memories.congr, h.ecode, h.pending, c.hres_reserved, h.resLen, h.resCnt⟩

/-- A text has at most 256 distinct symbols. -/
theorem leaves_length_le (text : List Byte) : (leaves text).length ≤ 256 :=
  (List.length_filterMap_le _ _).trans symbols_length.le

/-! The invariant under each kind of step -/

theorem PortEffect.inv (h : s.Inv) (hp : PortEffect s t) : t.Inv := by
  cases hp with
  | same => exact h
  | refuse _ => exact h.refuse
  | reg r v => exact h.writeReg r v
  | ct c w v _ _ => exact h.writeCt c w v
  | buf a n v _ ha => exact h.writeBytes a _ (.inr (by simpa using ha))

/-- A smaller region at the same offset is in range where the larger one is. -/
theorem InRange.mono {a n m size : Nat} (h : InRange a n size) (hm : m ≤ n) : InRange a m size := by
  unfold InRange at *
  omega

theorem InRange.le {a n size : Nat} (h : InRange a n size) : n ≤ size := by
  unfold InRange at h
  omega

theorem Completion.inv {i : Instr} (h : s.Inv) (hc : Completion s i t) : t.Inv := by
  cases hc with
  | error _ e hs => exact h.emptyEnd _ e.code_le
  | nop => exact h.complete 0 (by decide)
  | hSynd => exact (h.withHres _).complete 0 (by decide)
  | output _ bytes len cnt code hs hi hnc hn hr hb hdec hlen hcnt hcode =>
    have hcode : code.toNat ≤ 8 := by rcases hcode with rfl | ⟨-, rfl⟩ <;> decide
    exact ((h.writeBytes _ bytes (hr.mono hb)).setResults len cnt (hlen.trans hr.le) (hcnt.trans hn)).complete
      code hcode
  | hCorrect strict bits positions hn hb hp ho =>
    have hbits : (bits.map byteOfBit).length ≤ 7 * (s.n / 7) := by simp [hb]
    have hpos : (positionBytes positions).length ≤ 4 * (s.n / 7) := by rw [positionBytes_length]; omega
    exact (((h.writeBytes _ _ (ho.outputInRange.mono hbits)).writeBytes _ _ (ho.positionsInRange.mono hpos)).setResults
      _ _ ho.outputInRange.le ((hp.trans (Nat.div_le_self _ _)).trans hn)).complete 0 (by decide)
  | hufBuild hn hpos =>
    have hsize := s.bufBytes_ge
    have hmax := (s.replaceTable s.inputBytes (codesOfText s.inputBytes)).maxCtLen_le
    have hleaves := leaves_length_le s.inputBytes
    exact ((h.replaceTable _ _).setResults _ _ (by simp; omega) (by simp; omega)).complete 0 (by decide)
  | hufClear =>
    exact (h.clearTable.setResults 0 0 (Nat.zero_le _) (Nat.zero_le _)).complete 0 (by decide)

/-- Settles O12: the memories are empty and every register is 0. -/
theorem resetSatisfiesInv : Obligations.ResetSatisfiesInv := State.afterReset_inv

/-- Settles O13: each of the effects a step can have keeps the invariant. -/
theorem stepKeepsInv : Obligations.StepKeepsInv := by
  intro s t h hstep
  have hnow := h.agents s.sched.tail s.script s.answers
  cases step_effect hstep with
  | completes i t ha hb hd hc => exact hc.inv hnow
  | invalid e ha hb hd => exact hnow.emptyEnd 1 (by decide)
  | idle ha hb => exact hnow
  | host ha script answers u hu =>
    exact (hu.inv (h.agents s.sched.tail script s.answers)).agents u.sched u.script answers
  | reset ha => exact State.resetUnit_inv _

/-! A pending command and the host -/

/-- While a command is pending, a host access changes at most CTRL.IE, DONE and HAZ (spec/20_memory.md R70, R71). -/
theorem PortEffect.eq_of_busy (hp : PortEffect s t) (hb : s.busy = true) :
    ∃ ie done haz, t = { s with ie := ie, done := done, haz := haz } := by
  have idle {P : Prop} (hi : s.busy = false) : P := absurd (hb.symm.trans hi) (by decide)
  cases hp with
  | same => exact ⟨s.ie, s.done, s.haz, rfl⟩
  | refuse _ => exact ⟨s.ie, s.done, true, rfl⟩
  | ct c w v hi _ => exact idle hi
  | buf a n v hi _ => exact idle hi
  | reg r v =>
    exact s.writeReg_cases (P := fun u => ∃ ie done haz, u = { s with ie := ie, done := done, haz := haz }) r v
      ⟨_, _, _, rfl⟩ (fun _ => ⟨_, _, _, rfl⟩) ⟨_, _, _, rfl⟩ ⟨_, _, _, rfl⟩ idle (fun _ _ _ _ _ => idle)

/-- Settles O14: what a host access can change while a command is pending is none of these. -/
theorem pendingCommandIsUndisturbed : Obligations.PendingCommandIsUndisturbed := by
  intro s t hb ha hstep
  rw [step, ha] at hstep
  obtain ⟨script, answers, u, hu, rfl⟩ := hostMove_effect hstep
  obtain ⟨ie, done, haz, rfl⟩ := hu.eq_of_busy hb
  exact ⟨hb, rfl, rfl, rfl, rfl, rfl, rfl, rfl, ⟨rfl, rfl, rfl⟩, rfl, rfl, rfl, rfl, rfl, rfl⟩

/-! Who writes the results -/

/-- No host access writes HRES, FREQ or a result register (spec/20_memory.md R66, R71). -/
theorem PortEffect.sameResults (hp : PortEffect s t) : SameResults s t := by
  cases hp with
  | same => exact ⟨rfl, rfl, rfl, rfl⟩
  | refuse _ => exact ⟨rfl, rfl, rfl, rfl⟩
  | buf a n v _ _ => exact ⟨rfl, rfl, rfl, rfl⟩
  | ct c w v _ _ =>
    exact s.writeCt_cases (P := SameResults s) c w v ⟨rfl, rfl, rfl, rfl⟩ (fun _ => ⟨rfl, rfl, rfl, rfl⟩)
      (fun _ _ => ⟨rfl, rfl, rfl, rfl⟩)
  | reg r v =>
    exact s.writeReg_cases (P := SameResults s) r v ⟨rfl, rfl, rfl, rfl⟩ (fun _ => ⟨rfl, rfl, rfl, rfl⟩)
      ⟨rfl, rfl, rfl, rfl⟩ ⟨rfl, rfl, rfl, rfl⟩ (fun _ => ⟨rfl, rfl, rfl, rfl⟩)
      (fun _ _ _ _ _ _ => ⟨rfl, rfl, rfl, rfl⟩)

/-- Every completion ends the pending command (spec/40_command_execution.md R114). -/
theorem Completion.busy_eq {i : Instr} (hc : Completion s i t) : t.busy = false := by cases hc <;> rfl

/-- H_SYND alone writes HRES (spec/10_state.md R30). -/
theorem Completion.hres_eq {i : Instr} (hc : Completion s i t) (hi : i ≠ .hSynd) : t.hres = s.hres := by
  cases hc with
  | hSynd => exact absurd rfl hi
  | error => rfl
  | nop | output | hCorrect | hufBuild | hufClear => simp

/-- HUF_BUILD alone writes FREQ (spec/10_state.md R35). -/
theorem Completion.freq_eq {i : Instr} (hc : Completion s i t) (hi : i ≠ .hufBuild) : t.freq = s.freq := by
  cases hc with
  | hufBuild => exact absurd rfl hi
  | error => rfl
  | nop | hSynd | output | hCorrect | hufClear => simp

/-- Settles O15: a host move keeps the results, and at a completion the command says which of them it writes. -/
theorem resultsChangeOnlyAtCompletion : Obligations.ResultsChangeOnlyAtCompletion := by
  intro s t hnoreset hstep
  have unchanged {u : State} {P Q R : Prop} (h : SameResults s u) :
      (u.hres ≠ s.hres → P) ∧ (u.freq ≠ s.freq → Q) ∧ (u.resLen ≠ s.resLen ∨ u.resCnt ≠ s.resCnt → R) :=
    ⟨fun hne => absurd h.hres hne, fun hne => absurd h.freq hne,
      fun hne => hne.elim (absurd h.resLen) (absurd h.resCnt)⟩
  cases step_effect hstep with
  | completes i t ha hb hd hc =>
    refine ⟨fun hne => ⟨ha, hb, ?_⟩, fun hne => ⟨ha, hb, ?_⟩, fun _ => ⟨ha, hb, hc.busy_eq⟩⟩
    · rw [hd, Decidable.not_not.1 fun hi => hne (hc.hres_eq (mt (congrArg Except.ok) hi))]
    · rw [hd, Decidable.not_not.1 fun hi => hne (hc.freq_eq (mt (congrArg Except.ok) hi))]
  | invalid e ha hb hd => exact ⟨fun hne => absurd rfl hne, fun hne => absurd rfl hne, fun _ => ⟨ha, hb, rfl⟩⟩
  | idle ha hb => exact unchanged ⟨rfl, rfl, rfl, rfl⟩
  | host ha script answers u hu =>
    obtain ⟨hhres, hfreq, hlen, hcnt⟩ := hu.sameResults
    exact unchanged ⟨hhres, hfreq, hlen, hcnt⟩
  | reset ha => exact absurd ha hnoreset

/-! The register accesses of the host -/

/-- A field below reserved bits reads as its value (spec/10_state.md section 2). -/
theorem zeros_append_eq_ofNat (n w : Nat) (x : BitVec w) : 0#n ++ x = BitVec.ofNat (n + w) x.toNat := by
  apply BitVec.eq_of_toNat_eq
  rw [zeros_append, BitVec.toNat_ofNat, Nat.mod_eq_of_lt]
  exact x.isLt.trans_le (Nat.pow_le_pow_right (by decide) (Nat.le_add_left _ _))

/-- The CAPS word from its fields, as a sum and as a bitwise or (spec/10_state.md R24). -/
theorem State.capsWord_eq (s : State) : s.capsWord = BitVec.ofNat 32 (255 * 2 ^ 8 + s.cfg.bufLog2) ∧
    s.capsWord = 0x0000FF00 ||| BitVec.ofNat 32 s.cfg.bufLog2 := by
  have hge := s.cfg.bufLog2_ge
  have hle := s.cfg.bufLog2_le
  unfold State.capsWord
  generalize s.cfg.bufLog2 = k at hge hle
  interval_cases k <;> exact ⟨rfl, rfl⟩

/-- The STATUS word as a number (spec/10_state.md R25). -/
theorem State.statusWord_eq (s : State) :
    s.statusWord = BitVec.ofNat 32 (s.busy.toNat + 2 * s.done.toNat + 4 * (decide (s.ecode ≠ 0)).toNat +
      8 * s.haz.toNat + 2 ^ 8 * s.ecode.toNat) := by
  have herr : s.err = decide (s.ecode ≠ 0) := by simp [State.err, bne, BEq.beq]
  unfold State.statusWord
  rw [herr]
  generalize s.ecode = e
  cases s.busy <;> cases s.done <;> cases s.haz <;> revert e <;> decide

/-- The CTRL word as a number (spec/10_state.md R26). -/
theorem State.ctrlWord_eq (s : State) : s.ctrlWord = BitVec.ofNat 32 s.ie.toNat := by
  unfold State.ctrlWord
  cases s.ie <;> rfl

/-- Settles O18: each offset is a register's, and each register's word is the number of its fields. -/
theorem registerReadsReturnTheRegister : Obligations.RegisterReadsReturnTheRegister := by
  intro s
  refine ⟨s.serve_read_reg .id, ?_, ?_, ?_, s.serve_read_reg .cmd, s.serve_read_reg .srcAddr, s.serve_read_reg .srcLen,
    s.serve_read_reg .dstAddr, s.serve_read_reg .auxAddr, s.serve_read_reg .resLen, s.serve_read_reg .resCnt, ?_, ?_⟩
  · rw [← s.capsWord_eq.1]; exact s.serve_read_reg .caps
  · rw [← s.ctrlWord_eq]; exact s.serve_read_reg .ctrl
  · rw [← s.statusWord_eq]; exact s.serve_read_reg .status
  · exact (s.serve_read_reg .group).trans (by rw [State.readReg, zeros_append_eq_ofNat])
  · exact (s.serve_read_reg .hres).trans (by rw [State.readReg, zeros_append_eq_ofNat])

/-- Settles O10: the fields of every register but ID and CAPS are 0, and a word is the number of its fields. -/
theorem resetLeavesTheStatedValues : Obligations.ResetLeavesTheStatedValues := by
  intro p epoch
  refine ⟨fun r hid hcaps => ?_, rfl, (State.capsWord_eq _).2, rfl, rfl, rfl, fun _ => rfl⟩
  cases r with
  | id => exact absurd rfl hid
  | caps => exact absurd rfl hcaps
  | ctrl => exact State.ctrlWord_eq _
  | status => exact State.statusWord_eq _
  | group => exact zeros_append_eq_ofNat 25 7 0
  | hres => exact zeros_append_eq_ofNat 12 20 0
  | cmd | srcAddr | srcLen | dstAddr | auxAddr | resLen | resCnt => rfl

/-- The update of a flag that a write of 1 clears (spec/10_state.md R25). -/
theorem and_not_eq_ite (flag clear : Bool) : (flag && !clear) = if clear then false else flag := by
  cases clear <;> simp

/-- Settles O19: both registers take a write at any time, by their own write rules. -/
theorem statusAndCtrlWrites : Obligations.StatusAndCtrlWrites := by
  intro s v
  refine ⟨?_, s.serve_write_reg .ctrl v⟩
  rw [← and_not_eq_ite, ← and_not_eq_ite]
  exact s.serve_write_reg .status v

/-- A write of CMD, an operand register or GROUP while a command is pending is refused (spec/20_memory.md R71). -/
theorem State.serve_write_of_busy (hb : s.busy = true) (r : Reg) (v : Word)
    (hr : r ∈ [Reg.cmd, .srcAddr, .srcLen, .dstAddr, .auxAddr, .group]) :
    s.serve (.write v) .w4 (BitVec.ofNat 21 r.offset) = ({ s with haz := true }, .written) := by
  rw [State.serve_write_reg]
  congr 1
  fin_cases hr <;> exact if_pos hb

/-- Settles O20: BUSY alone decides between acceptance and refusal. -/
theorem commandAcceptance : Obligations.CommandAcceptance := by
  intro s w
  refine ⟨fun hb => ?_, fun hb => State.serve_write_of_busy hb .cmd w (by decide), s.serve_read_reg .cmd⟩
  have hw : s.writeReg .cmd w = s.accept w := if_neg (by simp [hb])
  exact (s.serve_write_reg .cmd w).trans (by rw [hw, State.accept])

/-- Settles O21: BUSY alone decides between the new operand and refusal. -/
theorem operandRegisterWrites : Obligations.OperandRegisterWrites := by
  intro s v
  refine ⟨fun hb => ?_, fun hb off hoff => ?_⟩
  · have hidle : ¬s.busy = true := Bool.eq_false_iff.1 hb
    have write (r : Reg) {u : State} (hu : s.writeReg r v = u) :
        s.serve (.write v) .w4 (BitVec.ofNat 21 r.offset) = (u, .written) := hu ▸ s.serve_write_reg r v
    exact ⟨write .srcAddr (if_neg hidle), write .srcLen (if_neg hidle), write .dstAddr (if_neg hidle),
      write .auxAddr (if_neg hidle), write .group (if_neg hidle)⟩
  · have hoff : off ∈ [Reg.srcAddr, .srcLen, .dstAddr, .auxAddr, .group].map fun r => BitVec.ofNat 21 r.offset := hoff
    obtain ⟨r, hr, rfl⟩ := List.mem_map.1 hoff
    exact State.serve_write_of_busy hb r v (List.mem_cons_of_mem _ hr)

end Sys2Proof.Machine

/- The memory family (spec/20_memory.md): bus errors, the three windows while a command is pending and while none is,
the read-only registers, and the host step that carries an access to the port. -/

namespace Sys2Proof.Machine

variable {s : State} {width : Width} {off : BitVec 21} {p : PortTarget}

/-! Bus errors -/

/-- The port offsets R64 reserves (spec/20_memory.md R64). -/
def State.ReservedOffset (s : State) (o : Nat) : Prop :=
  (0x34 ≤ o ∧ o ≤ 0xFFFF) ∨ (0x14000 ≤ o ∧ o ≤ 0x1FFFF) ∨ (0x20400 ≤ o ∧ o ≤ 0xFFFFF) ∨ 0x100000 + s.bufBytes ≤ o

/-- A width is not allowed at a reserved offset, nor below BUF unless it is 4 (spec/20_memory.md R64, R67). -/
theorem State.allows_eq_false_iff (s : State) (width : Width) (off : BitVec 21) :
    (s.target off).allows width = false ↔ s.ReservedOffset off.toNat ∨ (off.toNat < 0x100000 ∧ width ≠ .w4) := by
  have wordOnly (hp : (s.target off).allows width = (width == .w4)) (hres : ¬s.ReservedOffset off.toNat)
      (hlow : off.toNat < 0x100000) : (s.target off).allows width = false ↔
        s.ReservedOffset off.toNat ∨ (off.toNat < 0x100000 ∧ width ≠ .w4) := by
    simp [hp, hres, hlow]
  have unreserved (h : off.toNat < 0x34 ∨ (0x10000 ≤ off.toNat ∧ off.toNat < 0x14000) ∨
      (0x20000 ≤ off.toNat ∧ off.toNat < 0x20400) ∨ (0x100000 ≤ off.toNat ∧ off.toNat < 0x100000 + s.bufBytes)) :
      ¬s.ReservedOffset off.toNat := by
    unfold State.ReservedOffset
    omega
  rcases s.target_cases off with ⟨hlt, _, ht⟩ | ⟨hlo, hhi, _, _, -, ht⟩ | ⟨hlo, hhi, _, ht⟩ | ⟨hlo, hhi, ht⟩ | ⟨ht, hres⟩
  · exact wordOnly (by rw [ht]; rfl) (unreserved (by omega)) (by omega)
  · exact wordOnly (by rw [ht]; rfl) (unreserved (by omega)) (by omega)
  · exact wordOnly (by rw [ht]; rfl) (unreserved (by omega)) (by omega)
  · have hres := unreserved (by omega)
    simp [ht, PortTarget.allows, hres, hlo]
  · have hres : s.ReservedOffset off.toNat := hres
    simp [ht, PortTarget.allows, hres]

theorem State.isBusError_iff (s : State) (width : Width) (off : BitVec 21) :
    s.isBusError width off = true ↔ (s.target off).allows width = false ∨ off.toNat % width.bytes ≠ 0 := by
  simp [State.isBusError]

theorem State.serve_of_isBusError (h : s.isBusError width off = true) (kind : AccessKind) :
    s.serve kind width off = (s, .busError) :=
  if_pos h

/-- Every other access is answered with data or as a write. -/
theorem State.serve_eq_busError_iff (s : State) (kind : AccessKind) (width : Width) (off : BitVec 21) :
    (s.serve kind width off).2 = .busError ↔ s.isBusError width off = true := by
  refine ⟨fun h => ?_, fun h => by rw [State.serve_of_isBusError h]⟩
  by_contra herr
  unfold State.serve at h
  rw [if_neg herr] at h
  cases kind <;> simp only at h <;> split at h <;> cases h

/-- Settles O17: a reserved offset and a wrong width are what the target does not allow, the rest is alignment. -/
theorem busErrorsExactly : Obligations.BusErrorsExactly := by
  intro s kind width off o reserved faulty
  have hfaulty : s.isBusError width off = true ↔ faulty := by
    rw [State.isBusError_iff, State.allows_eq_false_iff, or_assoc]
    rfl
  exact ⟨(s.serve_eq_busError_iff kind width off).trans hfaulty, fun h => State.serve_of_isBusError (hfaulty.2 h) kind⟩

/-! The windows while a command is pending -/

/-- What a pending command closes to the host: each access that falls in a window and is no bus error. -/
theorem State.serve_of_busy_window (hb : s.busy = true) (herr : s.isBusError width off = false)
    (hwin : (s.target off).isWindow = true) (v : Word) :
    s.serve .read width off = (s.refuse, .data 0) ∧ s.serve (.write v) width off = (s.refuse, .written) := by
  simp [State.serve, herr, hb, hwin]

/-- From offset 0x34 on, what is no bus error falls in a window (spec/20_memory.md R64). -/
theorem State.isWindow_of_not_isBusError (hoff : 0x34 ≤ off.toNat) (herr : s.isBusError width off = false) :
    (s.target off).isWindow = true := by
  rcases s.target_cases off with ⟨hlt, -⟩ | ⟨-, -, _, _, -, ht⟩ | ⟨-, -, _, ht⟩ | ⟨-, -, ht⟩ | ⟨ht, -⟩
  · omega
  · rw [ht]; rfl
  · rw [ht]; rfl
  · rw [ht]; rfl
  · simp [State.isBusError, ht, PortTarget.allows] at herr

/-- Settles O23: an offset past the registers that is no bus error lies in a window. -/
theorem windowsAreClosedWhileBusy : Obligations.WindowsAreClosedWhileBusy := fun _ _ _ v hb hoff herr =>
  State.serve_of_busy_window hb herr (State.isWindow_of_not_isBusError hoff herr) v

/-! The windows while no command is pending -/

theorem State.isBusError_of_target (ht : s.target off = p) (hw : p.allows width = true)
    (hal : off.toNat % width.bytes = 0) : s.isBusError width off = false := by
  simp [State.isBusError, ht, hw, hal]

/-- An aligned read of an allowed width while BUSY = 0 (spec/20_memory.md R69). -/
theorem State.serve_read_of_idle (hb : s.busy = false) (ht : s.target off = p) (hw : p.allows width = true)
    (hal : off.toNat % width.bytes = 0) : s.serve .read width off = (s, .data (s.readTarget width p)) := by
  simp [State.serve, State.isBusError_of_target ht hw hal, hb, ht]

/-- An aligned write of an allowed width while BUSY = 0 (spec/20_memory.md R69). -/
theorem State.serve_write_of_idle (hb : s.busy = false) (ht : s.target off = p) (hw : p.allows width = true)
    (hal : off.toNat % width.bytes = 0) (v : Word) :
    s.serve (.write v) width off = (s.writeTarget width v p, .written) := by
  simp [State.serve, State.isBusError_of_target ht hw hal, hb, ht]

/-- An offset is aligned where its number is: 2 ^ 21 is a multiple of every width. -/
theorem Width.toNat_ofNat_mod_bytes (width : Width) (o : Nat) :
    (BitVec.ofNat 21 o).toNat % width.bytes = o % width.bytes := by
  rw [BitVec.toNat_ofNat, Nat.mod_mod_of_dvd]
  cases width <;> decide

/-- Settles O26: every counter's offset is aligned and leads to it. -/
theorem freqWindowAccess : Obligations.FreqWindowAccess := by
  intro s c v hb off
  have hal : off.toNat % Width.w4.bytes = 0 := by
    rw [Width.toNat_ofNat_mod_bytes, Width.bytes]
    omega
  exact ⟨State.serve_read_of_idle hb (s.target_freq c) rfl hal, State.serve_write_of_idle hb (s.target_freq c) rfl hal v⟩

/-- A value of a width's bytes fits a data word. -/
theorem Width.pow_bytes_le (width : Width) : 256 ^ width.bytes ≤ 2 ^ 32 := by
  cases width <;> decide

theorem State.memRead_lt (s : State) (a n : Nat) : s.memRead a n < 256 ^ n := by
  simpa [State.memRead] using leValue_lt (s.readBytes a n)

/-- The bytes of the value read, lowest offset first (spec/20_memory.md R72). -/
theorem State.ofNat_memRead_div (s : State) (a n k : Nat) (hk : k < n) :
    BitVec.ofNat 8 (s.memRead a n / 256 ^ k) = s.bufByte (a + k) := by
  have hlen : k < (s.readBytes a n).length := by simpa using hk
  rw [State.memRead, ofNat_leValue_div _ _ hlen, State.readBytes_getElem]

/-- A byte of the value written, lowest offset first (spec/20_memory.md R72). -/
theorem State.bufByte_memWrite_inside (s : State) (a n v k : Nat) (hk : k < n) :
    (s.memWrite a n v).bufByte (a + k) = BitVec.ofNat 8 (v / 256 ^ k) := by
  have hlen : k < (leBytes n v).length := by simpa using hk
  rw [State.memWrite, State.bufByte_writeBytes_inside _ _ _ _ hlen, leBytes_getElem]

theorem State.sameOutside_memWrite (s : State) (a n v : Nat) : SameOutside s (s.memWrite a n v) a n :=
  fun x hx => State.bufByte_writeBytes_outside _ _ _ x (by simpa using hx)

/-- Settles O24: the access is MemRead or MemWrite of the width's bytes. -/
theorem bufAccessIsLittleEndian : Obligations.BufAccessIsLittleEndian := by
  intro s width a v hb ha haligned off
  have hal : off.toNat % width.bytes = 0 := by
    rw [Width.toNat_ofNat_mod_bytes]
    cases width <;> simp only [Width.bytes] at haligned ⊢ <;> omega
  have hd : (BitVec.ofNat 32 (s.memRead a width.bytes)).toNat = s.memRead a width.bytes := by
    rw [BitVec.toNat_ofNat, Nat.mod_eq_of_lt ((s.memRead_lt a _).trans_le width.pow_bytes_le)]
  refine ⟨⟨_, State.serve_read_of_idle hb (s.target_buf a ha) rfl hal, ?_⟩,
    ⟨_, State.serve_write_of_idle hb (s.target_buf a ha) rfl hal v, rfl, ?_⟩⟩
  · rw [State.readTarget, hd]
    exact ⟨s.memRead_lt a _, fun k hk => s.ofNat_memRead_div a _ k hk⟩
  · exact ⟨fun k hk => s.bufByte_memWrite_inside a _ _ k hk, s.sameOutside_memWrite a _ _⟩

/-- CT_LEN after a write of any word of an entry (spec/20_memory.md R66). -/
theorem State.ctLenAt_writeCt (h : Memory.rising s.ctLen = true) (c : Byte) (w : Nat) (v : Word) (d : Byte) :
    (s.writeCt c w v).ctLenAt d = if d = c ∧ w = 0 then BitVec.ofNat 8 v.toNat else s.ctLenAt d := by
  unfold State.writeCt
  split
  · next hw =>
    simp only [State.ctLenAt, Memory.find_write_some _ _ _ _ _ h, BitVec.toNat_inj, hw, and_true]
    rfl
  · next hw =>
    have hother : ¬(d = c ∧ w = 0) := fun hd => hw hd.2
    rw [if_neg hother]
    split <;> rfl

/-- Words of two entries have the same key only where they are the same word of the same entry. -/
theorem ctCwKey_inj {c d : Byte} {i j : Nat} (hi : i < 8) (hj : j < 8) :
    ctCwKey d j = ctCwKey c i ↔ d = c ∧ j = i := by
  rw [← BitVec.toNat_inj, ctCwKey, ctCwKey]
  omega

/-- CT_CW after a write of any word of an entry (spec/20_memory.md R66). -/
theorem State.ctCwAt_writeCt (s : State) (c : Byte) (w : Nat) (v : Word) (d : Byte) (j : Nat) (hj : j < 8) :
    (s.writeCt c w v).ctCwAt d j = if d = c ∧ w = j + 1 then v else s.ctCwAt d j := by
  unfold State.writeCt
  split
  · rw [if_neg (by omega)]; rfl
  · split
    · have hkey : ctCwKey d j = ctCwKey c (w - 1) ↔ d = c ∧ w = j + 1 := by
        have hword : j = w - 1 ↔ w = j + 1 := by omega
        rw [ctCwKey_inj (by omega) hj, hword]
      simp only [State.ctCwAt, Memory.find_write_none, hkey]
      split <;> rfl
    · rw [if_neg (by omega)]

/-- A write of a CT word touches CT alone. -/
theorem State.writeCt_frame (s : State) (c : Byte) (w : Nat) (v : Word) :
    s.writeCt c w v = { s with ctLen := (s.writeCt c w v).ctLen, ctCw := (s.writeCt c w v).ctCw } :=
  s.writeCt_cases (P := fun t => t = { s with ctLen := t.ctLen, ctCw := t.ctCw }) c w v rfl (fun _ => rfl) fun _ _ => rfl

/-- Settles O25: every word's offset is aligned and leads to it, and its rules are those of `readCt` and `writeCt`. -/
theorem ctWindowAccess : Obligations.CtWindowAccess := by
  intro s c w v hb hw hwf off
  have hal : off.toNat % Width.w4.bytes = 0 := by
    rw [Width.toNat_ofNat_mod_bytes, Width.bytes]
    omega
  have hrising : Memory.rising s.ctLen = true := (Bool.and_eq_true_iff.1 hwf.ctLen).1
  refine ⟨?_, _, State.serve_write_of_idle hb (s.target_ct c w hw) rfl hal v, s.writeCt_frame c w v,
    State.ctLenAt_writeCt hrising c w v, s.ctCwAt_writeCt c w v⟩
  rw [State.serve_read_of_idle hb (s.target_ct c w hw) rfl hal, State.readTarget, State.readCt, zeros_append_eq_ofNat]

/-! The read-only registers and the host's step -/

/-- Settles O22: each offset is a read-only register's, whose write rule keeps the state. -/
theorem readOnlyRegisterWritesAreIgnored : Obligations.ReadOnlyRegisterWritesAreIgnored := by
  intro s v off hoff
  have hoff : off ∈ [Reg.id, .caps, .resLen, .resCnt, .hres].map fun r => BitVec.ofNat 21 r.offset := hoff
  obtain ⟨r, hr, rfl⟩ := List.mem_map.1 hoff
  rw [State.serve_write_reg]
  fin_cases hr <;> rfl

/-- The step of a host whose next statement is an access. -/
theorem step_of_host_access {a : Access} {rest : List HostItem} (ha : s.nextAgent = .host)
    (hs : s.script = .access a :: rest) :
    step s = .next ({ s with sched := s.sched.tail, script := rest }.hostAccess a) := by
  simp only [step, ha, move, hostMove, hs]

/-- Settles O6: the address decides whether the access reaches the port. -/
theorem stepServesTheHostAccess : Obligations.StepServesTheHostAccess := by
  intro s a rest ha hs t
  rw [step_of_host_access ha hs]
  refine ⟨fun hin => ?_, fun hout => ?_⟩
  · have haccess : t.access a = t.serve a.kind a.width (BitVec.ofNat 21 (a.addr - s.cfg.unitBase)) := by
      rw [State.access, portOffset, if_pos hin]
    rw [State.hostAccess, haccess]
  · have haccess : t.access a = (t, .notReached) := by
      rw [State.access, portOffset, if_neg hout]
    rw [State.hostAccess, haccess]

end Sys2Proof.Machine

/- The encoding family (spec/30_encoding.md): which words decode to a command and to which, the masks of the opcode map,
the completion of an invalid word, and the host's `wait`. -/

namespace Sys2Proof

variable {op : Nat} {f : Bool → Instr} {i : Instr} {row : Instr ⊕ (Bool → Instr)}

/-! A command's word is its row's operation code and S -/

theorem rowInstr_inl_eq_ok (j : Instr) (strict : Bool) : rowInstr (.inl j) strict = .ok i ↔ strict = false ∧ j = i := by
  cases strict <;> simp [rowInstr]

theorem rowInstr_inr_eq_ok (f : Bool → Instr) (strict : Bool) : rowInstr (.inr f) strict = .ok i ↔ f strict = i := by
  simp [rowInstr]

/-- The word of a command without a strict form is its operation code (spec/30_encoding.md R93). -/
theorem encode_of_opcodeRow_inl (h : opcodeRow op = some (.inl i)) : encode i = BitVec.ofNat 32 op := by
  have hrow := opcodeRow_eq_some op _ h
  simp only [Sum.inl.injEq, reduceCtorEq, and_false, false_or] at hrow
  rcases hrow with ⟨rfl, rfl⟩ | ⟨rfl, rfl⟩ | ⟨rfl, rfl⟩ | ⟨rfl, rfl⟩ | ⟨rfl, rfl⟩ | ⟨rfl, rfl⟩ | ⟨rfl, rfl⟩ <;> rfl

/-- The word of a command with a strict form is its operation code and S in bit 8 (spec/30_encoding.md R92, R93). -/
theorem encode_of_opcodeRow_inr (h : opcodeRow op = some (.inr f)) (strict : Bool) :
    encode (f strict) = BitVec.ofNat 32 (op + 256 * strict.toNat) := by
  have hrow := opcodeRow_eq_some op _ h
  simp only [Sum.inr.injEq, reduceCtorEq, and_false, false_or, or_false] at hrow
  rcases hrow with ⟨rfl, rfl⟩ | ⟨rfl, rfl⟩ | ⟨rfl, rfl⟩ | ⟨rfl, rfl⟩ <;> cases strict <;> rfl

theorem encode_of_rowInstr {strict : Bool} (hrow : opcodeRow op = some row) (hi : rowInstr row strict = .ok i) :
    encode i = BitVec.ofNat 32 (op + 256 * strict.toNat) := by
  cases row with
  | inl j =>
    obtain ⟨rfl, rfl⟩ := (rowInstr_inl_eq_ok j strict).1 hi
    exact encode_of_opcodeRow_inl hrow
  | inr f =>
    obtain rfl := (rowInstr_inr_eq_ok f strict).1 hi
    exact encode_of_opcodeRow_inr hrow strict

/-- A command's word is the only word that decodes to it. -/
theorem decode_eq_ok_iff_eq_encode (w : Word) (i : Instr) : decode w = .ok i ↔ w = encode i := by
  refine ⟨fun h => ?_, fun h => h ▸ decode_encode i⟩
  obtain ⟨row, hrow, hrsv, hi⟩ := (decode_eq_ok w i).1 h
  exact (eq_of_fieldsOf w hrsv).trans (encode_of_rowInstr hrow hi).symm

/-- Settles O1: a word that decodes has RSV 0, so it is its OP and S side by side, and these are the command's word. -/
theorem decodeEncodeAgree : Obligations.DecodeEncodeAgree := decode_eq_ok_iff_eq_encode

/-! The masks of the opcode map -/

theorem strictBit_getLsbD (strict : Bool) (k : Nat) : (strictBit strict).getLsbD k = (strict && decide (8 = k)) := by
  have hbit : strictBit true = BitVec.twoPow 32 8 := rfl
  cases strict with
  | false => exact BitVec.getLsbD_zero
  | true => rw [hbit, BitVec.getLsbD_twoPow, decide_eq_true (by decide : 8 < 32)]

/-- The mask of a row with a strict form leaves out bit 8 and nothing else (spec/30_encoding.md R93). -/
theorem and_strictMask_getLsbD (w : Word) (k : Nat) :
    (w &&& 0xFFFFFEFF).getLsbD k = (w.getLsbD k && !decide (8 = k)) := by
  have hmask : (0xFFFFFEFF : Word) = ~~~BitVec.twoPow 32 8 := rfl
  rw [hmask, BitVec.getLsbD_and, BitVec.getLsbD_not, BitVec.getLsbD_twoPow]
  by_cases hk : k < 32
  · simp [hk]
  · simp [BitVec.getLsbD_of_ge w k (by omega)]

theorem and_strictMask_or_strictBit (w : Word) : w &&& 0xFFFFFEFF ||| strictBit (w.getLsbD 8) = w := by
  refine BitVec.eq_of_getLsbD_eq fun k _ => ?_
  rw [BitVec.getLsbD_or, and_strictMask_getLsbD, strictBit_getLsbD]
  by_cases hk : 8 = k
  · cases hk; simp
  · simp [hk]

theorem or_strictBit_and_strictMask (m : Word) (strict : Bool) (hm : m.getLsbD 8 = false) :
    (m ||| strictBit strict) &&& 0xFFFFFEFF = m := by
  refine BitVec.eq_of_getLsbD_eq fun k _ => ?_
  rw [and_strictMask_getLsbD, BitVec.getLsbD_or, strictBit_getLsbD]
  by_cases hk : 8 = k
  · cases hk; rw [hm]; simp
  · simp [hk]

/-- The words of a row with a strict form: the row's `match` under the mask, S in bit 8 (spec/30_encoding.md R93). -/
theorem eq_or_strictBit_iff (w m : Word) (strict : Bool) (hm : m.getLsbD 8 = false) :
    w = m ||| strictBit strict ↔ w &&& 0xFFFFFEFF = m ∧ w.getLsbD 8 = strict := by
  constructor
  · rintro rfl
    refine ⟨or_strictBit_and_strictMask m strict hm, ?_⟩
    rw [BitVec.getLsbD_or, hm, strictBit_getLsbD]
    simp
  · rintro ⟨rfl, rfl⟩
    exact (and_strictMask_or_strictBit w).symm

/-- A row without a strict form has the full mask: its one word is its `match` (spec/30_encoding.md R93). -/
theorem decode_eq_ok_iff_fullMask (w : Word) (i : Instr) : decode w = .ok i ↔ w &&& 0xFFFFFFFF = encode i := by
  have hmask : (0xFFFFFFFF : Word) = BitVec.allOnes 32 := rfl
  rw [decode_eq_ok_iff_eq_encode, hmask, BitVec.and_allOnes]

/-- Settles O2: the one word of each command, read under its row's mask. -/
theorem opcodeMapSelectsRows : Obligations.OpcodeMapSelectsRows := by
  intro w
  have strictRow (m : Word) (hm : m.getLsbD 8 = false) (f : Bool → Instr)
      (hf : ∀ strict, encode (f strict) = m ||| strictBit strict) (strict : Bool) :
      decode w = .ok (f strict) ↔ w &&& 0xFFFFFEFF = m ∧ w.getLsbD 8 = strict := by
    rw [decode_eq_ok_iff_eq_encode, hf, eq_or_strictBit_iff w m strict hm]
  exact ⟨decode_eq_ok_iff_fullMask w .nop, decode_eq_ok_iff_fullMask w .hSynd,
    strictRow 0x00000002 rfl .hCorrect fun _ => rfl, strictRow 0x00000003 rfl .hEncode fun _ => rfl,
    strictRow 0x00000004 rfl .hStrip fun _ => rfl, strictRow 0x00000005 rfl .bPack fun _ => rfl,
    decode_eq_ok_iff_fullMask w .bUnpack, decode_eq_ok_iff_fullMask w .hufBuild,
    decode_eq_ok_iff_fullMask w .hufEncode, decode_eq_ok_iff_fullMask w .hufDecode,
    decode_eq_ok_iff_fullMask w .hufClear⟩

/-- Settles O4: the words of four commands, and one with S on a command that does not allow it. -/
theorem sampleWordsDecode : Obligations.SampleWordsDecode :=
  ⟨decode_encode .nop, decode_encode (.hCorrect true), decode_encode (.bPack false), decode_encode .hufDecode, rfl⟩

/-! Which words are invalid -/

/-- The assigned operation codes are those of the opcode map (spec/30_encoding.md R93, R95). -/
theorem CommandFields.opAssigned_iff (f : CommandFields) :
    f.opAssigned = true ↔ ∃ row, opcodeRow f.op.toNat = some row := by
  have hdef : f.opAssigned = true ↔ f.op.toNat ≤ 0x06 ∨ (0x10 ≤ f.op.toNat ∧ f.op.toNat ≤ 0x13) := by
    simp [CommandFields.opAssigned]
  rw [hdef]
  generalize f.op.toNat = op
  constructor
  · rintro (h | ⟨hlo, hhi⟩) <;> interval_cases op <;> exact ⟨_, rfl⟩
  · rintro ⟨row, hrow⟩
    have hop := opcodeRow_eq_some op row hrow
    omega

/-- S is allowed where the row has a command for it (spec/30_encoding.md R92, R93, R95). -/
theorem CommandFields.strictAllowed_iff (f : CommandFields) (hrow : opcodeRow f.op.toNat = some row) :
    f.strictAllowed = true ↔ ∃ i, rowInstr row f.s = .ok i := by
  have hdef : f.strictAllowed = true ↔ f.s = false ∨ (0x02 ≤ f.op.toNat ∧ f.op.toNat ≤ 0x05) := by
    simp [CommandFields.strictAllowed]
  have hop := opcodeRow_eq_some _ row hrow
  rw [hdef]
  cases row with
  | inl j =>
    simp only [reduceCtorEq, and_false, false_or, Sum.inl.injEq] at hop
    have hout : ¬(0x02 ≤ f.op.toNat ∧ f.op.toNat ≤ 0x05) := by omega
    simp [rowInstr_inl_eq_ok, hout]
  | inr g =>
    simp only [reduceCtorEq, and_false, false_or, or_false, Sum.inr.injEq] at hop
    have hin : 0x02 ≤ f.op.toNat ∧ f.op.toNat ≤ 0x05 := by omega
    simp [rowInstr_inr_eq_ok, hin]

/-- The decoder accepts exactly the well-formed words (spec/30_encoding.md R95). -/
theorem wellFormed_fieldsOf_iff (w : Word) : (fieldsOf w).wellFormed = true ↔ ∃ i, decode w = .ok i := by
  have hdef : (fieldsOf w).wellFormed = true ↔
      (fieldsOf w).opAssigned = true ∧ (fieldsOf w).rsv = 0 ∧ (fieldsOf w).strictAllowed = true := by
    simp [CommandFields.wellFormed, CommandFields.rsvZero, and_assoc]
  rw [hdef]
  constructor
  · rintro ⟨hassigned, hrsv, hstrict⟩
    obtain ⟨row, hrow⟩ := (fieldsOf w).opAssigned_iff.1 hassigned
    obtain ⟨i, hi⟩ := ((fieldsOf w).strictAllowed_iff hrow).1 hstrict
    exact ⟨i, (decode_eq_ok w i).2 ⟨row, hrow, hrsv, hi⟩⟩
  · rintro ⟨i, h⟩
    obtain ⟨row, hrow, hrsv, hi⟩ := (decode_eq_ok w i).1 h
    exact ⟨(fieldsOf w).opAssigned_iff.2 ⟨row, hrow⟩, hrsv, ((fieldsOf w).strictAllowed_iff hrow).2 ⟨i, hi⟩⟩

theorem exists_decode_eq_error_iff (w : Word) : (∃ e, decode w = .error e) ↔ (fieldsOf w).wellFormed = false := by
  rw [← Bool.not_eq_true, wellFormed_fieldsOf_iff]
  cases decode w <;> simp

/-- The fields of an ill-formed word, condition by condition (spec/30_encoding.md R95). -/
theorem CommandFields.wellFormed_eq_false_iff (f : CommandFields) : f.wellFormed = false ↔
    (0x07 ≤ f.op.toNat ∧ f.op.toNat ≤ 0x0F) ∨ 0x14 ≤ f.op.toNat ∨ f.rsv ≠ 0 ∨
      (f.s = true ∧ ¬(0x02 ≤ f.op.toNat ∧ f.op.toNat ≤ 0x05)) := by
  have hop : f.opAssigned = false ↔ (0x07 ≤ f.op.toNat ∧ f.op.toNat ≤ 0x0F) ∨ 0x14 ≤ f.op.toNat := by
    simp only [CommandFields.opAssigned, Bool.or_eq_false_iff, Bool.and_eq_false_iff, decide_eq_false_iff_not]
    omega
  have hrsv : f.rsvZero = false ↔ f.rsv ≠ 0 := by simp [CommandFields.rsvZero]
  have hs : f.strictAllowed = false ↔ f.s = true ∧ ¬(0x02 ≤ f.op.toNat ∧ f.op.toNat ≤ 0x05) := by
    simp [CommandFields.strictAllowed]
  rw [CommandFields.wellFormed, Bool.and_eq_false_iff, Bool.and_eq_false_iff, hop, hrsv, hs, or_assoc, or_assoc]

end Sys2Proof

namespace Sys2Proof.Machine

variable {s : State}

/-- The completion of a pending word that decodes to no command (spec/40_command_execution.md R115). -/
theorem unitMove_of_decode_eq_error (hb : s.busy = true) (h : ∃ e, decode s.cmd = .error e) :
    unitMove s = .next (s.emptyEnd 1) := by
  obtain ⟨e, he⟩ := h
  simp only [unitMove, hb, if_true, he, completeInvalid, raise_finish, ErrorCode.code]

/-- Settles O3: the decoder refuses what is not well-formed, acceptance does not look at the word, and the completion
of a refused word is E_BADCMD's. -/
theorem invalidWordsCompleteWithBadCmd : Obligations.InvalidWordsCompleteWithBadCmd := by
  intro w op invalid
  have hinvalid : (∃ e, decode w = .error e) ↔ invalid :=
    (exists_decode_eq_error_iff w).trans (fieldsOf w).wellFormed_eq_false_iff
  refine ⟨hinvalid, fun s hb => ?_, fun s hb hw h => unitMove_of_decode_eq_error hb (hw ▸ hinvalid.2 h)⟩
  obtain ⟨haccept, -, -⟩ := commandAcceptance s w
  rw [haccept hb]
  exact ⟨rfl, rfl, rfl⟩

/-! The host's `wait` -/

/-- A 4-byte read of a register by its system address (spec/20_memory.md R63, R69). -/
theorem State.access_read_reg (s : State) (r : Reg) :
    s.access ⟨.read, .w4, s.cfg.unitBase + r.offset⟩ = (s, .data (s.readReg r)) := by
  have hr : r.offset < 0x200000 := by cases r <;> decide
  rw [State.access, portOffset_base s.cfg r.offset hr]
  exact s.serve_read_reg r

theorem State.hostAccess_read_reg (s : State) (r : Reg) :
    s.hostAccess ⟨.read, .w4, s.cfg.unitBase + r.offset⟩ = { s with answers := .data (s.readReg r) :: s.answers } := by
  rw [State.hostAccess, State.access_read_reg]

/-- The step of a host whose next statement is `wait` (spec/30_encoding.md R99). -/
theorem step_of_host_wait {rest : List HostItem} (ha : s.nextAgent = .host) (hs : s.script = .wait :: rest) :
    step s = .next ({ s with sched := s.sched.tail, script := if s.busy then .wait :: rest else rest }.hostAccess
      ⟨.read, .w4, s.cfg.unitBase + Reg.status.offset⟩) := by
  simp only [step, ha, move, hostMove, hs]

/-- Settles O7: the bit 0 that the read of STATUS returns is BUSY. -/
theorem waitRepeatsWhileBusy : Obligations.WaitRepeatsWhileBusy := by
  intro s rest ha hs
  rw [step_of_host_wait ha hs, State.statusWord_busy]
  exact congrArg Host.Outcome.next (State.hostAccess_read_reg _ .status)

end Sys2Proof.Machine

/- The command family (spec/40_command_execution.md): the pending command's step, the order of the checks, the frame of
every command and the empty input. -/

namespace Sys2Proof.Machine

variable {s t : State} {i : Instr}

/-- Settles O5: the unit's move looks at BUSY first and at the decoded word next. -/
theorem stepRunsThePendingCommand : Obligations.StepRunsThePendingCommand := by
  intro s i ha
  refine ⟨fun hb hd => ?_, fun hb => ?_⟩
  · simp only [step, ha, move, unitMove, hb, if_true, hd]
  · simp [step, ha, move, unitMove, hb]

/-- Settles O33: NOP's word is the only one that decodes to it, and its completion touches the flags alone. -/
theorem nopOnlyRaisesDone : Obligations.NopOnlyRaisesDone :=
  ⟨fun w => decode_eq_ok_iff_eq_encode w .nop, fun _ => rfl⟩

/-! The frame of a command -/

/-- No command writes a control or operand register, HAZ, a parameter or another agent's state
(spec/40_command_execution.md R114). -/
theorem Completion.sameControl (hc : Completion s i t) : SameControl s t := by
  cases hc with
  | error => constructor <;> rfl
  | nop | hSynd | output | hCorrect | hufBuild | hufClear => constructor <;> simp

/-- Every completion sets DONE (spec/40_command_execution.md R114). -/
theorem Completion.done_eq (hc : Completion s i t) : t.done = true := by cases hc <;> rfl

/-- HUF_BUILD and HUF_CLEAR alone write CT (spec/10_state.md R33, spec/43_huffman.md R190, R220). -/
theorem Completion.ct_eq (hc : Completion s i t) (hbuild : i ≠ .hufBuild) (hclear : i ≠ .hufClear) :
    t.ctLen = s.ctLen ∧ t.ctCw = s.ctCw := by
  cases hc with
  | hufBuild => exact absurd rfl hbuild
  | hufClear => exact absurd rfl hclear
  | error | nop | hSynd | output | hCorrect => exact ⟨rfl, rfl⟩

/-- NOP and H_SYND leave the result registers alone (spec/40_command_execution.md R118). -/
theorem Completion.results_eq (hc : Completion s i t) (hi : i = .nop ∨ i = .hSynd) :
    t.resLen = s.resLen ∧ t.resCnt = s.resCnt := by
  rcases hi with rfl | rfl
  · cases hc with
    | nop => exact ⟨rfl, rfl⟩
    | error _ _ hs | output _ _ _ _ _ hs => cases hs
  · cases hc with
    | hSynd => exact ⟨rfl, rfl⟩
    | error _ _ hs | output _ _ _ _ _ hs => cases hs

/-- Settles O30: each part of the frame is a property of every completion. -/
theorem commandFrame : Obligations.CommandFrame := by
  intro i s
  obtain ⟨t, hexec, hc⟩ := exec_completion s i
  exact ⟨t, hexec, hc.sameControl, hc.busy_eq, hc.done_eq, hc.hres_eq, hc.freq_eq, hc.ct_eq, hc.results_eq⟩

/-! The bytes of BUF a command writes -/

/-- A byte outside both output regions is unchanged (spec/40_command_execution.md R119). -/
theorem Completion.bufByte_outside (hc : Completion s i t) (x : Nat)
    (hout : x < s.dstAddr.toNat ∨ s.dstAddr.toNat + s.outputLength i ≤ x)
    (hpos : x < s.auxAddr.toNat ∨ s.auxAddr.toNat + s.positionsLength i ≤ x) : t.bufByte x = s.bufByte x := by
  cases hc with
  | error | hSynd => rfl
  | nop | hufBuild | hufClear => simp
  | output _ bytes len cnt code hs hi hnc hn hr hb =>
    exact s.bufByte_writeBytes_outside _ bytes x (by omega)
  | hCorrect strict bits positions hn hb hp =>
    simp only [State.outputLength, State.positionsLength] at hout hpos
    rw [State.complete_bufByte, State.setResults_bufByte,
      State.bufByte_writeBytes_outside _ _ _ _ (by rw [positionBytes_length]; omega),
      State.bufByte_writeBits_outside _ _ _ _ (by omega)]

/-- HUF_DECODE writes the bytes RES_LEN counts and no other (spec/40_command_execution.md R119). -/
theorem Completion.hufDecode_sameOutside (hc : Completion s .hufDecode t) :
    SameOutside s t s.dstAddr.toNat t.resLen.toNat := by
  cases hc with
  | error => exact fun _ _ => rfl
  | output _ bytes len cnt code hs hi hnc hn hr hb hdec hlen =>
    obtain rfl := hdec rfl
    intro x hx
    rw [State.complete_resLen, State.setResults_resLen, s.toNat_count _ (hlen.trans hr.le)] at hx
    exact s.bufByte_writeBytes_outside _ bytes x hx

/-- H_CORRECT leaves the unused tail of its position region alone: the region is disjoint from D, and RES_CNT counts the
words written (spec/40_command_execution.md R119). -/
theorem Completion.hCorrect_positions_tail {strict : Bool} (hc : Completion s (.hCorrect strict) t) (x : Nat)
    (hlo : s.auxAddr.toNat + 4 * t.resCnt.toNat ≤ x) (hhi : x < s.auxAddr.toNat + 4 * (s.n / 7)) :
    t.bufByte x = s.bufByte x := by
  cases hc with
  | error => rfl
  | output _ _ _ _ _ _ _ hnc => exact absurd rfl (hnc strict)
  | hCorrect _ bits positions hn hb hp ho =>
    have hcount := (hp.trans (Nat.div_le_self _ _)).trans hn
    rw [State.complete_resCnt, State.setResults_resCnt, s.toNat_count _ hcount] at hlo
    have hdisjoint := ho.outputPositions
    rw [State.complete_bufByte, State.setResults_bufByte,
      State.bufByte_writeBytes_outside _ _ _ _ (by rw [positionBytes_length]; omega),
      State.bufByte_writeBits_outside _ _ _ _ (by omega)]

/-- A command with no output region writes no byte (spec/40_command_execution.md R119). -/
theorem Completion.buf_eq (hc : Completion s i t) (hi : i = .nop ∨ i = .hSynd ∨ i = .hufBuild ∨ i = .hufClear) :
    t.buf = s.buf := by
  cases hc with
  | error => rfl
  | nop | hSynd | hufBuild | hufClear => simp
  | output _ _ _ _ _ hs hbuild =>
    rcases hi with rfl | rfl | rfl | rfl
    · cases hs
    · cases hs
    · exact absurd rfl hbuild
    · cases hs
  | hCorrect => simp at hi

/-- Settles O31: each clause is a property of every completion. -/
theorem bufWrittenOnlyInOutputRegions : Obligations.BufWrittenOnlyInOutputRegions := by
  intro i s t hexec
  have hc := completion_of_exec s hexec
  refine ⟨hc.bufByte_outside, ?_, ?_, hc.buf_eq⟩
  · rintro rfl
    exact hc.hufDecode_sameOutside
  · rintro strict rfl
    exact hc.hCorrect_positions_tail

/-! An empty region is in range and overlaps no other (spec/40_command_execution.md R117) -/

theorem inRange_zero (a size : Nat) : InRange a 0 size := .inl rfl

theorem not_overlap_zero (a n b : Nat) : ¬Overlap a n b 0 := fun h => absurd h.2.1 (lt_irrefl 0)

/-! The order of the checks -/

theorem check_of_true {p : Prop} [Decidable p] (h : p) (e : ErrorCode) (s : State) (rest : Unit → CommandEnd) :
    check (decide p) e s rest = rest () := check_passed _ _ _ _ (decide_eq_true h)

theorem check_of_false {p : Prop} [Decidable p] (h : ¬p) (e : ErrorCode) (s : State) (rest : Unit → CommandEnd) :
    check (decide p) e s rest = raise e s := check_failed _ _ _ _ (decide_eq_false h)

theorem check_eq_decide {p : Prop} [Decidable p] {b : Bool} (h : b = true ↔ p) (e : ErrorCode) (s : State)
    (rest : Unit → CommandEnd) : check b e s rest = check (decide p) e s rest := by
  rw [Bool.eq_iff_iff.2 (h.trans decide_eq_true_iff.symm)]

/-- Check steps 2 to 5 of R116, for every streaming command. -/
def State.inputChecked (s : State) (i : Instr) (rest : Unit → CommandEnd) : CommandEnd :=
  check (decide s.InputInRange) .range s fun _ =>
  check (decide (s.WholeGroups i)) .malformed s fun _ =>
  check (decide (s.BitsOnly i)) .bitRange s fun _ =>
  check (decide (i = .hufBuild → s.n ≠ 0)) .empty s fun _ =>
  check (decide (i = .hufEncode → ∀ j < s.n, s.ctLenAt (s.bufByte (s.srcAddr.toNat + j)) ≠ 0)) .noSym s rest

/-- Check steps 6 and 7 of R116, for every streaming command. -/
def State.outputChecked (s : State) (i : Instr) (rest : Unit → CommandEnd) : CommandEnd :=
  check (decide (s.OutputsInRange i)) .range s fun _ =>
  check (decide (s.NoOverlap i)) .overlap s rest

variable (s)

theorem State.inputChecked_passed (hr : s.InputInRange) (hw : s.WholeGroups i) (hb : s.BitsOnly i) (ht : s.TextOk i)
    (rest : Unit → CommandEnd) : s.inputChecked i rest = rest () := by
  rw [State.inputChecked, check_of_true hr, check_of_true hw, check_of_true hb, check_of_true ht.1, check_of_true ht.2]

/-- The input checks of a bit-array command are steps 2 to 5, the last of which looks at no bit array. -/
theorem withInputBits_eq_inputChecked (hbits : Instr.readsBits i = true) (rest : List Bool → CommandEnd) :
    withInputBits (Instr.isStrict i) (Instr.groupSize i) s rest =
      s.inputChecked i fun _ => rest (s.bitsAt s.srcAddr.toNat s.n) := by
  have htext : s.TextOk i := by constructor <;> (rintro rfl; cases hbits)
  by_cases hr : s.InputInRange
  · by_cases hw : s.WholeGroups i
    · by_cases hb : s.BitsOnly i
      · rw [withInputBits_passed _ _ _ _ ⟨hr, hw, hb hbits⟩, s.inputChecked_passed hr hw hb htext]
      · rw [withInputBits_bitRange _ _ _ _ hr hw (by simpa [State.BitsOnly, hbits] using hb), State.inputChecked,
          check_of_true hr, check_of_true hw, check_of_false hb]
    · obtain ⟨hs, hn⟩ := Classical.not_imp.1 hw
      rw [hs, withInputBits_malformed _ _ _ hr hn, State.inputChecked, check_of_true hr, check_of_false hw]
  · rw [withInputBits_range _ _ _ _ hr, State.inputChecked, check_of_false hr]

/-- The output checks of a command with no position region. -/
theorem withOutput_eq_outputChecked (hp : s.positionsLength i = 0) (rest : Unit → CommandEnd) :
    withOutput (s.outputLength i) s rest = s.outputChecked i rest := by
  have hrange : InRange s.dstAddr.toNat (s.outputLength i) s.bufBytes ↔ s.OutputsInRange i := by
    rw [State.OutputsInRange, hp, and_iff_left (inRange_zero _ _)]
  have hover : ¬Overlap s.srcAddr.toNat s.n s.dstAddr.toNat (s.outputLength i) ↔ s.NoOverlap i := by
    rw [State.NoOverlap, hp, and_iff_left ⟨not_overlap_zero _ _ _, not_overlap_zero _ _ _⟩]
  by_cases hr : s.OutputsInRange i
  · rw [State.outputChecked, check_of_true hr]
    by_cases ho : s.NoOverlap i
    · rw [withOutput_passed _ _ _ ⟨hrange.2 hr, hover.2 ho⟩, check_of_true ho]
    · rw [withOutput_overlap _ _ _ (hrange.2 hr) (not_not.1 (mt hover.1 ho)), check_of_false ho]
  · rw [withOutput_range _ _ _ (mt hrange.1 hr), State.outputChecked, check_of_false hr]

/-- H_CORRECT checks its two output regions, and what follows the checks is a success. -/
theorem hCorrectBits_eq_outputChecked (strict : Bool) (bits : List Bool) :
    ∃ out len cnt, hCorrectBits s bits = s.outputChecked (.hCorrect strict) fun _ => .ok out len cnt := by
  have hrange (a b : Region) : (a.inRange s.bufBytes && b.inRange s.bufBytes) = true ↔
      InRange a.addr a.len s.bufBytes ∧ InRange b.addr b.len s.bufBytes := by
    rw [Bool.and_eq_true, Region.inRange_iff, Region.inRange_iff]
  have hover (a b c : Region) : (!(a.overlaps b || a.overlaps c || b.overlaps c)) = true ↔
      ¬Overlap a.addr a.len b.addr b.len ∧ ¬Overlap a.addr a.len c.addr c.len ∧
        ¬Overlap b.addr b.len c.addr c.len := by
    rw [Bool.not_eq_true', ← Bool.not_eq_true, Bool.or_eq_true, Bool.or_eq_true, Region.overlaps_iff,
      Region.overlaps_iff, Region.overlaps_iff, not_or, not_or, and_assoc]
  exact ⟨_, _, _, (check_eq_decide (hrange _ _) _ _ _).trans
    (congrArg _ (funext fun _ => check_eq_decide (hover _ _ _) _ _ _))⟩

theorem State.outputChecked_passed (hr : s.OutputsInRange i) (ho : s.NoOverlap i) (rest : Unit → CommandEnd) :
    s.outputChecked i rest = rest () := by
  rw [State.outputChecked, check_of_true hr, check_of_true ho]

/-- A bit-array command with one output region: its checks are the common ones. -/
theorem exec_eq_of_withInputBits (i : Instr) (hbits : Instr.readsBits i = true) (hp : s.positionsLength i = 0)
    (rest : List Bool → CommandEnd)
    (hexec : exec i s = .next (withInputBits (Instr.isStrict i) (Instr.groupSize i) s fun bits =>
      withOutput (s.outputLength i) s fun _ => rest bits).finish) :
    exec i s = .next (s.inputChecked i fun _ => s.outputChecked i fun _ =>
      rest (s.bitsAt s.srcAddr.toNat s.n)).finish := by
  rw [hexec, withInputBits_eq_inputChecked s hbits]
  simp only [withOutput_eq_outputChecked s hp]

/-- A command whose input is plain bytes checks its range and its text alone. -/
theorem State.inputChecked_of_bytes (hw : s.WholeGroups i) (hb : s.BitsOnly i) (rest : Unit → CommandEnd) :
    s.inputChecked i rest = check (s.input.inRange s.bufBytes) .range s fun _ =>
      check (decide (i = .hufBuild → s.n ≠ 0)) .empty s fun _ =>
      check (decide (i = .hufEncode → ∀ j < s.n, s.ctLenAt (s.bufByte (s.srcAddr.toNat + j)) ≠ 0)) .noSym s rest := by
  rw [State.inputChecked, check_eq_decide (Region.inRange_iff _ _)]
  simp only [check_of_true hw, check_of_true hb]
  rfl

theorem State.inputChecked_bUnpack (rest : Unit → CommandEnd) :
    s.inputChecked .bUnpack rest = check (s.input.inRange s.bufBytes) .range s rest := by
  rw [s.inputChecked_of_bytes (i := .bUnpack) nofun nofun]
  simp only [reduceCtorEq, false_implies, decide_true, check_passed]

theorem State.inputChecked_hufEncode (rest : Unit → CommandEnd) :
    s.inputChecked .hufEncode rest = check (s.input.inRange s.bufBytes) .range s fun _ =>
      check (s.inputBytes.all fun c => s.ctLenAt c != 0) .noSym s rest := by
  rw [s.inputChecked_of_bytes (i := .hufEncode) nofun nofun]
  simp only [reduceCtorEq, false_implies, forall_const, decide_true, check_passed, check_eq_decide s.all_hasCodeword]

theorem State.inputChecked_hufBuild (rest : Unit → CommandEnd) :
    s.inputChecked .hufBuild rest = check (s.input.inRange s.bufBytes) .range s fun _ =>
      check (s.n != 0) .empty s rest := by
  rw [s.inputChecked_of_bytes (i := .hufBuild) nofun nofun]
  simp only [reduceCtorEq, false_implies, forall_const, decide_true, check_passed, check_eq_decide bne_iff_ne]

theorem State.outputChecked_hufBuild (rest : Unit → CommandEnd) : s.outputChecked .hufBuild rest = rest () :=
  s.outputChecked_passed ⟨inRange_zero _ _, inRange_zero _ _⟩
    ⟨not_overlap_zero _ _ _, not_overlap_zero _ _ _, not_overlap_zero _ _ _⟩ rest

/-- A command with plain bytes for input and one output region: its checks are the common ones. -/
theorem exec_eq_of_inputChecked (i : Instr) (hp : s.positionsLength i = 0) (input : (Unit → CommandEnd) → CommandEnd)
    (hinput : ∀ rest, s.inputChecked i rest = input rest) (rest : Unit → CommandEnd)
    (hexec : exec i s = .next (input fun _ => withOutput (s.outputLength i) s rest).finish) :
    exec i s = .next (s.inputChecked i fun _ => s.outputChecked i rest).finish := by
  rw [hexec, ← hinput, withOutput_eq_outputChecked s hp]

/-- HUF_BUILD has no output region to check, and what follows its checks is a success. -/
theorem exec_hufBuild_eq_checked : ∃ out len cnt, exec .hufBuild s =
    .next (s.inputChecked .hufBuild fun _ => s.outputChecked .hufBuild fun _ => .ok out len cnt).finish := by
  simp only [State.inputChecked_hufBuild, State.outputChecked_hufBuild]
  exact ⟨_, _, _, rfl⟩

/-- HUF_DECODE's end after its checks: success, or E_DECODE (spec/43_huffman.md R212, R214). -/
theorem State.endDecode_completed (p : List Byte × List Bool) :
    Completed (s.endDecode p).finish 0 ∨ Completed (s.endDecode p).finish 8 := by
  obtain ⟨out, _ | ⟨b, acc⟩⟩ := p
  · exact .inl ⟨rfl, rfl, rfl⟩
  · exact .inr ⟨rfl, rfl, rfl⟩

/-- Every streaming command is the checks of R116 in their order, and then a success, or HUF_DECODE's E_DECODE. -/
theorem exec_eq_checked (i : Instr) (hs : Instr.streams i = true) : ∃ rest,
    exec i s = .next (s.inputChecked i fun _ => s.outputChecked i rest).finish ∧
      (Completed (rest ()).finish 0 ∨ i = .hufDecode ∧ Completed (rest ()).finish 8) := by
  cases i with
  | nop | hSynd | hufClear => cases hs
  | hCorrect strict =>
    obtain ⟨out, len, cnt, hout⟩ := hCorrectBits_eq_outputChecked s strict (s.bitsAt s.srcAddr.toNat s.n)
    refine ⟨fun _ => .ok out len cnt, ?_, .inl ⟨rfl, rfl, rfl⟩⟩
    rw [← hout]
    exact congrArg (fun c => Host.Outcome.next c.finish)
      (withInputBits_eq_inputChecked s (i := .hCorrect strict) rfl (hCorrectBits s))
  | hEncode strict => exact ⟨_, exec_eq_of_withInputBits s (.hEncode strict) rfl rfl _ rfl, .inl ⟨rfl, rfl, rfl⟩⟩
  | hStrip strict => exact ⟨_, exec_eq_of_withInputBits s (.hStrip strict) rfl rfl _ rfl, .inl ⟨rfl, rfl, rfl⟩⟩
  | bPack strict => exact ⟨_, exec_eq_of_withInputBits s (.bPack strict) rfl rfl _ rfl, .inl ⟨rfl, rfl, rfl⟩⟩
  | hufDecode =>
    exact ⟨_, exec_eq_of_withInputBits s .hufDecode rfl rfl _ rfl,
      (s.endDecode_completed _).imp_right fun h => ⟨rfl, h⟩⟩
  | bUnpack =>
    exact ⟨_, exec_eq_of_inputChecked s .bUnpack rfl _ s.inputChecked_bUnpack _ rfl, .inl ⟨rfl, rfl, rfl⟩⟩
  | hufEncode =>
    exact ⟨_, exec_eq_of_inputChecked s .hufEncode rfl _ s.inputChecked_hufEncode _ rfl, .inl ⟨rfl, rfl, rfl⟩⟩
  | hufBuild =>
    obtain ⟨out, len, cnt, hexec⟩ := exec_hufBuild_eq_checked s
    exact ⟨_, hexec, .inl ⟨rfl, rfl, rfl⟩⟩

/-- Settles O29: with every check passed, what is left of a streaming command is its end after the checks. -/
theorem checksPassedMeansSuccess : Obligations.ChecksPassedMeansSuccess := by
  intro i s hpass
  by_cases hs : Instr.streams i = true
  · obtain ⟨hr, hw, hb, ht, ho, hv⟩ := hpass hs
    obtain ⟨rest, hexec, hend⟩ := exec_eq_checked s i hs
    exact ⟨_, hexec, by rwa [s.inputChecked_passed hr hw hb ht, s.outputChecked_passed ho hv]⟩
  · cases i with
    | nop | hSynd | hufClear => exact ⟨_, rfl, .inl ⟨rfl, rfl, rfl⟩⟩
    | _ => exact absurd rfl hs

/-- Settles O28: an invalid word has its own completion; for the rest, the checks before the failing one pass. -/
theorem firstFailingCheckIsReported : Obligations.FirstFailingCheckIsReported := by
  refine ⟨fun s => unitMove_of_decode_eq_error, fun i s hs => ?_⟩
  obtain ⟨rest, hexec, -⟩ := exec_eq_checked s i hs
  rw [hexec]
  refine ⟨fun hr => ?_, fun hr hw => ?_, fun hr hw hb => ?_, ?_, ?_, fun hr hw hb ht ho => ?_,
    fun hr hw hb ht ho hv => ?_⟩
  · rw [State.inputChecked, check_of_false hr]; rfl
  · rw [State.inputChecked, check_of_true hr, check_of_false hw]; rfl
  · rw [State.inputChecked, check_of_true hr, check_of_true hw, check_of_false hb]; rfl
  · rintro hr rfl hn
    rw [State.inputChecked, check_of_true hr, check_of_true nofun, check_of_true nofun,
      check_of_false fun h => h rfl hn]
    rfl
  · rintro hr rfl ht
    rw [State.inputChecked, check_of_true hr, check_of_true nofun, check_of_true nofun, check_of_true nofun,
      check_of_false fun h => ht ⟨nofun, h⟩]
    rfl
  · rw [s.inputChecked_passed hr hw hb ht, State.outputChecked, check_of_false ho]; rfl
  · rw [s.inputChecked_passed hr hw hb ht, State.outputChecked, check_of_true ho, check_of_false hv]; rfl

/-! The empty input -/

/-- On an empty input no output region has a byte (spec/40_command_execution.md R117). -/
theorem State.regions_empty (hn : s.n = 0) (i : Instr) : s.outputLength i = 0 ∧ s.positionsLength i = 0 := by
  cases i with
  | nop | hSynd | hufBuild | hufClear => exact ⟨rfl, rfl⟩
  | hCorrect | hEncode | hStrip | bPack | bUnpack | hufDecode => simp [State.outputLength, State.positionsLength, hn]
  | hufEncode =>
    simp [State.outputLength, State.positionsLength, State.inputBytes, State.encodedLength, hn, State.readBytes_zero]

variable {s}

/-- On an empty input a streaming command ends with empty results and no output, whatever its code
(spec/40_command_execution.md R121). -/
theorem Completion.eq_emptyEnd (hc : Completion s i t) (hs : Instr.streams i = true) (hn : s.n = 0) :
    t = s.emptyEnd t.ecode := by
  cases hc with
  | nop | hSynd | hufClear => cases hs
  | error => rfl
  | hufBuild _ hpos => exact absurd hn hpos
  | output _ bytes len cnt code _ _ _ _ _ hb _ hlen hcnt =>
    rw [(s.regions_empty hn i).1, Nat.le_zero] at hb hlen
    obtain rfl := List.length_eq_zero_iff.1 hb
    obtain rfl := hlen
    obtain rfl : cnt = 0 := Nat.le_zero.1 (hn ▸ hcnt)
    rfl
  | hCorrect strict bits positions _ hb hp =>
    rw [hn] at hb hp ⊢
    obtain rfl := List.length_eq_zero_iff.1 hb
    obtain rfl := List.length_eq_zero_iff.1 (Nat.le_zero.1 hp)
    rfl

/-- On an empty input every check passes, but that of HUF_BUILD's text. -/
theorem State.checks_passed_of_empty (hn : s.n = 0) (hi : i ≠ .hufBuild) :
    s.InputInRange ∧ s.WholeGroups i ∧ s.BitsOnly i ∧ s.TextOk i ∧ s.OutputsInRange i ∧ s.NoOverlap i := by
  obtain ⟨hout, hpos⟩ := s.regions_empty hn i
  have nothing {P : Nat → Prop} : ∀ j < s.n, P j := fun j hj => absurd hj (by omega)
  refine ⟨.inl hn, fun _ => by rw [hn, Nat.zero_mod], fun _ => nothing, ⟨(absurd · hi), fun _ => nothing⟩,
    ⟨.inl hout, .inl hpos⟩, ?_⟩
  rw [State.NoOverlap, hout, hpos]
  exact ⟨not_overlap_zero _ _ _, not_overlap_zero _ _ _, not_overlap_zero _ _ _⟩

/-- HUF_DECODE of no bits leaves no bits over (spec/43_huffman.md R214). -/
theorem hufDecode_ecode_of_empty (hn : s.n = 0) (hexec : exec .hufDecode s = .next t) : t.ecode = 0 := by
  obtain ⟨hr, -, hb, -, ho, hv, -⟩ := State.checks_passed_of_empty (i := .hufDecode) hn nofun
  rw [exec_hufDecode_passed s ⟨hr, nofun, hb rfl⟩ ⟨ho.1, hv⟩, hn] at hexec
  cases hexec
  rfl

/-- Settles O32: on an empty input the code alone is open; the checks give it. -/
theorem zeroLengthInput : Obligations.ZeroLengthInput := by
  intro i s hs hlen
  have hn : s.n = 0 := congrArg BitVec.toNat hlen
  constructor
  · intro hi
    obtain ⟨t, hexec, hcode⟩ := checksPassedMeansSuccess i s fun _ => State.checks_passed_of_empty hn hi
    have hzero : t.ecode = 0 := by
      rcases hcode with h | ⟨rfl, -⟩
      · exact h.ecode
      · exact hufDecode_ecode_of_empty hn hexec
    rw [hexec, (completion_of_exec s hexec).eq_emptyEnd hs hn, hzero]
  · rintro rfl
    obtain ⟨-, -, -, hempty, -⟩ := firstFailingCheckIsReported.2 .hufBuild s hs
    exact hempty (.inl hn) rfl hn

end Sys2Proof.Machine

/- The Hamming family (spec/41_hamming.md): the group functions, H_SYND, and the three streaming commands H_CORRECT,
H_ENCODE and H_STRIP with their round trip. -/

namespace Sys2Proof.Machine

variable {s t : State}

/-! The group functions -/

theorem BitGroup.m1_iff (c : BitGroup) : c.m1 = true ↔ c.c5 ≠ (c.c1 ^^ c.c2 ^^ c.c3) := bne_iff_ne

theorem BitGroup.m2_iff (c : BitGroup) : c.m2 = true ↔ c.c6 ≠ (c.c1 ^^ c.c2 ^^ c.c4) := bne_iff_ne

theorem BitGroup.m3_iff (c : BitGroup) : c.m3 = true ↔ c.c7 ≠ (c.c2 ^^ c.c3 ^^ c.c4) := bne_iff_ne

/-- The eight rows of the truth table (spec/41_hamming.md R143). -/
theorem syndromeTable_rows (m1 m2 m3 : Bool) :
    (m1 ∧ m2 ∧ ¬m3 → syndromeTable m1 m2 m3 = 1) ∧ (m1 ∧ m2 ∧ m3 → syndromeTable m1 m2 m3 = 2) ∧
    (m1 ∧ ¬m2 ∧ m3 → syndromeTable m1 m2 m3 = 3) ∧ (¬m1 ∧ m2 ∧ m3 → syndromeTable m1 m2 m3 = 4) ∧
    (¬m1 ∧ ¬m2 ∧ ¬m3 → syndromeTable m1 m2 m3 = 0) ∧ (m1 ∧ ¬m2 ∧ ¬m3 → syndromeTable m1 m2 m3 = 0) ∧
    (¬m1 ∧ m2 ∧ ¬m3 → syndromeTable m1 m2 m3 = 0) ∧ (¬m1 ∧ ¬m2 ∧ m3 → syndromeTable m1 m2 m3 = 0) := by
  revert m1 m2 m3; decide

/-- Settles O34: each mismatch bit is its inequality, so the rows are the table's own. -/
theorem syndromeTableRows : Obligations.SyndromeTableRows := by
  intro c
  refine ⟨rfl, rfl, rfl, c.m1_iff, c.m2_iff, c.m3_iff, ?_⟩
  rw [← c.m1_iff, ← c.m2_iff, ← c.m3_iff]
  exact syndromeTable_rows c.m1 c.m2 c.m3

/-- Correction complements the element the syndrome names, if it names one (spec/41_hamming.md R144). -/
theorem BitGroup.corrected_toList (c : BitGroup) :
    c.corrected.toList = if c.syn = 0 then c.toList else c.toList.modify (c.syn - 1) (!·) := by
  have hle := c.syn_le
  unfold BitGroup.corrected
  generalize c.syn = k at hle
  interval_cases k <;> rfl

/-- Settles O35: the corrected list is the group's list modified at one index. -/
theorem correctionFlipsTheSyndromeBit : Obligations.CorrectionFlipsTheSyndromeBit := by
  intro c k
  refine ⟨c.syn_le, rfl, ?_⟩
  rw [c.corrected_toList]
  by_cases hsyn : c.syn = 0
  · simp [hsyn]
  · by_cases hk : k = c.syn - 1 <;> simp [hsyn, hk, eq_comm]

/-- A group without mismatch is the codeword of its data bits (spec/41_hamming.md R147). -/
theorem BitGroup.eq_encode4_iff (g : BitGroup) (d1 d2 d3 d4 : Bool) :
    g = encode4 d1 d2 d3 d4 ↔
      g.c1 = d1 ∧ g.c2 = d2 ∧ g.c3 = d3 ∧ g.c4 = d4 ∧ g.m1 = false ∧ g.m2 = false ∧ g.m3 = false := by
  obtain ⟨c1, c2, c3, c4, c5, c6, c7⟩ := g
  simp only [encode4, BitGroup.mk.injEq, BitGroup.m1, BitGroup.m2, BitGroup.m3, bne_eq_false_iff_eq]
  constructor <;> (rintro ⟨rfl, rfl, rfl, rfl, h⟩; exact ⟨rfl, rfl, rfl, rfl, h⟩)

/-- A codeword is its own correction (spec/41_hamming.md R147). -/
theorem encode4_corrected (d1 d2 d3 d4 : Bool) : (encode4 d1 d2 d3 d4).corrected = encode4 d1 d2 d3 d4 :=
  BitGroup.corrected_of_syn_zero _ (encode4_syn d1 d2 d3 d4)

/-- A flipped data bit gives its own syndrome and is restored (spec/41_hamming.md R146). -/
theorem encode4_flip_data (d1 d2 d3 d4 : Bool) :
    let c := encode4 d1 d2 d3 d4
    (∀ g ∈ [{ c with c1 := !d1 }, { c with c2 := !d2 }, { c with c3 := !d3 }, { c with c4 := !d4 }], g.corrected = c) ∧
    { c with c1 := !d1 }.syn = 1 ∧ { c with c2 := !d2 }.syn = 2 ∧ { c with c3 := !d3 }.syn = 3 ∧
    { c with c4 := !d4 }.syn = 4 := by
  revert d1 d2 d3 d4; decide

/-- A flipped check bit gives syndrome 0 (spec/41_hamming.md R146). -/
theorem encode4_flip_check_syn (d1 d2 d3 d4 : Bool) :
    let c := encode4 d1 d2 d3 d4
    ∀ g ∈ [{ c with c5 := !c.c5 }, { c with c6 := !c.c6 }, { c with c7 := !c.c7 }], g.syn = 0 := by
  revert d1 d2 d3 d4; decide

/-- Settles O36: the codeword is characterised by its mismatch bits; its single flips are the two lemmas above. -/
theorem singleErrorsOfACodeword : Obligations.SingleErrorsOfACodeword := by
  intro d1 d2 d3 d4
  obtain ⟨hcorrected, h1, h2, h3, h4⟩ := encode4_flip_data d1 d2 d3 d4
  refine ⟨rfl, fun g => (g.eq_encode4_iff d1 d2 d3 d4).symm,
    ⟨encode4_syn d1 d2 d3 d4, encode4_corrected d1 d2 d3 d4⟩, hcorrected, h1, h2, h3, h4, fun g hg => ?_⟩
  have hsyn := encode4_flip_check_syn d1 d2 d3 d4 g hg
  exact ⟨hsyn, g.corrected_of_syn_zero hsyn⟩

/-! The HRES word -/

/-- The bits of HRES, one by one (spec/10_state.md R30). -/
theorem BitGroup.hres_bits (c : BitGroup) :
    (∀ k < 7, c.corrected.toList[k]? = some (c.hres.getLsbD k)) ∧
    (∀ k < 3, c.hres.getLsbD (8 + k) = (BitVec.ofNat 3 c.syn).getLsbD k) ∧
    c.hres.getLsbD 12 = c.m1 ∧ c.hres.getLsbD 13 = c.m2 ∧ c.hres.getLsbD 14 = c.m3 ∧
    (∀ k < 4, c.corrected.toList[k]? = some (c.hres.getLsbD (16 + k))) := by
  simp only [BitGroup.hres, BitGroup.toBitVec, BitGroup.toList, BitVec.getLsbD_append]
  refine ⟨fun k hk => ?_, fun k hk => ?_, ?_, ?_, ?_, fun k hk => ?_⟩
  · interval_cases k <;> simp
  · interval_cases k <;> simp
  · simp
  · simp
  · simp
  · interval_cases k <;> simp

/-- The SYN field of HRES (spec/10_state.md R30). -/
theorem BitGroup.hres_syn (c : BitGroup) : (c.hres.extractLsb' 8 3).toNat = c.syn := by
  obtain ⟨-, hbits, -⟩ := c.hres_bits
  have hfield : c.hres.extractLsb' 8 3 = BitVec.ofNat 3 c.syn :=
    BitVec.eq_of_getLsbD_eq fun k hk => by rw [BitVec.getLsbD_extractLsb', ← hbits k hk]; simp [hk]
  have hle := c.syn_le
  rw [hfield, BitVec.toNat_ofNat, Nat.mod_eq_of_lt (by omega)]

/-- Settles O37: HRES takes the word of the group, and the completion touches the flags alone. -/
theorem hSyndResult : Obligations.HSyndResult := by
  refine ⟨fun w => decode_eq_ok_iff_eq_encode w .hSynd, fun s => ⟨(BitGroup.ofBitVec s.group).hres, rfl, ?_⟩⟩
  obtain ⟨hgroup, -, hm1, hm2, hm3, hdata⟩ := (BitGroup.ofBitVec s.group).hres_bits
  obtain ⟨h7, h11, h15⟩ := (BitGroup.ofBitVec s.group).hres_reserved
  exact ⟨hgroup, h7, BitGroup.hres_syn _, h11, hm1, hm2, hm3, h15, hdata⟩

/-! Bit arrays in BUF -/

/-- The bit array `bits` stands in BUF from offset `a` on (spec/10_state.md R32). -/
def State.HoldsBits (s : State) (a : Nat) (bits : List Bool) : Prop :=
  ∀ (i : Nat) (hi : i < bits.length), s.bufByte (a + i) = byteOfBit bits[i]

theorem State.holdsBits_writeBits (s : State) (a : Nat) (bits : List Bool) : (s.writeBits a bits).HoldsBits a bits :=
  fun i hi => s.bufByte_writeBits_inside a bits i hi

theorem State.HoldsBits.writeBytes_disjoint {a b : Nat} {bits : List Bool} {bytes : List Byte} (h : s.HoldsBits a bits)
    (hd : ∀ i < bits.length, a + i < b ∨ b + bytes.length ≤ a + i) : (s.writeBytes b bytes).HoldsBits a bits :=
  fun i hi => (s.bufByte_writeBytes_outside b bytes _ (hd i hi)).trans (h i hi)

/-- The end of a command writes no byte (spec/40_command_execution.md R114). -/
theorem State.HoldsBits.finished {a : Nat} {bits : List Bool} (h : s.HoldsBits a bits) (len cnt : Nat)
    (code : BitVec 4) : ((s.setResults len cnt).complete code).HoldsBits a bits := h

theorem State.HoldsBits.isBit {a i : Nat} {bits : List Bool} (h : s.HoldsBits a bits) (hi : i < bits.length) :
    s.IsBit (a + i) := by
  rw [State.IsBit, h i hi]
  exact byteOfBit_isBit _

theorem State.HoldsBits.getElem? {a i : Nat} {bits : List Bool} (h : s.HoldsBits a bits) (hi : i < bits.length) :
    bits[i]? = some (s.bitAt (a + i)) := by
  rw [List.getElem?_eq_getElem hi, State.bitAt, h i hi]
  exact congrArg some (byteOfBit_beq_one _).symm

/-- A stream of groups in BUF, read group by group (spec/00_scope.md R15). -/
theorem State.HoldsBits.groupAt {a g j : Nat} {bits : List Bool} {f : Nat → BitGroup} (h : s.HoldsBits a bits)
    (hbits : bits = (List.range g).flatMap fun j => (f j).toList) (hj : j < g) : s.groupAt (a + 7 * j) = f j := by
  subst hbits
  have hlen := length_flatMap_chunks 7 (fun j => (f j).toList) (List.range g) fun _ _ => rfl
  rw [List.length_range] at hlen
  refine s.groupAt_eq _ _ fun k hk => ?_
  have hbit := h.getElem? (i := 7 * j + k) (by omega)
  rw [getElem?_flatMap_chunks 7 _ _ (fun _ _ => rfl) j k hk, List.getElem?_range hj] at hbit
  rw [Nat.add_assoc]
  exact hbit

/-- Element `k` of the group at `a` is the bit at `a + k` (spec/00_scope.md R15). -/
theorem State.groupAt_toList (s : State) (a k : Nat) (hk : k < 7) :
    (s.groupAt a).toList[k]? = some (s.bitAt (a + k)) := by
  interval_cases k <;> rfl

theorem State.bufByte_eq_of_bitAt_eq {a b : Nat} (ha : t.IsBit a) (hb : s.IsBit b) (h : t.bitAt a = s.bitAt b) :
    t.bufByte a = s.bufByte b := by
  rw [← byteOfBit_bitAt t a ha, ← byteOfBit_bitAt s b hb, h]

/-- Two streams of `g` groups that agree group by group agree byte by byte. -/
theorem State.bufByte_eq_of_groupAt_eq {a b g : Nat} (ha : ∀ x < 7 * g, t.IsBit (a + x))
    (hb : ∀ x < 7 * g, s.IsBit (b + x)) (h : ∀ j < g, t.groupAt (a + 7 * j) = s.groupAt (b + 7 * j)) :
    ∀ x < 7 * g, t.bufByte (a + x) = s.bufByte (b + x) := by
  intro x hx
  have hgroup := congrArg (·.toList[x % 7]?) (h (x / 7) (by omega))
  simp only [State.groupAt_toList _ _ _ (Nat.mod_lt x (by decide : 0 < 7)), Nat.add_assoc, Nat.div_add_mod,
    Option.some.injEq] at hgroup
  exact State.bufByte_eq_of_bitAt_eq (ha x hx) (hb x hx) hgroup

/-! H_CORRECT -/

variable (s)

/-- The corrected stream by index (spec/41_hamming.md R148). -/
theorem State.correctedBits_bitsAt (a n : Nat) : correctedBits (groupsOf7 (s.bitsAt a n)) =
    (List.range (n / 7)).flatMap fun j => (s.groupAt (a + 7 * j)).corrected.toList := by
  rw [groupsOf7_bitsAt, correctedBits, List.flatMap_map]

theorem State.correctedBits_bitsAt_length (a n : Nat) :
    (correctedBits (groupsOf7 (s.bitsAt a n))).length = 7 * (n / 7) := by
  rw [correctedBits_length, groupsOf7_length, State.bitsAt_length]

/-- The positions by index (spec/41_hamming.md R149). -/
theorem State.flippedPositions_bitsAt (a n : Nat) : flippedPositions 0 (groupsOf7 (s.bitsAt a n)) =
    (List.range (n / 7)).filterMap fun j =>
      if (s.groupAt (a + 7 * j)).syn = 0 then none else some (7 * j + (s.groupAt (a + 7 * j)).syn - 1) := by
  rw [groupsOf7_bitsAt, flippedPositions_range]
  simp only [Nat.zero_add]

/-- There is at most one position for each group (spec/41_hamming.md R149). -/
theorem State.flippedPositions_bitsAt_length_le (a n : Nat) :
    (flippedPositions 0 (groupsOf7 (s.bitsAt a n))).length ≤ n / 7 := by
  simpa [groupsOf7_length] using flippedPositions_length_le 0 (groupsOf7 (s.bitsAt a n))

/-- A position is an offset into the input (spec/41_hamming.md R149). -/
theorem State.lt_of_mem_flippedPositions {a n p : Nat} (hp : p ∈ flippedPositions 0 (groupsOf7 (s.bitsAt a n))) :
    p < n := by
  rw [State.flippedPositions_bitsAt, List.mem_filterMap] at hp
  obtain ⟨j, hj, hp⟩ := hp
  have hle := (s.groupAt (a + 7 * j)).syn_le
  rw [List.mem_range] at hj
  split at hp
  · cases hp
  · cases hp
    omega

theorem State.finished_memRead (len cnt : Nat) (code : BitVec 4) (a n : Nat) :
    ((s.setResults len cnt).complete code).memRead a n = s.memRead a n := rfl

/-- Word `k` of a written position list (spec/41_hamming.md R149, spec/20_memory.md R72). -/
theorem State.memRead_writeBytes_positionBytes (a k : Nat) (positions : List Nat) (hk : k < positions.length) :
    (s.writeBytes a (positionBytes positions)).memRead (a + 4 * k) 4 = positions[k] % 256 ^ 4 := by
  have hbytes : (s.writeBytes a (positionBytes positions)).readBytes (a + 4 * k) 4 = leBytes 4 positions[k] := by
    refine List.ext_getElem (by simp) fun i hi hi' => ?_
    have hlt : i < 4 := by simpa using hi
    have hlen := positionBytes_length positions
    have hchunk := getElem?_flatMap_chunks 4 (leBytes 4) positions (fun _ _ => leBytes_length 4 _) k i hlt
    rw [State.readBytes_getElem, Nat.add_assoc, State.bufByte_writeBytes_inside _ _ _ _ (by omega)]
    rw [List.getElem?_eq_getElem hk, Option.bind_some, List.getElem?_eq_getElem hi'] at hchunk
    exact List.getElem_of_getElem? hchunk |>.2
  rw [State.memRead, hbytes, leValue_leBytes]

variable {s}

/-- Settles O38: the corrected stream and the position words stand in disjoint regions, each written once. -/
theorem hCorrectResult : Obligations.HCorrectResult := by
  intro strict s hin hfit g group positions
  have hn := (s.n_le hin.inRange).trans s.bufBytes_le
  have hdisjoint := hfit.outputPositions
  have hpos : flippedPositions 0 (groupsOf7 (s.bitsAt s.srcAddr.toNat s.n)) = positions :=
    s.flippedPositions_bitsAt _ _
  have hcount : positions.length ≤ g := hpos ▸ s.flippedPositions_bitsAt_length_le _ _
  have hlen := s.correctedBits_bitsAt_length s.srcAddr.toNat s.n
  have hword : (positionBytes positions).length = 4 * positions.length := positionBytes_length _
  have hg : g = s.n / 7 := rfl
  have hexec := exec_hCorrect_passed s strict hin hfit
  rw [hpos] at hexec
  have hout := ((s.holdsBits_writeBits s.dstAddr.toNat (correctedBits (groupsOf7 (s.bitsAt s.srcAddr.toNat s.n)))
    ).writeBytes_disjoint (b := s.auxAddr.toNat) (bytes := positionBytes positions) fun i hi => by omega
    ).finished (7 * (s.n / 7)) positions.length 0
  refine ⟨_, hexec, ⟨rfl, rfl, rfl⟩, s.toNat_count _ ?_, s.toNat_count _ ?_, fun j hj => ?_, fun x hx => ?_,
    fun k hk => ?_, fun x hx hx' => ?_⟩
  · exact hfit.outputInRange.le
  · exact (hcount.trans (Nat.div_le_self _ _)).trans (s.n_le hin.inRange)
  · exact hout.groupAt (s.correctedBits_bitsAt _ _) hj
  · exact hout.isBit (by omega)
  · have hlt : positions[k] < s.n := s.lt_of_mem_flippedPositions (by rw [hpos]; exact List.getElem_mem hk)
    rw [State.finished_memRead, State.memRead_writeBytes_positionBytes _ _ k positions hk]
    exact Nat.mod_eq_of_lt (by omega)
  · rw [State.complete_bufByte, State.setResults_bufByte,
      State.bufByte_writeBytes_outside _ _ _ _ (by omega), State.bufByte_writeBits_outside _ _ _ _ (by omega)]

/-! H_ENCODE and H_STRIP -/

/-- Settles O39: the encoded stream is a stream of groups, written once. -/
theorem hEncodeResult : Obligations.HEncodeResult := by
  intro strict s hin hfit q d
  have hn := s.n_le hin.inRange
  have hlen : (encodedBits (s.bitsAt s.srcAddr.toNat s.n)).length = 7 * (s.n / 4) := by
    rw [encodedBits_length, State.bitsAt_length]
  have hout := (s.holdsBits_writeBits s.dstAddr.toNat (encodedBits (s.bitsAt s.srcAddr.toNat s.n))).finished
    (7 * (s.n / 4)) (s.n / 4) 0
  refine ⟨_, exec_hEncode_passed s strict hin hfit, ⟨rfl, rfl, rfl⟩, s.toNat_count _ hfit.inRange.le,
    s.toNat_count _ (by omega), fun j hj => ?_, fun x hx => ?_, fun x hx => ?_⟩
  · exact hout.groupAt (encodedBits_range _ _) hj
  · exact hout.isBit (by omega)
  · rw [State.complete_bufByte, State.setResults_bufByte, State.bufByte_writeBits_outside _ _ _ _ (by omega)]

/-- The stripped stream by index (spec/41_hamming.md R156). -/
theorem State.strippedBits_getElem? (s : State) (a n j k : Nat) (hj : j < n / 7) (hk : k < 4) :
    (strippedBits (groupsOf7 (s.bitsAt a n)))[4 * j + k]? = some (s.bitAt (a + (7 * j + k))) := by
  rw [groupsOf7_bitsAt, strippedBits, List.flatMap_map, getElem?_flatMap_chunks 4 _ _ (fun _ _ => rfl) j k hk,
    List.getElem?_range hj]
  interval_cases k <;> rfl

/-- Settles O40: the stripped stream's bits are those of the input, byte by byte. -/
theorem hStripResult : Obligations.HStripResult := by
  intro strict s hin hfit g
  have hn := s.n_le hin.inRange
  have hlen : (strippedBits (groupsOf7 (s.bitsAt s.srcAddr.toNat s.n))).length = 4 * (s.n / 7) := by
    rw [strippedBits_length, groupsOf7_length, State.bitsAt_length]
  have hout := (s.holdsBits_writeBits s.dstAddr.toNat (strippedBits (groupsOf7 (s.bitsAt s.srcAddr.toNat s.n)))).finished
    (4 * (s.n / 7)) (s.n / 7) 0
  refine ⟨_, exec_hStrip_passed s strict hin hfit, ⟨rfl, rfl, rfl⟩, s.toNat_count _ hfit.inRange.le,
    s.toNat_count _ (by omega), fun j hj k hk => ?_, fun x hx => ?_⟩
  · have hx : 4 * j + k < 4 * (s.n / 7) := by omega
    rw [Nat.add_assoc, Nat.add_assoc]
    refine State.bufByte_eq_of_bitAt_eq (hout.isBit (hlen ▸ hx)) (hin.bits _ (by omega)) (Option.some.inj ?_)
    rw [← hout.getElem? (hlen ▸ hx), s.strippedBits_getElem? _ _ j k hj hk]
  · rw [State.complete_bufByte, State.setResults_bufByte, State.bufByte_writeBits_outside _ _ _ _ (by omega)]

/-! The round trip -/

/-- H_CORRECT copies a stream without mismatch and reports no position (spec/41_hamming.md R148, R153). -/
theorem hCorrect_of_syn_zero (strict : Bool) (hin : s.BitInput strict 7) (hfit : s.CorrectFits)
    (hsyn : ∀ j < s.n / 7, (s.groupAt (s.srcAddr.toNat + 7 * j)).syn = 0) :
    ∃ t, exec (.hCorrect strict) s = .next t ∧ Completed t 0 ∧ t.resLen.toNat = 7 * (s.n / 7) ∧ t.resCnt = 0 ∧
      ∀ x < 7 * (s.n / 7), t.bufByte (s.dstAddr.toNat + x) = s.bufByte (s.srcAddr.toNat + x) := by
  obtain ⟨t, hexec, hdone, hlen, hcnt, hgroups, hbits, -, -⟩ := hCorrectResult strict s hin hfit
  refine ⟨t, hexec, hdone, hlen, BitVec.eq_of_toNat_eq (hcnt.trans ?_), ?_⟩
  · refine List.length_eq_zero_iff.2 (List.filterMap_eq_nil_iff.2 fun j hj => ?_)
    rw [if_pos (hsyn j (List.mem_range.1 hj))]
  · refine State.bufByte_eq_of_groupAt_eq hbits (fun x hx => hin.bits x (by omega)) fun j hj => ?_
    rw [hgroups j hj, BitGroup.corrected_of_syn_zero _ (hsyn j hj)]

/-- H_ENCODE keeps its data bits, four at the start of each group (spec/41_hamming.md R147, R152). -/
theorem hEncode_keeps_data {strict : Bool} (hin : s.BitInput strict 4) (hfit : s.OutputFits (7 * (s.n / 4)))
    (hexec : exec (.hEncode strict) s = .next t) {j k : Nat} (hj : j < s.n / 4) (hk : k < 4) :
    t.bufByte (s.dstAddr.toNat + 7 * j + k) = s.bufByte (s.srcAddr.toNat + 4 * j + k) := by
  obtain ⟨u, hu, -, -, -, hgroups, hbits, -⟩ := hEncodeResult strict s hin hfit
  cases hexec.symm.trans hu
  have hbit := t.groupAt_toList (s.dstAddr.toNat + 7 * j) k (by omega)
  rw [hgroups j hj] at hbit
  rw [Nat.add_assoc, Nat.add_assoc]
  refine State.bufByte_eq_of_bitAt_eq (hbits _ (by omega)) (hin.bits _ (by omega)) ?_
  interval_cases k <;> exact (Option.some.inj hbit).symm

/-- A bit array of whole groups is an input of H_CORRECT and H_STRIP in both forms (spec/41_hamming.md R148, R156). -/
theorem State.BitInput.of_wholeGroups {g : Nat} (strict : Bool) (hn : s.n = 7 * g)
    (hr : InRange s.srcAddr.toNat (7 * g) s.bufBytes) (hb : ∀ x < 7 * g, s.IsBit (s.srcAddr.toNat + x)) :
    s.BitInput strict 7 :=
  ⟨by rwa [State.InputInRange, hn], fun _ => by rw [hn, Nat.mul_mod_right], by rwa [hn]⟩

theorem SameControl.bufBytes_eq (h : SameControl s t) : t.bufBytes = s.bufBytes := by
  rw [State.bufBytes, h.cfg, State.bufBytes]

/-- Settles O41: a codeword has no mismatch, so H_CORRECT copies the encoded stream, whose data bits H_STRIP keeps. -/
theorem hammingRoundTrip : Obligations.HammingRoundTrip := by
  intro strict strict2 strict3 s hin hfit
  obtain ⟨t, hexec, hdone, hlen, -, hgroups, hbits, -⟩ := hEncodeResult strict s hin hfit
  have hcontrol := (completion_of_exec s hexec).sameControl
  rw [← hcontrol.dstAddr] at hgroups hbits
  have hrange := hfit.inRange
  rw [← hcontrol.dstAddr, ← hcontrol.bufBytes_eq] at hrange
  refine ⟨t, hexec, hdone, ?_⟩
  intro dst aux s2 hfit2
  have hgroup2 : s2.n / 7 = s.n / 4 := (congrArg (· / 7) hlen).trans (Nat.mul_div_cancel_left _ (by decide))
  have hin2 : s2.BitInput strict2 7 := .of_wholeGroups strict2 hlen hrange hbits
  obtain ⟨u, hexec2, hdone2, hlen2, hcnt2, hcopy⟩ := hCorrect_of_syn_zero strict2 hin2 hfit2 fun j hj =>
    (congrArg BitGroup.syn (hgroups j (hgroup2 ▸ hj))).trans (encode4_syn _ _ _ _)
  have hrange2 := hfit2.outputInRange
  rw [← (completion_of_exec s2 hexec2).sameControl.bufBytes_eq, hgroup2] at hrange2
  rw [hgroup2] at hlen2 hcopy
  refine ⟨u, hexec2, hdone2, BitVec.eq_of_toNat_eq (hlen2.trans hlen.symm), hcnt2, hcopy, ?_⟩
  intro dst3 s3 hfit3
  have hgroup3 : s3.n / 7 = s.n / 4 := (congrArg (· / 7) hlen2).trans (Nat.mul_div_cancel_left _ (by decide))
  have hin3 : s3.BitInput strict3 7 := .of_wholeGroups strict3 hlen2 hrange2 fun x hx =>
    (hbits x hx).imp (hcopy x hx).trans (hcopy x hx).trans
  obtain ⟨v, hexec3, hdone3, hlen3, -, hdata, -⟩ := hStripResult strict3 s3 hin3 hfit3
  rw [hgroup3] at hlen3 hdata
  refine ⟨v, hexec3, hdone3, hlen3, fun x hx => ?_⟩
  have hj : x / 4 < s.n / 4 := by omega
  have hk : x % 4 < 4 := Nat.mod_lt x (by decide)
  calc v.bufByte (dst3.toNat + x)
      = v.bufByte (dst3.toNat + 4 * (x / 4) + x % 4) := by rw [Nat.add_assoc, Nat.div_add_mod]
    _ = u.bufByte (dst.toNat + 7 * (x / 4) + x % 4) := hdata _ hj _ hk
    _ = t.bufByte (t.dstAddr.toNat + 7 * (x / 4) + x % 4) := by
      rw [Nat.add_assoc, Nat.add_assoc]
      exact hcopy (7 * (x / 4) + x % 4) (by omega)
    _ = s.bufByte (s.srcAddr.toNat + 4 * (x / 4) + x % 4) := by
      rw [hcontrol.dstAddr]
      exact hEncode_keeps_data hin hfit hexec hj hk
    _ = s.bufByte (s.srcAddr.toNat + x) := by rw [Nat.add_assoc, Nat.div_add_mod]

end Sys2Proof.Machine

/- The bit packing family (spec/42_bitpack.md): B_PACK, B_UNPACK and their two round trips. -/

namespace Sys2Proof.Machine

variable {s t : State}

/-! A byte and its bits, most significant first -/

theorem unpack8_getElem? (x : Byte) {k : Nat} (hk : k < 8) : (unpack8 x)[k]? = some (x.getLsbD (7 - k)) := by
  interval_cases k <;> rfl

/-- A byte is its eight bits, most significant first (spec/42_bitpack.md R170). -/
theorem byte_eq_of_getLsbD_eq {x y : Byte} (h : ∀ k < 8, x.getLsbD (7 - k) = y.getLsbD (7 - k)) : x = y := by
  refine BitVec.eq_of_getLsbD_eq fun i hi => ?_
  have hbit := h (7 - i) (by omega)
  rwa [Nat.sub_sub_self (by omega)] at hbit

/-- The byte that packs the eight bits a bit array holds at BUF offsets `a .. a+7` (spec/42_bitpack.md R170). -/
def State.packAt (s : State) (a : Nat) : Byte :=
  pack8 (s.bitAt a) (s.bitAt (a + 1)) (s.bitAt (a + 2)) (s.bitAt (a + 3)) (s.bitAt (a + 4)) (s.bitAt (a + 5))
    (s.bitAt (a + 6)) (s.bitAt (a + 7))

/-- Bit 7-k of a packed byte is the bit at `a + k` (spec/42_bitpack.md R170). -/
theorem State.packAt_getLsbD (s : State) (a : Nat) {k : Nat} (hk : k < 8) :
    (s.packAt a).getLsbD (7 - k) = s.bitAt (a + k) := by
  have hbit := unpack8_getElem? (s.packAt a) hk
  rw [State.packAt, unpack8_pack8] at hbit
  interval_cases k <;> exact (Option.some.inj hbit).symm

/-- The packed bytes of a bit array in BUF (spec/42_bitpack.md R171). -/
theorem State.packedBytes_bitsAt (s : State) (a n : Nat) :
    packedBytes (s.bitsAt a n) = (List.range (n / 8)).map fun j => s.packAt (a + 8 * j) := by
  rw [State.bitsAt, packedBytes_range]; rfl

theorem State.packedBytes_bitsAt_length (s : State) (a n : Nat) : (packedBytes (s.bitsAt a n)).length = n / 8 := by
  rw [packedBytes_length, State.bitsAt_length]

/-- Bit 8j+k of the unpacked stream is bit 7-k of input byte j (spec/42_bitpack.md R170, R175). -/
theorem State.unpackedInput_getElem? (s : State) {j k : Nat} (hj : j < s.n) (hk : k < 8) :
    (s.inputBytes.flatMap unpack8)[8 * j + k]? = some ((s.bufByte (s.srcAddr.toNat + j)).getLsbD (7 - k)) := by
  have hbyte : s.inputBytes[j]? = some (s.bufByte (s.srcAddr.toNat + j)) := by
    simp [State.inputBytes, State.readBytes, hj]
  rw [getElem?_flatMap_chunks 8 _ _ (fun _ _ => rfl) j k hk, hbyte, Option.bind_some, unpack8_getElem? _ hk]

theorem State.unpackedInput_length (s : State) : (s.inputBytes.flatMap unpack8).length = 8 * s.n := by
  rw [unpackedBits_length, State.inputBytes, State.readBytes_length]

/-! The two commands -/

/-- Settles O42: the packed bytes are those of the input by index, written once. -/
theorem bPackResult : Obligations.BPackResult := by
  intro strict s hin hfit
  have hn := s.n_le hin.inRange
  have hlen := s.packedBytes_bitsAt_length s.srcAddr.toNat s.n
  refine ⟨_, exec_bPack_passed s strict hin hfit, ⟨rfl, rfl, rfl⟩, s.toNat_count _ hfit.inRange.le,
    s.toNat_count _ (by omega), fun j hj k hk => ?_, fun x hx => ?_⟩
  · rw [State.complete_bufByte, State.setResults_bufByte, State.bufByte_writeBytes_inside _ _ _ _ (hlen ▸ hj),
      List.getElem_of_eq (s.packedBytes_bitsAt _ _), List.getElem_map, List.getElem_range, s.packAt_getLsbD _ hk]
  · rw [State.complete_bufByte, State.setResults_bufByte, State.bufByte_writeBytes_outside _ _ _ _ (by omega)]

/-- Settles O43: the unpacked stream is a bit array, written once. -/
theorem bUnpackResult : Obligations.BUnpackResult := by
  intro s hin hfit
  have hlen := s.unpackedInput_length
  have hout := (s.holdsBits_writeBits s.dstAddr.toNat (s.inputBytes.flatMap unpack8)).finished (8 * s.n) s.n 0
  refine ⟨_, exec_bUnpack_passed s hin hfit, ⟨rfl, rfl, rfl⟩, s.toNat_count _ hfit.inRange.le,
    s.toNat_count _ (s.n_le hin), fun j hj k hk => ?_, fun x hx => ?_⟩
  · have hx : 8 * j + k < (s.inputBytes.flatMap unpack8).length := by omega
    rw [Nat.add_assoc, hout _ hx, (List.getElem?_eq_some_iff.1 (s.unpackedInput_getElem? hj hk)).2]
    rfl
  · rw [State.complete_bufByte, State.setResults_bufByte, State.bufByte_writeBits_outside _ _ _ _ (by omega)]

/-! The round trips -/

/-- The host points the input at the last output and takes `dst` for the next one; all else stays. -/
def State.chained (t : State) (dst : Word) : State :=
  { t with srcAddr := t.dstAddr, srcLen := t.resLen, dstAddr := dst }

/-- The output region of a command that counts its `len` bytes in RES_LEN is in range as the next command's input. -/
theorem State.chained_inputInRange {i : Instr} {len : Nat} (hfit : s.OutputFits len) (hexec : exec i s = .next t)
    (hlen : t.resLen.toNat = len) (dst : Word) : (t.chained dst).InputInRange := by
  have hcontrol := (completion_of_exec s hexec).sameControl
  have hrange : InRange t.dstAddr.toNat t.resLen.toNat t.bufBytes := by
    rw [hlen, hcontrol.dstAddr, hcontrol.bufBytes_eq]
    exact hfit.inRange
  exact hrange

/-- B_UNPACK of what B_PACK writes gives the whole chunks of the input (spec/42_bitpack.md R176). -/
theorem bUnpack_of_bPack (strict : Bool) (hin : s.BitInput strict 8) (hfit : s.OutputFits (s.n / 8)) :
    ∃ t, exec (.bPack strict) s = .next t ∧ Completed t 0 ∧ t.resCnt.toNat = s.n % 8 ∧ ∀ dst : Word,
      (t.chained dst).OutputFits (8 * (t.chained dst).n) → ∃ u, exec .bUnpack (t.chained dst) = .next u ∧
        Completed u 0 ∧ u.resLen.toNat = 8 * (s.n / 8) ∧
        ∀ x < 8 * (s.n / 8), u.bufByte (dst.toNat + x) = s.bufByte (s.srcAddr.toNat + x) := by
  obtain ⟨t, hexec, hdone, hlen, hcnt, hpacked, -⟩ := bPackResult strict s hin hfit
  refine ⟨t, hexec, hdone, hcnt, fun dst hfit2 => ?_⟩
  have hn2 : (t.chained dst).n = s.n / 8 := hlen
  obtain ⟨u, hexec2, hdone2, hlen2, -, hunpacked, -⟩ :=
    bUnpackResult (t.chained dst) (State.chained_inputInRange hfit hexec hlen dst) hfit2
  rw [hn2] at hlen2 hunpacked
  refine ⟨u, hexec2, hdone2, hlen2, fun x hx => ?_⟩
  have hj : x / 8 < s.n / 8 := by omega
  have hk : x % 8 < 8 := Nat.mod_lt x (by decide)
  calc u.bufByte (dst.toNat + x)
      = u.bufByte (dst.toNat + 8 * (x / 8) + x % 8) := by rw [Nat.add_assoc, Nat.div_add_mod]
    _ = byteOfBit ((t.bufByte (t.dstAddr.toNat + x / 8)).getLsbD (7 - x % 8)) := hunpacked _ hj _ hk
    _ = byteOfBit (s.bitAt (s.srcAddr.toNat + 8 * (x / 8) + x % 8)) := by
      rw [(completion_of_exec s hexec).sameControl.dstAddr, hpacked _ hj _ hk]
    _ = byteOfBit (s.bitAt (s.srcAddr.toNat + x)) := by rw [Nat.add_assoc, Nat.div_add_mod]
    _ = s.bufByte (s.srcAddr.toNat + x) := byteOfBit_bitAt s _ (hin.bits x (by omega))

/-- B_PACK of what B_UNPACK writes gives the bytes back (spec/42_bitpack.md R176). -/
theorem bPack_of_bUnpack (strict : Bool) (hin : s.InputInRange) (hfit : s.OutputFits (8 * s.n)) :
    ∃ t, exec .bUnpack s = .next t ∧ Completed t 0 ∧ ∀ dst : Word,
      (t.chained dst).OutputFits ((t.chained dst).n / 8) → ∃ u, exec (.bPack strict) (t.chained dst) = .next u ∧
        Completed u 0 ∧ u.resLen = s.srcLen ∧
        ∀ x < s.n, u.bufByte (dst.toNat + x) = s.bufByte (s.srcAddr.toNat + x) := by
  obtain ⟨t, hexec, hdone, hlen, -, hunpacked, -⟩ := bUnpackResult s hin hfit
  rw [← (completion_of_exec s hexec).sameControl.dstAddr] at hunpacked
  have hbyte {j k : Nat} (hj : j < s.n) (hk : k < 8) : t.bufByte (t.dstAddr.toNat + 8 * j + k) =
      byteOfBit ((s.bufByte (s.srcAddr.toNat + j)).getLsbD (7 - k)) := hunpacked j hj k hk
  refine ⟨t, hexec, hdone, fun dst hfit2 => ?_⟩
  have hn2 : (t.chained dst).n = 8 * s.n := hlen
  have hchunks : (t.chained dst).n / 8 = s.n := by omega
  have hbits : ∀ x < (t.chained dst).n, t.IsBit (t.dstAddr.toNat + x) := fun x hx => by
    rw [← Nat.div_add_mod x 8, ← Nat.add_assoc, State.IsBit, hbyte (by omega) (by omega)]
    exact byteOfBit_isBit _
  have hin2 : (t.chained dst).BitInput strict 8 :=
    ⟨State.chained_inputInRange hfit hexec hlen dst, fun _ => by omega, hbits⟩
  obtain ⟨u, hexec2, hdone2, hlen2, -, hpacked, -⟩ := bPackResult strict (t.chained dst) hin2 hfit2
  rw [hchunks] at hlen2 hpacked
  refine ⟨u, hexec2, hdone2, BitVec.eq_of_toNat_eq hlen2, fun x hx => byte_eq_of_getLsbD_eq fun k hk => ?_⟩
  calc (u.bufByte (dst.toNat + x)).getLsbD (7 - k)
      = t.bitAt (t.dstAddr.toNat + 8 * x + k) := hpacked x hx k hk
    _ = (s.bufByte (s.srcAddr.toNat + x)).getLsbD (7 - k) := by
      rw [State.bitAt, hbyte hx hk]
      exact byteOfBit_beq_one _

/-- Settles O44: each command undoes the other, B_UNPACK on whole chunks and B_PACK on every byte. -/
theorem packRoundTrip : Obligations.PackRoundTrip :=
  ⟨fun strict _ hin hfit => bUnpack_of_bPack strict hin hfit,
    fun strict _ hin hfit => bPack_of_bUnpack strict hin hfit⟩

end Sys2Proof.Machine

/- The Huffman family (spec/43_huffman.md): the tree and its codes, the table HUF_BUILD writes, and parsing a bit array
into codewords, from which HUF_ENCODE, HUF_DECODE and their round trip follow. -/

namespace Sys2Proof.Machine

variable {s t : State} {text : List Byte}

/-! The tree and its codes -/

/-- Settles O45: a queue that is not empty has a least entry, and `extractMin` returns it. -/
theorem extractMinTakesTheLeast : Obligations.ExtractMinTakesTheLeast := by
  intro q hq
  cases h : extractMin q with
  | none => exact absurd ((extractMin_none q).1 h) hq
  | some p => exact ⟨p.1, p.2, rfl, extractMin_some q p.1 p.2 h⟩

theorem sum_freq_enqueue (id : Nat) (nodes : List HuffmanNode) :
    ((enqueue id nodes).map fun x => x.node.freq).sum = (nodes.map HuffmanNode.freq).sum := by
  conv_rhs => rw [← enqueue_nodes id nodes, List.map_map]
  rfl

/-- Settles O46: the merge loop follows the procedure, and a merge keeps the sum of the frequencies. -/
theorem treeIsBuiltByLeastPairs : Obligations.TreeIsBuiltByLeastPairs := by
  intro text htext
  obtain ⟨root, hroot, hmerges⟩ := buildTree_mergesTo text htext
  refine ⟨leaves_eq text, root, hroot, hmerges, ?_⟩
  rw [hmerges.freq, sum_freq_enqueue, leaves_freq_sum]

/-- The codes of a tree are the paths to its leaves (spec/43_huffman.md R194). -/
theorem mem_assignCodes_iff_follow (node : HuffmanNode) (c : Byte) (path : List Bool) :
    (c, path) ∈ assignCodes node [] ↔ ∃ f, node.follow path = some (.leaf c f) := by
  induction node generalizing path with
  | leaf d f =>
    cases path with
    | nil => simp [assignCodes, HuffmanNode.follow, eq_comm]
    | cons b path => simp [assignCodes, HuffmanNode.follow]
  | internal l r f ihl ihr =>
    rw [assignCodes_internal]
    match path with
    | [] => simp [HuffmanNode.follow]
    | false :: path => simpa [HuffmanNode.follow] using ihl path
    | true :: path => simpa [HuffmanNode.follow] using ihr path

/-- Settles O47: by induction on the tree. -/
theorem codewordIsThePathToTheLeaf : Obligations.CodewordIsThePathToTheLeaf := mem_assignCodes_iff_follow

/-- An entry of the code table is a symbol of the text with its code. -/
theorem mem_codesOfText {c : Byte} {w : List Bool} (htext : text ≠ []) (h : (c, w) ∈ codesOfText text) :
    c ∈ text ∧ codeOf (codesOfText text) c = w := by
  have hperm := codesOfText_symbols text htext
  have hnodup : ((codesOfText text).map Prod.fst).Nodup := hperm.nodup_iff.2 (distinctSymbols_nodup text)
  refine ⟨(mem_distinctSymbols text c).1 (hperm.mem_iff.1 (List.mem_map_of_mem h)), ?_⟩
  rw [codeOf, (lookup_eq_some_iff _ hnodup c w).2 h, Option.getD_some]

/-- With two or more distinct symbols, a symbol's code is the path to its leaf (spec/43_huffman.md R194). -/
theorem follow_codeOf (h2 : 2 ≤ (distinctSymbols text).length) {root : HuffmanNode}
    (hroot : buildTree text = some root) {c : Byte} (hc : c ∈ text) : ∃ f, root.follow (codeOf (codesOfText text) c) = some (.leaf c f) := by
  rcases codesOfText_cases text (List.ne_nil_of_mem hc) with ⟨d, hd, -⟩ | ⟨-, root', hroot', -, hcodes, -⟩
  · simp [hd] at h2
  · cases hroot.symm.trans hroot'
    rw [← mem_assignCodes_iff_follow, ← hcodes]
    exact codeOf_mem text c hc

/-- With two or more distinct symbols the code is complete (spec/43_huffman.md R197). -/
theorem codeOf_complete (h2 : 2 ≤ (distinctSymbols text).length) (htext : text ≠ []) (bits : List Bool) :
    ∃ c ∈ text, bits <+: codeOf (codesOfText text) c ∨ codeOf (codesOfText text) c <+: bits := by
  rcases codesOfText_cases text htext with ⟨d, hd, -⟩ | ⟨-, root, -, -, hcodes, -⟩
  · simp [hd] at h2
  · obtain ⟨⟨c, w⟩, hmem, hprefix⟩ := assignCodes_complete root bits
    obtain ⟨hc, rfl⟩ := mem_codesOfText htext (hcodes ▸ hmem)
    exact ⟨c, hc, hprefix⟩

theorem distinctSymbols_of_forall_eq {c : Byte} (htext : text ≠ []) (h : ∀ d ∈ text, d = c) :
    distinctSymbols text = [c] := by
  refine List.perm_singleton.1 ((List.perm_ext_iff_of_nodup (distinctSymbols_nodup text) (List.nodup_singleton c)).2 ?_)
  intro d
  obtain ⟨e, he⟩ := List.exists_mem_of_ne_nil text htext
  rw [mem_distinctSymbols, List.mem_singleton]
  exact ⟨h d, fun hd => by rwa [hd, ← h e he]⟩

/-! The table HUF_BUILD writes -/

/-- FREQ and CT are those of `text` (spec/43_huffman.md R191, R196). -/
structure State.HoldsTable (t : State) (text : List Byte) : Prop where
  freq : ∀ c, t.freqAt c = BitVec.ofNat 32 (text.count c)
  codeword : ∀ c, t.codeword c = codeOf (codesOfText text) c
  words : ∀ c, ∀ j < 8, t.ctCwAt c j = codeWord (codeOf (codesOfText text) c) j

theorem State.replaceTable_holdsTable (s : State) (text : List Byte) :
    (s.replaceTable text (codesOfText text)).HoldsTable text where
  freq := s.replaceTable_freqAt text _
  codeword := s.replaceTable_codeword_text text
  words := s.replaceTable_ctCwAt text _

/-- The end of a command leaves the table alone (spec/40_command_execution.md R114). -/
theorem State.HoldsTable.finished (h : t.HoldsTable text) (len cnt : Nat) (code : BitVec 4) :
    ((t.setResults len cnt).complete code).HoldsTable text := ⟨h.freq, h.codeword, h.words⟩

theorem State.finished_maxCtLen (t : State) (len cnt : Nat) (code : BitVec 4) :
    ((t.setResults len cnt).complete code).maxCtLen = t.maxCtLen := by
  simp only [State.maxCtLen, State.complete_ctLenAt, State.setResults_ctLenAt]

/-- No symbol's codeword starts with another's; a symbol without a codeword has `[]` (spec/43_huffman.md R197). -/
def PrefixFree (code : Byte → List Bool) : Prop :=
  ∀ c d, code c ≠ [] → code d ≠ [] → code c <+: code d → c = d

theorem State.codeword_ne_nil_iff (s : State) (c : Byte) : s.codeword c ≠ [] ↔ s.ctLenAt c ≠ 0 :=
  (s.codeword_eq_nil c).not

section
variable (h : t.HoldsTable text)
include h

theorem State.HoldsTable.ctLenAt_toNat (c : Byte) : (t.ctLenAt c).toNat = (codeOf (codesOfText text) c).length := by
  rw [← State.codeword_length, h.codeword]

theorem State.HoldsTable.ctLenAt_eq_zero_iff (c : Byte) : t.ctLenAt c = 0 ↔ c ∉ text := by
  rw [← t.codeword_eq_nil, h.codeword]
  refine ⟨fun hnil hc => ?_, codeOf_absent text c⟩
  have hlen := (codeOf_length text c hc).1
  simp [hnil] at hlen

theorem State.HoldsTable.ctLenAt_ne_zero_iff (c : Byte) : t.ctLenAt c ≠ 0 ↔ c ∈ text :=
  (h.ctLenAt_eq_zero_iff c).not_left

/-- Bits of CT_CW at or above CT_LEN are 0 (spec/43_huffman.md R190). -/
theorem State.HoldsTable.getLsbD_above {c : Byte} {k : Nat} (hk : k < 256) (hlen : (t.ctLenAt c).toNat ≤ k) :
    (t.ctCwAt c (k / 32)).getLsbD (k % 32) = false := by
  rw [h.ctLenAt_toNat] at hlen
  rw [h.words c _ (by omega), codeWord_getLsbD _ _ _ (by omega), Nat.div_add_mod]
  simp [hlen]

theorem State.HoldsTable.prefixFree : PrefixFree t.codeword := by
  intro c d hc hd hprefix
  rw [State.codeword_ne_nil_iff, h.ctLenAt_ne_zero_iff] at hc hd
  rw [h.codeword, h.codeword] at hprefix
  exact codeOf_prefix text c d hc hd hprefix

end

theorem State.inputBytes_length (s : State) : s.inputBytes.length = s.n := s.readBytes_length _ _

theorem State.inputBytes_ne_nil (hn : s.n ≠ 0) : s.inputBytes ≠ [] :=
  List.ne_nil_of_length_pos (by rw [s.inputBytes_length]; omega)

/-- What HUF_BUILD leaves once its checks pass (spec/43_huffman.md R190, R196). -/
theorem exec_hufBuild_holdsTable (hin : s.InputInRange) (hn : s.n ≠ 0) :
    ∃ t, exec .hufBuild s = .next t ∧ Completed t 0 ∧ t.HoldsTable s.inputBytes ∧ t.resLen.toNat = t.maxCtLen ∧
      t.resCnt.toNat = (distinctSymbols s.inputBytes).length := by
  have hexec := exec_hufBuild_passed s hin hn
  have htable := s.replaceTable_holdsTable s.inputBytes
  generalize s.replaceTable s.inputBytes (codesOfText s.inputBytes) = u at hexec htable
  have h256 : 256 ≤ s.bufBytes := (by decide : 256 ≤ 4096).trans s.bufBytes_ge
  refine ⟨_, hexec, ⟨rfl, rfl, rfl⟩, htable.finished _ _ _, ?_, ?_⟩
  · rw [u.finished_maxCtLen]
    exact s.toNat_count _ (u.maxCtLen_le.trans (by omega))
  · rw [leaves_length]
    exact s.toNat_count _ ((distinctSymbols_length_le _).trans h256)

/-- Settles O48: HUF_BUILD's end holds the text's table and counts it. -/
theorem hufBuildResult : Obligations.HufBuildResult := by
  intro s hin hn text
  obtain ⟨t, hexec, hdone, htable, hlen, hcnt⟩ := exec_hufBuild_holdsTable hin hn
  have hend := completion_of_exec s hexec
  obtain ⟨root, hroot, -⟩ := buildTree_mergesTo text (State.inputBytes_ne_nil hn)
  refine ⟨t, hexec, hdone, hend.buf_eq (by simp), hend.hres_eq (by simp), fun c => ?_, htable.ctLenAt_eq_zero_iff,
    fun c => ⟨rfl, htable.codeword c⟩, ⟨root, hroot, fun h2 c hc => ?_⟩, fun c k hk => htable.getLsbD_above hk,
    fun c => (t.le_maxCtLen c).trans_eq hlen.symm, hlen ▸ t.maxCtLen_attained, hcnt⟩
  · have hcount : text.count c ≤ s.bufBytes :=
      (List.count_le_length.trans_eq s.inputBytes_length).trans (s.n_le hin)
    rw [htable.freq]
    exact s.toNat_count _ hcount
  · obtain ⟨f, hf⟩ := follow_codeOf (hcnt ▸ h2) hroot hc
    exact ⟨f, (congrArg root.follow (htable.codeword c)).trans hf⟩

theorem codeWord_singleton_false (j : Nat) : codeWord [false] j = 0 := by
  cases j with
  | zero => rfl
  | succ j => simp [codeWord, lsbFirst, Nat.mul_succ]

/-- Settles O49: the text's only symbol has the code [0], so 1 is the one length in the table that is not 0. -/
theorem oneSymbolTextGetsCodewordZero : Obligations.OneSymbolTextGetsCodewordZero := by
  intro s c hin hn hall
  obtain ⟨t, hexec, -, htable, hlen, hcnt⟩ := exec_hufBuild_holdsTable hin hn
  have htext : s.inputBytes ≠ [] := State.inputBytes_ne_nil hn
  have honly : ∀ d ∈ s.inputBytes, d = c := fun d hd => by
    obtain ⟨i, hi, rfl⟩ := (s.mem_readBytes _ _ d).1 hd
    exact hall i hi
  have hsymbols := distinctSymbols_of_forall_eq htext honly
  have hc : c ∈ s.inputBytes := by simp [← mem_distinctSymbols, hsymbols]
  obtain ⟨-, -, -, hone⟩ := codeOf_length _ c hc
  have hcode := hone (by rw [hsymbols, List.length_singleton])
  have hclen : (t.ctLenAt c).toNat = 1 := by rw [htable.ctLenAt_toNat, hcode, List.length_singleton]
  have hmax : t.maxCtLen = 1 := by
    obtain ⟨d, hd⟩ := t.maxCtLen_attained
    have hle := t.le_maxCtLen c
    have hdtext : d ∈ s.inputBytes := (htable.ctLenAt_ne_zero_iff d).1 fun h0 => by
      simp [h0] at hd
      omega
    rw [← hd, honly d hdtext, hclen]
  refine ⟨t, hexec, BitVec.eq_of_toNat_eq hclen, (htable.codeword c).trans hcode,
    BitVec.eq_of_toNat_eq (hlen.trans hmax), BitVec.eq_of_toNat_eq (hcnt.trans ?_), fun j hj => ?_⟩
  · rw [hsymbols]; rfl
  · rw [htable.words c j hj, hcode, codeWord_singleton_false]

/-- Settles O50: each property of the table is one of the code of the text. -/
theorem builtTableIsPrefixFree : Obligations.BuiltTableIsPrefixFree := by
  intro s t hin hn hexec nsym
  obtain ⟨u, hexec', -, htable, hlen, hcnt⟩ := exec_hufBuild_holdsTable hin hn
  cases hexec.symm.trans hexec'
  have hnsym : nsym = (distinctSymbols s.inputBytes).length := hcnt
  have hfree : ∀ c d, t.ctLenAt c ≠ 0 → t.ctLenAt d ≠ 0 → t.codeword c <+: t.codeword d → c = d := by
    simpa only [PrefixFree, State.codeword_ne_nil_iff] using htable.prefixFree
  refine ⟨fun c d hc hd hne hprefix => hne (hfree c d hc hd hprefix),
    fun c d hc hd heq => hfree c d hc hd (heq ▸ List.prefix_rfl), fun c hc => ?_,
    hlen.trans_le t.maxCtLen_le, fun h2 bits => ?_⟩
  · rw [htable.codeword, hnsym]
    obtain ⟨hpos, -, hlt, hone⟩ := codeOf_length _ c ((htable.ctLenAt_ne_zero_iff c).1 hc)
    exact ⟨hpos, fun h2 => Nat.le_sub_one_of_lt (hlt h2), fun h1 => by rw [hone h1, List.length_singleton]⟩
  · obtain ⟨c, hc, hprefix⟩ := codeOf_complete (hnsym ▸ h2) (State.inputBytes_ne_nil hn) bits
    exact ⟨c, (htable.ctLenAt_ne_zero_iff c).2 hc, by rwa [htable.codeword]⟩

/-! Encoding -/

/-- Settles O51: the encoded stream is a bit array, written once. -/
theorem hufEncodeResult : Obligations.HufEncodeResult := by
  intro s hin htext text code out hfit
  have hout := (s.holdsBits_writeBits s.dstAddr.toNat out).finished out.length s.n 0
  refine ⟨_, exec_hufEncode_passed s hin htext hfit, ⟨rfl, rfl, rfl⟩, s.toNat_count _ hfit.inRange.le,
    s.toNat_count _ (s.n_le hin), hout, fun x hx => ?_⟩
  rw [State.complete_bufByte, State.setResults_bufByte]
  exact s.bufByte_writeBits_outside _ _ _ hx

/-! Parsing a bit array into codewords -/

/-- `bits` are the codewords of the symbols `out`, and then `rest`, which starts with no codeword
(spec/43_huffman.md R212, R213). -/
structure Parses (code : Byte → List Bool) (bits : List Bool) (out : List Byte) (rest : List Bool) : Prop where
  bits_eq : bits = out.flatMap code ++ rest
  symbols : ∀ c ∈ out, code c ≠ []
  stuck : ∀ c, code c ≠ [] → ¬code c <+: rest

section
variable {code : Byte → List Bool} {bits rest rest' : List Bool} {c : Byte} {out out' : List Byte}

theorem Parses.head_prefix (h : Parses code bits (c :: out) rest) : code c <+: bits :=
  ⟨_, by rw [h.bits_eq, List.flatMap_cons, List.append_assoc]⟩

theorem Parses.head_ne_nil (h : Parses code bits (c :: out) rest) : code c ≠ [] := h.symbols c List.mem_cons_self

theorem Parses.tail (h : Parses code (code c ++ bits) (c :: out) rest) : Parses code bits out rest where
  bits_eq := by simpa using h.bits_eq
  symbols := fun d hd => h.symbols d (List.mem_cons_of_mem c hd)
  stuck := h.stuck

/-- With a `PrefixFree` code a bit array has one parse (spec/43_huffman.md R215). -/
theorem Parses.unique (hfree : PrefixFree code) (h : Parses code bits out rest) (h' : Parses code bits out' rest') :
    out = out' ∧ rest = rest' := by
  induction out generalizing bits out' with
  | nil =>
    obtain rfl : bits = rest := h.bits_eq
    cases out' with
    | nil => exact ⟨rfl, h'.bits_eq⟩
    | cons d out' => exact absurd h'.head_prefix (h.stuck d h'.head_ne_nil)
  | cons c out ih =>
    cases out' with
    | nil =>
      obtain rfl : bits = rest' := h'.bits_eq
      exact absurd h.head_prefix (h'.stuck c h.head_ne_nil)
    | cons d out' =>
      obtain rfl : c = d := (List.prefix_or_prefix_of_prefix h.head_prefix h'.head_prefix).elim
        (hfree c d h.head_ne_nil h'.head_ne_nil) fun hdc => (hfree d c h'.head_ne_nil h.head_ne_nil hdc).symm
      obtain ⟨bits, rfl⟩ := h.head_prefix
      obtain ⟨rfl, rfl⟩ := ih h.tail h'.tail
      exact ⟨rfl, rfl⟩

/-- The codewords of a text are parsed as the text. -/
theorem parses_flatMap (htext : ∀ c ∈ text, code c ≠ []) : Parses code (text.flatMap code) text [] :=
  ⟨(List.append_nil _).symm, htext, fun _ hne hprefix => hne (List.prefix_nil.1 hprefix)⟩

end

/-- What the decode loop does with the bits of the input (spec/43_huffman.md R212, R213). -/
theorem State.decodeBits_nil_spec (s : State) (bits : List Bool) :
    bits = (s.decodeBits [] bits).1.flatMap s.codeword ++ (s.decodeBits [] bits).2 ∧
    (∀ c ∈ (s.decodeBits [] bits).1, s.Emits c) ∧
    ∀ k ≤ (s.decodeBits [] bits).2.length, ¬s.IsCodeword ((s.decodeBits [] bits).2.take k) :=
  s.decodeBits_spec bits [] (by simpa using s.not_isCodeword_nil)

theorem State.decodeBits_parses (s : State) (bits : List Bool) :
    Parses s.codeword bits (s.decodeBits [] bits).1 (s.decodeBits [] bits).2 := by
  obtain ⟨hbits, hemits, hrest⟩ := s.decodeBits_nil_spec bits
  refine ⟨hbits, fun c hc => (s.codeword_ne_nil_iff c).2 (hemits c hc).1, fun c hne hprefix => ?_⟩
  exact hrest _ hprefix.length_le ⟨c, (s.codeword_ne_nil_iff c).1 hne, List.prefix_iff_eq_take.1 hprefix⟩

/-! Decoding -/

/-- `t` is the end of a HUF_DECODE from `s` that wrote the symbols `out` and had the bits `rest` left
(spec/43_huffman.md R212, R214). -/
structure DecodeEnd (s t : State) (out : List Byte) (rest : List Bool) : Prop where
  bytes : ∀ (k : Nat) (hk : k < out.length), t.bufByte (s.dstAddr.toNat + k) = out[k]
  outside : SameOutside s t s.dstAddr.toNat out.length
  resLen : t.resLen.toNat = out.length
  resCnt : t.resCnt.toNat = rest.length
  completed : rest = [] → Completed t 0
  mismatch : rest ≠ [] → Completed t 8

/-- HUF_DECODE ends with what the decode loop finds. -/
theorem exec_hufDecode_decodeEnd (hin : s.BitInput false 1) (hfit : s.OutputFits s.n) {out : List Byte}
    {rest : List Bool} (hloop : s.decodeBits [] (s.bitsAt s.srcAddr.toNat s.n) = (out, rest)) :
    ∃ t, exec .hufDecode s = .next t ∧ DecodeEnd s t out rest := by
  have hexec := exec_hufDecode_passed s hin hfit
  have hle := s.decodeBits_length_le (s.bitsAt s.srcAddr.toNat s.n)
  have hn := s.n_le hin.inRange
  rw [hloop] at hexec hle
  rw [s.bitsAt_length] at hle
  refine ⟨_, hexec, fun k hk => ?_, fun x hx => ?_, s.toNat_count _ (by omega), s.toNat_count _ (by omega),
    fun hnil => ⟨if_pos hnil, rfl, rfl⟩, fun hne => ⟨if_neg hne, rfl, rfl⟩⟩
  · rw [State.complete_bufByte, State.setResults_bufByte, s.bufByte_writeBytes_inside _ _ k hk]
  · rw [State.complete_bufByte, State.setResults_bufByte, s.bufByte_writeBytes_outside _ _ _ hx]

/-- Settles O52: the loop's parse takes the shortest match and the least symbol, and is what is written. -/
theorem hufDecodeResult : Obligations.HufDecodeResult := by
  intro s hin hfit bits code isCode
  obtain ⟨hbits, hemits, hrest⟩ := s.decodeBits_nil_spec bits
  obtain ⟨t, hexec, hend⟩ := exec_hufDecode_decodeEnd hin hfit rfl
  exact ⟨t, _, _, hexec, hbits, hemits, hrest, hend.bytes, hend.outside, hend.resLen, hend.resCnt, hend.completed,
    hend.mismatch⟩

/-- With a `PrefixFree` code, HUF_DECODE of an input ends with the one parse there is (spec/43_huffman.md R215). -/
theorem hufDecode_of_parses (hin : s.BitInput false 1) (hfit : s.OutputFits s.n) (hfree : PrefixFree s.codeword)
    {out : List Byte} {rest : List Bool} (hparse : Parses s.codeword (s.bitsAt s.srcAddr.toNat s.n) out rest) :
    ∃ t, exec .hufDecode s = .next t ∧ DecodeEnd s t out rest :=
  exec_hufDecode_decodeEnd hin hfit (Prod.ext_iff.2 ((s.decodeBits_parses _).unique hfree hparse))

/-! What stays for the next command -/

theorem SameControl.bufByte_eq (h : SameControl s t) (hbuf : t.buf = s.buf) (a : Nat) : t.bufByte a = s.bufByte a := by
  rw [State.bufByte, hbuf, h.epoch, State.bufByte]

theorem SameControl.n_eq (h : SameControl s t) : t.n = s.n := congrArg BitVec.toNat h.srcLen

theorem SameControl.inputInRange (h : SameControl s t) (hin : s.InputInRange) : t.InputInRange := by
  rw [State.InputInRange, h.srcAddr, h.n_eq, h.bufBytes_eq]
  exact hin

theorem SameControl.inputBytes_eq (h : SameControl s t) (hbuf : t.buf = s.buf) : t.inputBytes = s.inputBytes := by
  rw [State.inputBytes, h.srcAddr, h.n_eq]
  exact State.readBytes_congr _ _ _ _ _ fun i _ => h.bufByte_eq hbuf _

/-- Every command but HUF_BUILD and HUF_CLEAR leaves the codewords alone (spec/10_state.md R33). -/
theorem Completion.codeword_eq {i : Instr} (hc : Completion s i t) (hbuild : i ≠ .hufBuild) (hclear : i ≠ .hufClear) :
    t.codeword = s.codeword := by
  obtain ⟨hlen, hcw⟩ := hc.ct_eq hbuild hclear
  funext c
  simp only [State.codeword, State.ctLenAt, State.ctCwAt, hlen, hcw, hc.sameControl.epoch]

/-! The round trip -/

theorem State.HoldsBits.bitsAt_eq {a : Nat} {bits : List Bool} (h : s.HoldsBits a bits) :
    s.bitsAt a bits.length = bits :=
  List.ext_getElem (s.bitsAt_length _ _) fun i _ hi => by
    rw [s.bitsAt_getElem, State.bitAt, h i hi]
    exact byteOfBit_beq_one _

/-- HUF_DECODE of what HUF_ENCODE writes gives the text back, with any `PrefixFree` table (spec/43_huffman.md R215). -/
theorem hufDecode_of_hufEncode (hfree : PrefixFree s.codeword) (hin : s.InputInRange)
    (htext : ∀ c ∈ s.inputBytes, s.codeword c ≠ []) (hfit : s.OutputFits (s.outputLength .hufEncode)) :
    ∃ t, exec .hufEncode s = .next t ∧ t.ecode = 0 ∧ ∀ dst : Word,
      (t.chained dst).OutputFits (t.chained dst).n → ∃ u, exec .hufDecode (t.chained dst) = .next u ∧ u.ecode = 0 ∧
        u.resLen = s.srcLen ∧ u.resCnt = 0 ∧
        ∀ i < s.n, u.bufByte (dst.toNat + i) = s.bufByte (s.srcAddr.toNat + i) := by
  rw [State.outputLength, State.encodedLength_eq] at hfit
  have hok : s.TextOk .hufEncode := ⟨nofun, fun _ j hj => (s.codeword_ne_nil_iff _).1
    (htext _ ((s.mem_readBytes _ _ _).2 ⟨j, hj, rfl⟩))⟩
  obtain ⟨t, hexec, hdone, hlen, -, hout, -⟩ := hufEncodeResult s hin hok hfit
  have hend := completion_of_exec s hexec
  have hcode := hend.codeword_eq (by simp) (by simp)
  have hholds : t.HoldsBits t.dstAddr.toNat (s.inputBytes.flatMap s.codeword) := by
    rw [hend.sameControl.dstAddr]
    exact hout
  refine ⟨t, hexec, hdone.ecode, fun dst hfit2 => ?_⟩
  have hn2 : (t.chained dst).n = (s.inputBytes.flatMap s.codeword).length := hlen
  have hin2 : (t.chained dst).BitInput false 1 :=
    ⟨State.chained_inputInRange hfit hexec hlen dst, nofun, fun i hi => hholds.isBit (hn2 ▸ hi)⟩
  have hbits : (t.chained dst).bitsAt t.dstAddr.toNat (t.chained dst).n = s.inputBytes.flatMap s.codeword := by
    rw [hn2]
    exact hholds.bitsAt_eq
  have hparse : Parses t.codeword ((t.chained dst).bitsAt t.dstAddr.toNat (t.chained dst).n) s.inputBytes [] := by
    rw [hbits, hcode]
    exact parses_flatMap htext
  obtain ⟨u, hexec2, hend2⟩ := hufDecode_of_parses hin2 hfit2 (hcode ▸ hfree) hparse
  refine ⟨u, hexec2, (hend2.completed rfl).ecode, BitVec.eq_of_toNat_eq (hend2.resLen.trans s.inputBytes_length),
    BitVec.eq_of_toNat_eq hend2.resCnt, fun i hi => ?_⟩
  exact (hend2.bytes i (hi.trans_eq s.inputBytes_length.symm)).trans (s.readBytes_getElem _ _ _ _)

/-- Settles O53: HUF_BUILD's table is `PrefixFree` and has a codeword for every symbol of the text. -/
theorem huffmanRoundTrip : Obligations.HuffmanRoundTrip := by
  intro s hin hn
  obtain ⟨t, hexec, hdone, htable, -, -⟩ := exec_hufBuild_holdsTable hin hn
  have hend := completion_of_exec s hexec
  have hcontrol := hend.sameControl
  have hbuf : t.buf = s.buf := hend.buf_eq (by simp)
  refine ⟨t, hexec, hdone.ecode, ?_⟩
  intro dst s2 hfit
  have htext : ∀ c ∈ s2.inputBytes, s2.codeword c ≠ [] := fun c hc =>
    (s2.codeword_ne_nil_iff c).2 ((htable.ctLenAt_ne_zero_iff c).2 (hcontrol.inputBytes_eq hbuf ▸ hc))
  obtain ⟨u, hexec2, hdone2, hdecode⟩ :=
    hufDecode_of_hufEncode (s := s2) htable.prefixFree (hcontrol.inputInRange hin) htext hfit
  refine ⟨u, hexec2, hdone2, ?_⟩
  intro dst3 s3 hfit3
  have hs3 : s3 = u.chained dst3 := by
    rw [State.chained, (completion_of_exec s2 hexec2).sameControl.dstAddr]
  rw [hs3] at hfit3 ⊢
  obtain ⟨v, hexec3, hdone3, hlen, hcnt, hcopy⟩ := hdecode dst3 hfit3
  refine ⟨v, hexec3, hdone3, hlen.trans hcontrol.srcLen, hcnt, fun i hi => ?_⟩
  calc v.bufByte (dst3.toNat + i)
      = t.bufByte (t.srcAddr.toNat + i) := hcopy i (hi.trans_eq hcontrol.n_eq.symm)
    _ = s.bufByte (s.srcAddr.toNat + i) := by rw [hcontrol.bufByte_eq hbuf, hcontrol.srcAddr]

/-! HUF_CLEAR -/

/-- HUF_ENCODE of a text without a codeword (spec/43_huffman.md R206). -/
theorem hufEncode_noSym (hin : s.InputInRange) (ht : ¬s.TextOk .hufEncode) :
    exec .hufEncode s = .next (s.emptyEnd 7) := by
  obtain ⟨-, -, -, -, hnosym, -⟩ := firstFailingCheckIsReported.2 .hufEncode s rfl
  exact hnosym hin rfl ht

/-- HUF_DECODE with an empty table leaves the whole input over (spec/43_huffman.md R214). -/
theorem hufDecode_of_emptyTable (hin : s.BitInput false 1) (hfit : s.OutputFits s.n) (hempty : ∀ c, s.ctLenAt c = 0) :
    ∃ t, exec .hufDecode s = .next t ∧ DecodeEnd s t [] (s.bitsAt s.srcAddr.toNat s.n) := by
  have hnone (c : Byte) (hc : s.codeword c ≠ []) : False := (s.codeword_ne_nil_iff c).1 hc (hempty c)
  exact hufDecode_of_parses hin hfit (fun c _ hc => (hnone c hc).elim) ⟨rfl, nofun, fun c hc => (hnone c hc).elim⟩

theorem State.bitsAt_ne_nil (s : State) (a : Nat) {n : Nat} (hn : n ≠ 0) : s.bitsAt a n ≠ [] :=
  List.ne_nil_of_length_pos (by rw [s.bitsAt_length]; omega)

/-- What HUF_CLEAR leaves (spec/43_huffman.md R220). -/
theorem exec_hufClear (s : State) : exec .hufClear s = .next ((s.clearTable.setResults 0 0).complete 0) := rfl

/-- Settles O54: in the cleared table no symbol has a codeword. -/
theorem hufClearEmptiesTheTable : Obligations.HufClearEmptiesTheTable := by
  refine ⟨fun w => decode_eq_ok_iff_eq_encode w .hufClear, fun s => ⟨_, exec_hufClear s, ⟨rfl, rfl, rfl⟩, rfl, rfl,
    fun _ => rfl, fun c j hj => ?_, rfl, rfl, rfl, fun hin hn => ?_, fun hin hfit hn => ?_⟩⟩
  · rw [State.complete_ctCwAt, State.setResults_ctCwAt, s.clearTable_ctCwAt c j hj]
  · exact hufEncode_noSym hin fun htext => htext.2 rfl 0 (Nat.pos_of_ne_zero hn) rfl
  · obtain ⟨u, hexec, hend⟩ := hufDecode_of_emptyTable (s := (s.clearTable.setResults 0 0).complete 0)
      ⟨hin.inRange, hin.whole, hin.bits⟩ ⟨hfit.inRange, hfit.disjoint⟩ fun _ => rfl
    exact ⟨u, hexec, (hend.mismatch (State.bitsAt_ne_nil _ _ hn)).ecode⟩

/-! The one-symbol table -/

theorem State.bitsAt_add (s : State) (a m n : Nat) : s.bitsAt a (m + n) = s.bitsAt a m ++ s.bitsAt (a + m) n := by
  simp only [State.bitsAt, List.range_add, List.map_append, List.map_map, Function.comp_def, Nat.add_assoc]

theorem State.bitsAt_eq_replicate {a n : Nat} {b : Bool} (h : ∀ i < n, s.bitAt (a + i) = b) :
    s.bitsAt a n = List.replicate n b := by
  refine List.eq_replicate_iff.2 ⟨s.bitsAt_length a n, fun x hx => ?_⟩
  obtain ⟨i, hi, rfl⟩ := List.mem_map.1 hx
  exact h i (List.mem_range.1 hi)

section
variable {c : Byte} (hother : ∀ d, d ≠ c → s.ctLenAt d = 0)
include hother

theorem State.eq_of_codeword_ne_nil {d : Byte} (hd : s.codeword d ≠ []) : d = c :=
  not_not.1 fun hne => (s.codeword_ne_nil_iff d).1 hd (hother d hne)

variable (hc : s.codeword c = [false])
include hc

/-- With the one codeword [0], zeros up to bit `k`, and a 1 there unless the input ends, are `k` symbols and a rest
(spec/43_huffman.md R216). -/
theorem State.parses_zeros {a k n : Nat} (hk : k ≤ n) (hzeros : ∀ i < k, s.bitAt (a + i) = false)
    (hone : k < n → s.bitAt (a + k) = true) :
    Parses s.codeword (s.bitsAt a n) (List.replicate k c) (s.bitsAt (a + k) (n - k)) where
  bits_eq := by
    rw [List.flatMap_replicate, hc, List.flatten_replicate_singleton, ← State.bitsAt_eq_replicate hzeros,
      ← State.bitsAt_add, Nat.add_sub_cancel' hk]
  symbols d hd := by
    rw [List.eq_of_mem_replicate hd, hc]
    exact List.cons_ne_nil _ _
  stuck d hd hprefix := by
    obtain rfl := State.eq_of_codeword_ne_nil hother hd
    rw [hc] at hprefix
    have hlen := hprefix.length_le
    rw [List.length_singleton, State.bitsAt_length] at hlen
    have hbit := hprefix.getElem (i := 0) (by simp)
    rw [State.bitsAt_getElem, Nat.add_zero, hone (by omega)] at hbit
    cases hbit

/-- HUF_DECODE with the one codeword [0] (spec/43_huffman.md R216). -/
theorem hufDecode_of_oneSymbol (hin : s.BitInput false 1) (hfit : s.OutputFits s.n) {k : Nat} (hk : k ≤ s.n)
    (hzeros : ∀ i < k, s.bitAt (s.srcAddr.toNat + i) = false)
    (hone : k < s.n → s.bitAt (s.srcAddr.toNat + k) = true) :
    ∃ t, exec .hufDecode s = .next t ∧
      DecodeEnd s t (List.replicate k c) (s.bitsAt (s.srcAddr.toNat + k) (s.n - k)) := by
  have hfree : PrefixFree s.codeword := fun d e hd he _ =>
    (State.eq_of_codeword_ne_nil hother hd).trans (State.eq_of_codeword_ne_nil hother he).symm
  exact hufDecode_of_parses hin hfit hfree (State.parses_zeros hother hc hk hzeros hone)

end

/-- Settles O55: `k` counts the zeros before the first 1, all of the input's bits if there is none. -/
theorem degenerateDecode : Obligations.DegenerateDecode := by
  intro s c hin hfit hc hother
  have hbytes {t : State} {k : Nat} {rest : List Bool} (hend : DecodeEnd s t (List.replicate k c) rest) (i : Nat)
      (hi : i < k) : t.bufByte (s.dstAddr.toNat + i) = c :=
    (hend.bytes i (by rwa [List.length_replicate])).trans (List.getElem_replicate _)
  refine ⟨fun hzeros => ?_, fun k hk hzeros hone => ?_⟩
  · obtain ⟨t, hexec, hend⟩ := hufDecode_of_oneSymbol hother hc hin hfit le_rfl hzeros (absurd · (lt_irrefl _))
    rw [Nat.sub_self] at hend
    exact ⟨t, hexec, hend.completed rfl, BitVec.eq_of_toNat_eq (hend.resLen.trans List.length_replicate),
      BitVec.eq_of_toNat_eq hend.resCnt, hbytes hend⟩
  · obtain ⟨t, hexec, hend⟩ := hufDecode_of_oneSymbol hother hc hin hfit hk.le hzeros fun _ => hone
    exact ⟨t, hexec, hend.mismatch (s.bitsAt_ne_nil _ (Nat.sub_ne_zero_of_lt hk)),
      hend.resLen.trans List.length_replicate, hend.resCnt.trans (s.bitsAt_length _ _), hbytes hend⟩

end Sys2Proof.Machine

/- The exception family (spec/60_exceptions.md): no step faults, and the IRQ output is a level that only a completion or
the enabling CTRL write raises. -/

namespace Sys2Proof.Machine

variable {s t : State}

/-! Every agent's move answers a next state -/

theorem unitMove_total (s : State) : ∃ t, unitMove s = .next t := by
  unfold unitMove
  split
  · split
    · rename_i i hd
      obtain ⟨t, hexec, -⟩ := exec_completion s i
      exact ⟨t, hexec⟩
    · exact ⟨_, rfl⟩
  · exact ⟨_, rfl⟩

theorem hostMove_total (s : State) : ∃ t, hostMove s = .next t := by
  unfold hostMove
  split <;> exact ⟨_, rfl⟩

/-- Settles O8: a command ends in a completion, a host access in an answer, and reset in the state after it. -/
theorem everyStepAnswersANextState : Obligations.EveryStepAnswersANextState := by
  intro s
  unfold step
  cases s.nextAgent with
  | unit => exact unitMove_total _
  | host => exact hostMove_total _
  | platformReset => exact ⟨_, rfl⟩

/-! The IRQ output -/

theorem State.irq_eq_true_iff (s : State) : s.irq = true ↔ s.done = true ∧ s.ie = true := Bool.and_eq_true_iff

/-- A completion sets DONE and keeps IE, so IRQ is IE after it (spec/60_exceptions.md R238). -/
theorem Completion.irq_eq {i : Instr} (hc : Completion s i t) : t.irq = s.ie := by
  rw [State.irq, hc.done_eq, hc.sameControl.ie, Bool.true_and]

/-- Settles O27: each clause is the write rule of one register, or the flags of a completion. -/
theorem irqFollowsDoneAndEnable : Obligations.IrqFollowsDoneAndEnable := by
  intro s
  have write (r : Reg) (v : Word) : (s.serve (.write v) .w4 (BitVec.ofNat 21 r.offset)).1.irq = (s.writeReg r v).irq := by
    rw [State.serve_write_reg]
  refine ⟨rfl, fun i t hexec => ?_, fun hdone => ?_, ?_, ?_, fun w hb => ?_⟩
  · have hc := completion_of_exec s hexec
    exact ⟨hc.done_eq, hc.irq_eq⟩
  · exact (write .ctrl 1).trans (by simp [State.writeReg, State.irq, hdone])
  · exact (write .ctrl 0).trans (by simp [State.writeReg, State.irq])
  · exact (write .status 2).trans (by simp [State.writeReg, State.irq])
  · exact (write .cmd w).trans (by simp [State.writeReg, State.irq, State.accept, hb])

/-! What raises DONE and IE -/

/-- No host access sets DONE (spec/10_state.md R25, R36). -/
theorem PortEffect.done_of_done (hp : PortEffect s t) (ht : t.done = true) : s.done = true := by
  revert ht
  cases hp with
  | same => exact id
  | refuse _ => exact id
  | buf a n v _ _ => exact id
  | ct c w v _ _ =>
    exact s.writeCt_cases (P := fun u => u.done = true → s.done = true) c w v id (fun _ => id) (fun _ _ => id)
  | reg r v =>
    exact s.writeReg_cases (P := fun u => u.done = true → s.done = true) r v id (fun _ => id) id
      (fun h => (Bool.and_eq_true_iff.1 h).1) (fun _ h => absurd h Bool.false_ne_true) (fun _ _ _ _ _ _ => id)

/-- The only access that sets IE is a 4-byte write of CTRL, at its system address, with bit 0 set
(spec/10_state.md R26, spec/20_memory.md R63). -/
theorem State.hostAccess_ie {a : Access} (h : (s.hostAccess a).ie = true) (hs : s.ie = false) :
    ∃ v, v.getLsbD 0 = true ∧ a = ⟨.write v, .w4, s.cfg.unitBase + 0x008⟩ := by
  obtain ⟨kind, width, addr⟩ := a
  rw [State.hostAccess, State.access] at h
  split at h
  · exact absurd (hs.symm.trans h) Bool.false_ne_true
  · rename_i off hport
    obtain ⟨rfl, hoff, v, rfl, hv⟩ := s.serve_ie kind width off hs h
    have haddr : addr = s.cfg.unitBase + off.toNat := eq_base_of_portOffset s.cfg addr off hport
    rw [hoff] at haddr
    exact ⟨v, hv, by rw [haddr]; rfl⟩

/-- The only host statement that sets IE is that access: `wait` reads (spec/30_encoding.md R99). -/
theorem hostMove_ie (h : hostMove s = .next t) (hs : s.ie = false) (ht : t.ie = true) :
    ∃ v rest, v.getLsbD 0 = true ∧ s.script = .access ⟨.write v, .w4, s.cfg.unitBase + 0x008⟩ :: rest := by
  unfold hostMove at h
  split at h <;> cases h
  · exact absurd (hs.symm.trans ht) Bool.false_ne_true
  · rename_i a rest hscript
    obtain ⟨v, hv, rfl⟩ := State.hostAccess_ie ht hs
    exact ⟨v, rest, hv, hscript⟩
  · obtain ⟨v, -, hread⟩ := State.hostAccess_ie ht hs
    cases hread

/-- Settles O16: only a completion sets DONE, so a host move that raises IRQ finds DONE = 1 and sets IE. -/
theorem interruptComesOnlyFromCompletion : Obligations.InterruptComesOnlyFromCompletion := by
  intro s t hstep
  have unraised {flag : Bool} {P : Prop} (hlow : flag = false) (hhigh : flag = true) : P :=
    absurd (hlow.symm.trans hhigh) Bool.false_ne_true
  cases step_effect hstep with
  | completes i t ha hb hd hc => exact ⟨fun _ _ => ⟨ha, hb, hc.busy_eq⟩, fun _ _ => .inl ⟨ha, hb, hc.busy_eq⟩⟩
  | invalid e ha hb hd => exact ⟨fun _ _ => ⟨ha, hb, rfl⟩, fun _ _ => .inl ⟨ha, hb, rfl⟩⟩
  | idle ha hb => exact ⟨unraised, unraised⟩
  | host ha script answers u hu =>
    refine ⟨fun hs ht => unraised hs (hu.done_of_done ht), fun hs ht => .inr ?_⟩
    obtain ⟨hdone, hie⟩ := (State.irq_eq_true_iff _).1 ht
    have hsdone : s.done = true := hu.done_of_done hdone
    have hsie : s.ie = false := by rwa [State.irq, hsdone, Bool.true_and] at hs
    rw [step, ha] at hstep
    exact ⟨ha, hsdone, hsie, hie, hostMove_ie (s := { s with sched := s.sched.tail }) hstep hsie hie⟩
  | reset ha => exact ⟨fun _ => unraised rfl, fun _ => unraised rfl⟩

end Sys2Proof.Machine

/- The family of reset and hazards (spec/70_reset_and_hazards.md): a pending command completes within the schedule, and a
reset event abandons it. -/

namespace Sys2Proof.Machine

variable {s t : State}

/-! What a step does to a pending command, by the agent that moves -/

/-- Where the unit moves, the pending command completes (spec/40_command_execution.md R113, R114). -/
theorem step_completes_of_unit (hb : s.busy = true) (ha : s.nextAgent = .unit) (hstep : step s = .next t) :
    t.busy = false ∧ t.done = true := by
  have other {a : Agent} {P : Prop} (ha' : s.nextAgent = a) (hne : a ≠ .unit) : P := absurd (ha'.symm.trans ha) hne
  cases step_effect hstep with
  | completes i t _ _ _ hc => exact ⟨hc.busy_eq, hc.done_eq⟩
  | invalid e _ _ _ => exact ⟨rfl, rfl⟩
  | idle _ hidle => exact absurd (hb.symm.trans hidle) (by decide)
  | host ha' _ _ _ _ => exact other ha' (by decide)
  | reset ha' => exact other ha' (by decide)

/-- Where the host moves, the command stays pending and one place of the schedule is used up
(spec/20_memory.md R70, R71, R77; log entry 6). -/
theorem step_pending_of_host (hb : s.busy = true) (ha : s.nextAgent = .host) (hstep : step s = .next t) :
    t.busy = true ∧ t.sched = s.sched.tail := by
  rw [step, ha] at hstep
  obtain ⟨script, answers, u, hu, rfl⟩ := hostMove_effect hstep
  obtain ⟨ie, done, haz, rfl⟩ := hu.eq_of_busy hb
  exact ⟨hb, rfl⟩

theorem State.nextAgent_of_sched_nil (h : s.sched = []) (hb : s.busy = true) : s.nextAgent = .unit := by
  simp [State.nextAgent, h, hb]

theorem State.nextAgent_of_sched_cons {a : Agent} {rest : List Agent} (h : s.sched = a :: rest) : s.nextAgent = a := by
  simp [State.nextAgent, h]

/-! Bounded completion -/

/-- A run passes through the state its first step answers. -/
theorem run_succ_of_step (h : step s = .next t) (k : Nat) : Host.Core.run core (k + 1) s = Host.Core.run core k t := by
  have hcore : core.step s = .next t := h
  simp only [Host.Core.run, hcore]

/-- Within `bound` steps the pending command has completed, with DONE = 1 (spec/40_command_execution.md R114). -/
def State.CompletesWithin (s : State) (bound : Nat) : Prop :=
  ∃ k ≤ bound, ∃ t, Host.Core.run core k s = .next t ∧ t.busy = false ∧ t.done = true

theorem State.completesWithin_of_unit (hb : s.busy = true) (ha : s.nextAgent = .unit) (bound : Nat) :
    s.CompletesWithin (bound + 1) := by
  obtain ⟨t, hstep⟩ := everyStepAnswersANextState s
  exact ⟨1, Nat.le_add_left 1 bound, t, run_succ_of_step hstep 0, step_completes_of_unit hb ha hstep⟩

theorem State.CompletesWithin.of_step {bound : Nat} (h : t.CompletesWithin bound) (hstep : step s = .next t) :
    s.CompletesWithin (bound + 1) := by
  obtain ⟨k, hk, u, hrun, hended⟩ := h
  exact ⟨k + 1, Nat.succ_le_succ hk, u, (run_succ_of_step hstep k).trans hrun, hended⟩

/-- Settles O9, by induction on the schedule: the host's moves leave the command pending, and the unit's first move,
after the schedule at the latest, completes it. -/
theorem pendingCommandCompletes : Obligations.PendingCommandCompletes := by
  intro s hb hnoreset
  change s.CompletesWithin (s.sched.length + 1)
  generalize hsched : s.sched = sched at hnoreset ⊢
  induction sched generalizing s with
  | nil => exact State.completesWithin_of_unit hb (State.nextAgent_of_sched_nil hsched hb) 0
  | cons a rest ih =>
    have ha : s.nextAgent = a := State.nextAgent_of_sched_cons hsched
    cases a with
    | unit => exact State.completesWithin_of_unit hb ha _
    | host =>
      obtain ⟨t, hstep⟩ := everyStepAnswersANextState s
      obtain ⟨htb, htsched⟩ := step_pending_of_host hb ha hstep
      rw [hsched] at htsched
      exact (ih t htb htsched (mt (List.mem_cons_of_mem _) hnoreset)).of_step hstep
    | platformReset => exact absurd List.mem_cons_self hnoreset

/-! Reset -/

theorem step_of_platformReset (ha : s.nextAgent = .platformReset) :
    step s = .next { s with sched := s.sched.tail }.resetUnit := by
  rw [step, ha, move]

/-- A reset event leaves every register as it is after reset, whatever the unit was doing
(spec/70_reset_and_hazards.md R260). -/
theorem State.readReg_resetUnit (s : State) (r : Reg) :
    s.resetUnit.readReg r = (State.afterReset s.cfg (s.epoch + 1)).readReg r := by
  cases r <;> rfl

/-- Settles O11: the step is the reset event, and its registers and CT are those of the state after reset. -/
theorem resetAbandonsThePendingCommand : Obligations.ResetAbandonsThePendingCommand := by
  intro s ha
  obtain ⟨hzero, -, -, hbusy, -, hirq, hct⟩ := resetLeavesTheStatedValues s.cfg (s.epoch + 1)
  exact ⟨_, step_of_platformReset ha,
    fun r hid hcaps => (State.readReg_resetUnit _ r).trans (hzero r hid hcaps),
    rfl, rfl, hbusy, rfl, hirq, hct, rfl, rfl, rfl, rfl⟩

end Sys2Proof.Machine
